-- ==== Sys2Proof/Word.lean ====
section
/-! DEFINITION. The plain data types of the block: words, bytes, fetched opcodes, register indices. -/

namespace Sys2Proof

/-- A register, pc, address or immediate value.  `XLEN` is 32 or 64 (R6), so a value of `XLEN` bits is held in 64 bits,
zero-extended when `XLEN` = 32 (log 1, DESIGN CHOICE). -/
abbrev Word := BitVec 64

/-- The smallest addressable unit (R40). -/
abbrev Byte := BitVec 8

/-- A fetched 32-bit instruction word, the document's `opcode` (R14, R42). -/
abbrev Opcode := BitVec 32

/-- A register index field, 0 to 31 (R24). -/
abbrev RegIdx := BitVec 5

end Sys2Proof
end

