-- ==== Sys2Proof/Config.lean ====
section
/-! DEFINITION. The construction parameters of a hart (R6, R25), fixed for its life (R250), and the host's trap policy (R239). -/

namespace Sys2Proof

/-- The register width `XLEN` (R6). -/
inductive Xlen
  | rv32
  | rv64
deriving DecidableEq, Repr

/-- `XLEN` as a number of bits (R6). -/
def Xlen.bits : Xlen → Nat
  | .rv32 => 32
  | .rv64 => 64

/-- The register-file size `NREGS` (R6, R20). -/
inductive NRegs
  | r16
  | r32
deriving DecidableEq, Repr

/-- `NREGS` as a number (R6). -/
def NRegs.count : NRegs → Nat
  | .r16 => 16
  | .r32 => 32

/-- The hart's `config` together with the two size parameters (R6, R25): written at construction, never afterwards. -/
structure HartConfig where
  /-- `XLEN` -/
  xlen : Xlen
  /-- `NREGS` -/
  nregs : NRegs
  /-- the enabled extension letters; only `M` and `C` have an effect (R6, D2) -/
  extensions : List Char
  /-- the ABI-name preference of the out-of-scope disassembler; read by no rule (R5, R25) -/
  abiName : Bool
deriving DecidableEq, Repr

/-- `ext_M`: the letter `M` is enabled (R6). -/
def HartConfig.extM (c : HartConfig) : Bool := c.extensions.contains 'M'

/-- `ext_C`: the letter `C` is enabled (R6). -/
def HartConfig.extC (c : HartConfig) : Bool := c.extensions.contains 'C'

/-- `trap_policy` (R239, D22), left open by the spec: what the host does after a trap. -/
inductive TrapPolicy
  /-- `halt`: no step follows a trap -/
  | halts
  /-- `continue`: stepping goes on -/
  | continues
deriving DecidableEq, Repr

end Sys2Proof
end

