-- ==== Sys2Proof/Syntax.lean ====
section
/-! DEFINITION. The instruction set as syntax: one constructor per mnemonic of spec/opcode_table.json, and the mnemonic tags of the
classifier. -/

namespace Sys2Proof

/-- The mnemonic tags (R26, R86): 65 instructions in the spec's group order, and the sentinel `UNKNOWN`. -/
inductive Tag
  | UNKNOWN
  | LUI | AUIPC
  | JAL
  | JALR
  | BEQ | BNE | BLT | BGE | BLTU | BGEU
  | LB | LH | LW | LBU | LHU
  | SB | SH | SW
  | ADDI | SLTI | SLTIU | XORI | ORI | ANDI
  | SLLI | SRLI | SRAI
  | ADD | SUB | SLL | SLT | SLTU | XOR | SRL | SRA | OR | AND
  | FENCE
  | ECALL | EBREAK
  | LWU | LD
  | SD
  | ADDIW
  | SLLIW | SRLIW | SRAIW
  | ADDW | SUBW | SLLW | SRLW | SRAW
  | MUL | MULH | MULHSU | MULHU | DIV | DIVU | REM | REMU
  | MULW | DIVW | DIVUW | REMW | REMUW
deriving DecidableEq, Repr

/-- One instruction with the fields its encoding holds.  `imm` of the I and S formats is the 12-bit field; of the U format
`opcode[31:12]`; of the B and J formats the assembled 13-bit and 21-bit even offset (R66 to R70).  A shift amount has 6 bits
(5 for the `W` shifts, R74); on a 32-bit hart it must be below 32 (see `Instr.wellFormed`).  `fields` of `FENCE` is `opcode[31:20]`,
which the block ignores, as it does the `rd` and `rs1` bits of that word (R83). -/
inductive Instr
  | lui (rd : RegIdx) (imm : BitVec 20)
  | auipc (rd : RegIdx) (imm : BitVec 20)
  | jal (rd : RegIdx) (imm : BitVec 21)
  | jalr (rd rs1 : RegIdx) (imm : BitVec 12)
  | beq (rs1 rs2 : RegIdx) (imm : BitVec 13)
  | bne (rs1 rs2 : RegIdx) (imm : BitVec 13)
  | blt (rs1 rs2 : RegIdx) (imm : BitVec 13)
  | bge (rs1 rs2 : RegIdx) (imm : BitVec 13)
  | bltu (rs1 rs2 : RegIdx) (imm : BitVec 13)
  | bgeu (rs1 rs2 : RegIdx) (imm : BitVec 13)
  | lb (rd rs1 : RegIdx) (imm : BitVec 12)
  | lh (rd rs1 : RegIdx) (imm : BitVec 12)
  | lw (rd rs1 : RegIdx) (imm : BitVec 12)
  | lbu (rd rs1 : RegIdx) (imm : BitVec 12)
  | lhu (rd rs1 : RegIdx) (imm : BitVec 12)
  | sb (rs1 rs2 : RegIdx) (imm : BitVec 12)
  | sh (rs1 rs2 : RegIdx) (imm : BitVec 12)
  | sw (rs1 rs2 : RegIdx) (imm : BitVec 12)
  | addi (rd rs1 : RegIdx) (imm : BitVec 12)
  | slti (rd rs1 : RegIdx) (imm : BitVec 12)
  | sltiu (rd rs1 : RegIdx) (imm : BitVec 12)
  | xori (rd rs1 : RegIdx) (imm : BitVec 12)
  | ori (rd rs1 : RegIdx) (imm : BitVec 12)
  | andi (rd rs1 : RegIdx) (imm : BitVec 12)
  | slli (rd rs1 : RegIdx) (shamt : BitVec 6)
  | srli (rd rs1 : RegIdx) (shamt : BitVec 6)
  | srai (rd rs1 : RegIdx) (shamt : BitVec 6)
  | add (rd rs1 rs2 : RegIdx)
  | sub (rd rs1 rs2 : RegIdx)
  | sll (rd rs1 rs2 : RegIdx)
  | slt (rd rs1 rs2 : RegIdx)
  | sltu (rd rs1 rs2 : RegIdx)
  | xor (rd rs1 rs2 : RegIdx)
  | srl (rd rs1 rs2 : RegIdx)
  | sra (rd rs1 rs2 : RegIdx)
  | or (rd rs1 rs2 : RegIdx)
  | and (rd rs1 rs2 : RegIdx)
  | fence (rd rs1 : RegIdx) (fields : BitVec 12)
  | ecall
  | ebreak
  | lwu (rd rs1 : RegIdx) (imm : BitVec 12)
  | ld (rd rs1 : RegIdx) (imm : BitVec 12)
  | sd (rs1 rs2 : RegIdx) (imm : BitVec 12)
  | addiw (rd rs1 : RegIdx) (imm : BitVec 12)
  | slliw (rd rs1 : RegIdx) (shamt : BitVec 5)
  | srliw (rd rs1 : RegIdx) (shamt : BitVec 5)
  | sraiw (rd rs1 : RegIdx) (shamt : BitVec 5)
  | addw (rd rs1 rs2 : RegIdx)
  | subw (rd rs1 rs2 : RegIdx)
  | sllw (rd rs1 rs2 : RegIdx)
  | srlw (rd rs1 rs2 : RegIdx)
  | sraw (rd rs1 rs2 : RegIdx)
  | mul (rd rs1 rs2 : RegIdx)
  | mulh (rd rs1 rs2 : RegIdx)
  | mulhsu (rd rs1 rs2 : RegIdx)
  | mulhu (rd rs1 rs2 : RegIdx)
  | div (rd rs1 rs2 : RegIdx)
  | divu (rd rs1 rs2 : RegIdx)
  | rem (rd rs1 rs2 : RegIdx)
  | remu (rd rs1 rs2 : RegIdx)
  | mulw (rd rs1 rs2 : RegIdx)
  | divw (rd rs1 rs2 : RegIdx)
  | divuw (rd rs1 rs2 : RegIdx)
  | remw (rd rs1 rs2 : RegIdx)
  | remuw (rd rs1 rs2 : RegIdx)
deriving DecidableEq, Repr

/-- The tag of an instruction (R14: the mnemonic the classifier returns for it). -/
def Instr.tag : Instr → Tag
  | .lui _ _ => .LUI
  | .auipc _ _ => .AUIPC
  | .jal _ _ => .JAL
  | .jalr _ _ _ => .JALR
  | .beq _ _ _ => .BEQ
  | .bne _ _ _ => .BNE
  | .blt _ _ _ => .BLT
  | .bge _ _ _ => .BGE
  | .bltu _ _ _ => .BLTU
  | .bgeu _ _ _ => .BGEU
  | .lb _ _ _ => .LB
  | .lh _ _ _ => .LH
  | .lw _ _ _ => .LW
  | .lbu _ _ _ => .LBU
  | .lhu _ _ _ => .LHU
  | .sb _ _ _ => .SB
  | .sh _ _ _ => .SH
  | .sw _ _ _ => .SW
  | .addi _ _ _ => .ADDI
  | .slti _ _ _ => .SLTI
  | .sltiu _ _ _ => .SLTIU
  | .xori _ _ _ => .XORI
  | .ori _ _ _ => .ORI
  | .andi _ _ _ => .ANDI
  | .slli _ _ _ => .SLLI
  | .srli _ _ _ => .SRLI
  | .srai _ _ _ => .SRAI
  | .add _ _ _ => .ADD
  | .sub _ _ _ => .SUB
  | .sll _ _ _ => .SLL
  | .slt _ _ _ => .SLT
  | .sltu _ _ _ => .SLTU
  | .xor _ _ _ => .XOR
  | .srl _ _ _ => .SRL
  | .sra _ _ _ => .SRA
  | .or _ _ _ => .OR
  | .and _ _ _ => .AND
  | .fence _ _ _ => .FENCE
  | .ecall => .ECALL
  | .ebreak => .EBREAK
  | .lwu _ _ _ => .LWU
  | .ld _ _ _ => .LD
  | .sd _ _ _ => .SD
  | .addiw _ _ _ => .ADDIW
  | .slliw _ _ _ => .SLLIW
  | .srliw _ _ _ => .SRLIW
  | .sraiw _ _ _ => .SRAIW
  | .addw _ _ _ => .ADDW
  | .subw _ _ _ => .SUBW
  | .sllw _ _ _ => .SLLW
  | .srlw _ _ _ => .SRLW
  | .sraw _ _ _ => .SRAW
  | .mul _ _ _ => .MUL
  | .mulh _ _ _ => .MULH
  | .mulhsu _ _ _ => .MULHSU
  | .mulhu _ _ _ => .MULHU
  | .div _ _ _ => .DIV
  | .divu _ _ _ => .DIVU
  | .rem _ _ _ => .REM
  | .remu _ _ _ => .REMU
  | .mulw _ _ _ => .MULW
  | .divw _ _ _ => .DIVW
  | .divuw _ _ _ => .DIVUW
  | .remw _ _ _ => .REMW
  | .remuw _ _ _ => .REMUW

end Sys2Proof
end

