-- ==== Sys2Proof/WellFormed.lean ====
section
/-! DEFINITION. The instructions that have an encoding on a hart of a given width. -/

namespace Sys2Proof

/-- `i` has an encoding on a hart of width `xl`: a B or J offset is even (R68, R70: bit 0 of the immediate is forced to 0), and
a shift amount of `SLLI`, `SRLI`, `SRAI` is below 32 when `XLEN` = 32 (R79: `opcode[25]` = 1 classifies `UNKNOWN` there).
Every other field value is encodable. -/
def Instr.wellFormed (xl : Xlen) : Instr → Bool
  | .beq _ _ imm | .bne _ _ imm | .blt _ _ imm | .bge _ _ imm | .bltu _ _ imm | .bgeu _ _ imm => !imm.getLsbD 0
  | .jal _ imm => !imm.getLsbD 0
  | .slli _ _ shamt | .srli _ _ shamt | .srai _ _ shamt => xl == .rv64 || !shamt.getLsbD 5
  | .lui _ _ | .auipc _ _ => true
  | .jalr _ _ _ => true
  | .lb _ _ _ | .lh _ _ _ | .lw _ _ _ | .lbu _ _ _ | .lhu _ _ _ => true
  | .sb _ _ _ | .sh _ _ _ | .sw _ _ _ => true
  | .addi _ _ _ | .slti _ _ _ | .sltiu _ _ _ | .xori _ _ _ | .ori _ _ _ | .andi _ _ _ => true
  | .add _ _ _ | .sub _ _ _ | .sll _ _ _ | .slt _ _ _ | .sltu _ _ _ | .xor _ _ _ | .srl _ _ _ | .sra _ _ _ | .or _ _ _ | .and _ _ _ => true
  | .fence _ _ _ => true
  | .ecall | .ebreak => true
  | .lwu _ _ _ | .ld _ _ _ => true
  | .sd _ _ _ => true
  | .addiw _ _ _ => true
  | .slliw _ _ _ | .srliw _ _ _ | .sraiw _ _ _ => true
  | .addw _ _ _ | .subw _ _ _ | .sllw _ _ _ | .srlw _ _ _ | .sraw _ _ _ => true
  | .mul _ _ _ | .mulh _ _ _ | .mulhsu _ _ _ | .mulhu _ _ _ | .div _ _ _ | .divu _ _ _ | .rem _ _ _ | .remu _ _ _ => true
  | .mulw _ _ _ | .divw _ _ _ | .divuw _ _ _ | .remw _ _ _ | .remuw _ _ _ => true

end Sys2Proof
end

