-- ==== Sys2Proof/Decode.lean ====
section
/-! DEFINITION. The sub-blocks LEN (length detector), CLS (classifier) and DSP (dispatch gate) of 30_encoding.md; the decoder from
words and bytes to `Instr`, rejecting by name; and the encoder. -/

namespace Sys2Proof

/-! ### LEN: the length detector (R60 to R62) -/

/-- `ilen(h)` of R61, in bytes; `h` is `opcode[15:0]` and the first condition that holds decides. -/
def ilen (h : BitVec 16) : Nat :=
  if h.extractLsb' 0 2 ≠ 0b11#2 then 2
  else if h.extractLsb' 2 3 ≠ 0b111#3 then 4
  else if h.extractLsb' 0 6 = 0b011111#6 then 6
  else if h.extractLsb' 0 7 = 0b0111111#7 then 8
  else if h.extractLsb' 12 3 ≠ 0b111#3 then 10 + 2 * (h.extractLsb' 12 3).toNat
  else 24

/-- The length class of a fetched word: LEN looks at its low 16 bits only (R61, R93). -/
def opcodeLength (w : Opcode) : Nat := ilen (w.extractLsb' 0 16)

/-! ### Fields of the opcode (R63) -/

/-- The primary opcode, `opcode[6:0]`. -/
def primaryOf (w : Opcode) : BitVec 7 := w.extractLsb' 0 7

/-- `rd`, `opcode[11:7]`. -/
def rdOf (w : Opcode) : RegIdx := w.extractLsb' 7 5

/-- `funct3`, `opcode[14:12]`. -/
def funct3Of (w : Opcode) : BitVec 3 := w.extractLsb' 12 3

/-- `rs1`, `opcode[19:15]`. -/
def rs1Of (w : Opcode) : RegIdx := w.extractLsb' 15 5

/-- `rs2`, `opcode[24:20]`. -/
def rs2Of (w : Opcode) : RegIdx := w.extractLsb' 20 5

/-- `funct7`, `opcode[31:25]`. -/
def funct7Of (w : Opcode) : BitVec 7 := w.extractLsb' 25 7

/-- `funct6`, `opcode[31:26]` (R79). -/
def funct6Of (w : Opcode) : BitVec 6 := w.extractLsb' 26 6

/-- The 6-bit shift amount `opcode[25:20]` (R74). -/
def shamt6Of (w : Opcode) : BitVec 6 := w.extractLsb' 20 6

/-- The 5-bit shift amount `opcode[24:20]` (R74). -/
def shamt5Of (w : Opcode) : BitVec 5 := w.extractLsb' 20 5

/-- The I immediate field `opcode[31:20]` (R66). -/
def immIOf (w : Opcode) : BitVec 12 := w.extractLsb' 20 12

/-- The S immediate `opcode[31:25] ++ opcode[11:7]` (R67). -/
def immSOf (w : Opcode) : BitVec 12 := w.extractLsb' 25 7 ++ w.extractLsb' 7 5

/-- The B immediate `opcode[31] ++ opcode[7] ++ opcode[30:25] ++ opcode[11:8] ++ 0` (R68). -/
def immBOf (w : Opcode) : BitVec 13 :=
  w.extractLsb' 31 1 ++ w.extractLsb' 7 1 ++ w.extractLsb' 25 6 ++ w.extractLsb' 8 4 ++ 0#1

/-- The U immediate field `opcode[31:12]` (R69). -/
def immUOf (w : Opcode) : BitVec 20 := w.extractLsb' 12 20

/-- The J immediate `opcode[31] ++ opcode[19:12] ++ opcode[20] ++ opcode[30:21] ++ 0` (R70). -/
def immJOf (w : Opcode) : BitVec 21 :=
  w.extractLsb' 31 1 ++ w.extractLsb' 12 8 ++ w.extractLsb' 20 1 ++ w.extractLsb' 21 10 ++ 0#1

/-! ### CLS: the classifier (R75 to R85) -/

/-- LOAD by funct3 (R77). -/
def classifyLoad (f3 : BitVec 3) : Tag :=
  match f3 with
  | 0b000 => .LB
  | 0b001 => .LH
  | 0b010 => .LW
  | 0b011 => .LD
  | 0b100 => .LBU
  | 0b101 => .LHU
  | 0b110 => .LWU
  | _ => .UNKNOWN

/-- STORE by funct3 (R80). -/
def classifyStore (f3 : BitVec 3) : Tag :=
  match f3 with
  | 0b000 => .SB
  | 0b001 => .SH
  | 0b010 => .SW
  | 0b011 => .SD
  | _ => .UNKNOWN

/-- BRANCH by funct3 (R80). -/
def classifyBranch (f3 : BitVec 3) : Tag :=
  match f3 with
  | 0b000 => .BEQ
  | 0b001 => .BNE
  | 0b100 => .BLT
  | 0b101 => .BGE
  | 0b110 => .BLTU
  | 0b111 => .BGEU
  | _ => .UNKNOWN

/-- The upper field of an XLEN-wide shift-immediate, compared with `upper ++ 0` on 7 bits when `XLEN` = 32 and with `upper` on
6 bits when `XLEN` = 64 (R79). -/
def upperFieldIs (xl : Xlen) (upper : BitVec 6) (w : Opcode) : Bool :=
  match xl with
  | .rv32 => funct7Of w == upper ++ 0#1
  | .rv64 => funct6Of w == upper

/-- OP-IMM by funct3, with the upper-field compare of the shifts (R78, R79). -/
def classifyOpImm (xl : Xlen) (w : Opcode) : Tag :=
  match funct3Of w with
  | 0b000 => .ADDI
  | 0b010 => .SLTI
  | 0b011 => .SLTIU
  | 0b100 => .XORI
  | 0b110 => .ORI
  | 0b111 => .ANDI
  | 0b001 => if upperFieldIs xl 0b000000#6 w then .SLLI else .UNKNOWN
  | _ =>
    if upperFieldIs xl 0b000000#6 w then .SRLI
    else if upperFieldIs xl 0b010000#6 w then .SRAI
    else .UNKNOWN

/-- OP with funct7 = `0000001`: the M instructions (R81). -/
def classifyMulDiv (f3 : BitVec 3) : Tag :=
  match f3 with
  | 0b000 => .MUL
  | 0b001 => .MULH
  | 0b010 => .MULHSU
  | 0b011 => .MULHU
  | 0b100 => .DIV
  | 0b101 => .DIVU
  | 0b110 => .REM
  | _ => .REMU

/-- OP with funct7 = `0000000` (R81). -/
def classifyOpBase (f3 : BitVec 3) : Tag :=
  match f3 with
  | 0b000 => .ADD
  | 0b001 => .SLL
  | 0b010 => .SLT
  | 0b011 => .SLTU
  | 0b100 => .XOR
  | 0b101 => .SRL
  | 0b110 => .OR
  | _ => .AND

/-- OP with funct7 = `0100000` (R81). -/
def classifyOpAlt (f3 : BitVec 3) : Tag :=
  match f3 with
  | 0b000 => .SUB
  | 0b101 => .SRA
  | _ => .UNKNOWN

/-- OP: the M compare first, then the base path (R81). -/
def classifyOp (f7 : BitVec 7) (f3 : BitVec 3) : Tag :=
  match f7 with
  | 0b0000001 => classifyMulDiv f3
  | 0b0000000 => classifyOpBase f3
  | 0b0100000 => classifyOpAlt f3
  | _ => .UNKNOWN

/-- OP-IMM-32 by funct3, with the funct7 compare of the shifts (R82). -/
def classifyOpImm32 (f7 : BitVec 7) (f3 : BitVec 3) : Tag :=
  match f3 with
  | 0b000 => .ADDIW
  | 0b001 => if f7 = 0b0000000#7 then .SLLIW else .UNKNOWN
  | 0b101 => if f7 = 0b0000000#7 then .SRLIW else if f7 = 0b0100000#7 then .SRAIW else .UNKNOWN
  | _ => .UNKNOWN

/-- OP-32 with funct7 = `0000001` (R82). -/
def classifyMulDiv32 (f3 : BitVec 3) : Tag :=
  match f3 with
  | 0b000 => .MULW
  | 0b100 => .DIVW
  | 0b101 => .DIVUW
  | 0b110 => .REMW
  | 0b111 => .REMUW
  | _ => .UNKNOWN

/-- OP-32 with funct7 = `0000000` (R82). -/
def classifyOp32Base (f3 : BitVec 3) : Tag :=
  match f3 with
  | 0b000 => .ADDW
  | 0b001 => .SLLW
  | 0b101 => .SRLW
  | _ => .UNKNOWN

/-- OP-32 with funct7 = `0100000` (R82). -/
def classifyOp32Alt (f3 : BitVec 3) : Tag :=
  match f3 with
  | 0b000 => .SUBW
  | 0b101 => .SRAW
  | _ => .UNKNOWN

/-- OP-32 (R82). -/
def classifyOp32 (f7 : BitVec 7) (f3 : BitVec 3) : Tag :=
  match f7 with
  | 0b0000001 => classifyMulDiv32 f3
  | 0b0000000 => classifyOp32Base f3
  | 0b0100000 => classifyOp32Alt f3
  | _ => .UNKNOWN

/-- SYSTEM: two whole-word comparisons (R84). -/
def classifySystem (w : Opcode) : Tag :=
  if w = 0x00000073#32 then .ECALL else if w = 0x00100073#32 then .EBREAK else .UNKNOWN

/-- CLS: the mnemonic tag of a word, total, `UNKNOWN` where no row matches (R75, R76, R83, R85). -/
def classify (xl : Xlen) (w : Opcode) : Tag :=
  match primaryOf w with
  | 0b0000011 => classifyLoad (funct3Of w)
  | 0b0001111 => if funct3Of w = 0b000#3 then .FENCE else .UNKNOWN
  | 0b0010011 => classifyOpImm xl w
  | 0b0010111 => .AUIPC
  | 0b0011011 => classifyOpImm32 (funct7Of w) (funct3Of w)
  | 0b0100011 => classifyStore (funct3Of w)
  | 0b0110011 => classifyOp (funct7Of w) (funct3Of w)
  | 0b0110111 => .LUI
  | 0b0111011 => classifyOp32 (funct7Of w) (funct3Of w)
  | 0b1100011 => classifyBranch (funct3Of w)
  | 0b1100111 => if funct3Of w = 0b000#3 then .JALR else .UNKNOWN
  | 0b1101111 => .JAL
  | 0b1110011 => classifySystem w
  | _ => .UNKNOWN

/-! ### DSP: the dispatch gate (R86 to R89) -/

/-- The tag groups (R86). -/
inductive Group
  | sentinel
  | iBase
  | i64
  | m32
  | m64
deriving DecidableEq, Repr

/-- The group a tag belongs to (R86). -/
def groupOf : Tag → Group
  | .UNKNOWN => .sentinel
  | .LUI | .AUIPC | .JAL | .JALR | .BEQ | .BNE | .BLT | .BGE | .BLTU | .BGEU | .LB | .LH | .LW | .LBU | .LHU | .SB
  | .SH | .SW | .ADDI | .SLTI | .SLTIU | .XORI | .ORI | .ANDI | .SLLI | .SRLI | .SRAI | .ADD | .SUB | .SLL | .SLT
  | .SLTU | .XOR | .SRL | .SRA | .OR | .AND | .FENCE | .ECALL | .EBREAK => .iBase
  | .LWU | .LD | .SD | .ADDIW | .SLLIW | .SRLIW | .SRAIW | .ADDW | .SUBW | .SLLW | .SRLW | .SRAW => .i64
  | .MUL | .MULH | .MULHSU | .MULHU | .DIV | .DIVU | .REM | .REMU => .m32
  | .MULW | .DIVW | .DIVUW | .REMW | .REMUW => .m64

/-- A group whose executors the dispatch table holds: I-base always, I64 when `XLEN` = 64, M32 when `ext_M`, M64 when both
(R88, D2).  The sentinel's entry is never spliced (R87). -/
def groupEnabled (c : HartConfig) : Group → Bool
  | .sentinel => false
  | .iBase => true
  | .i64 => c.xlen == .rv64
  | .m32 => c.extM
  | .m64 => c.extM && c.xlen == .rv64

/-- The tag's own executor is in the table; otherwise the slot keeps the default entry (R87, R88). -/
def tagEnabled (c : HartConfig) (t : Tag) : Bool := groupEnabled c (groupOf t)

/-- The format decoders (R63): six formats, `Empty` and `Fail`. -/
inductive Format
  | R
  | I
  | S
  | B
  | U
  | J
  | Empty
  | Fail
deriving DecidableEq, Repr

/-- The format of an enabled tag (R89).  No tag has `Fail` (R72, D7). -/
def formatOf : Tag → Format
  | .UNKNOWN => .Empty
  | .LUI | .AUIPC => .U
  | .JALR | .LB | .LH | .LW | .LBU | .LHU | .ADDI | .SLTI | .SLTIU | .XORI | .ORI | .ANDI | .SLLI | .SRLI | .SRAI
  | .LWU | .LD | .ADDIW | .SLLIW | .SRLIW | .SRAIW => .I
  | .ADD | .SUB | .SLL | .SLT | .SLTU | .XOR | .SRL | .SRA | .OR | .AND | .ADDW | .SUBW | .SLLW | .SRLW | .SRAW
  | .MUL | .MULH | .MULHSU | .MULHU | .DIV | .DIVU | .REM | .REMU | .MULW | .DIVW | .DIVUW | .REMW | .REMUW => .R
  | .JAL => .J
  | .BEQ | .BNE | .BLT | .BGE | .BLTU | .BGEU => .B
  | .SB | .SH | .SW | .SD => .S
  | .FENCE | .ECALL | .EBREAK => .Empty

/-- One entry of the dispatch table: the format decoder, and the tag whose executor runs (`UNKNOWN` for the `UNKNOWN` executor);
the third member of the document's entry, the disassembler, is out of scope (R5, R26). -/
structure DispatchEntry where
  format : Format
  executor : Tag
deriving DecidableEq, Repr

/-- The dispatch table as a function of the configuration (R26, R87 to R89). -/
def dispatchEntry (c : HartConfig) (t : Tag) : DispatchEntry :=
  if tagEnabled c t then ⟨formatOf t, t⟩ else ⟨.Empty, .UNKNOWN⟩

/-! ### The decoder -/

/-- Why a 32-bit word is no instruction of the block. -/
inductive Reject
  /-- the word begins an instruction of this many bytes, not 4 (R62) -/
  | length (bytes : Nat)
  /-- a 4-byte word that CLS classifies `UNKNOWN` (R85) -/
  | unknown
deriving DecidableEq, Repr

/-- The fields of a word whose tag is `t` (R65 to R71). -/
def instrOf (t : Tag) (w : Opcode) : Except Reject Instr :=
  match t with
  | .UNKNOWN => .error .unknown
  | .LUI => .ok (.lui (rdOf w) (immUOf w))
  | .AUIPC => .ok (.auipc (rdOf w) (immUOf w))
  | .JAL => .ok (.jal (rdOf w) (immJOf w))
  | .JALR => .ok (.jalr (rdOf w) (rs1Of w) (immIOf w))
  | .BEQ => .ok (.beq (rs1Of w) (rs2Of w) (immBOf w))
  | .BNE => .ok (.bne (rs1Of w) (rs2Of w) (immBOf w))
  | .BLT => .ok (.blt (rs1Of w) (rs2Of w) (immBOf w))
  | .BGE => .ok (.bge (rs1Of w) (rs2Of w) (immBOf w))
  | .BLTU => .ok (.bltu (rs1Of w) (rs2Of w) (immBOf w))
  | .BGEU => .ok (.bgeu (rs1Of w) (rs2Of w) (immBOf w))
  | .LB => .ok (.lb (rdOf w) (rs1Of w) (immIOf w))
  | .LH => .ok (.lh (rdOf w) (rs1Of w) (immIOf w))
  | .LW => .ok (.lw (rdOf w) (rs1Of w) (immIOf w))
  | .LBU => .ok (.lbu (rdOf w) (rs1Of w) (immIOf w))
  | .LHU => .ok (.lhu (rdOf w) (rs1Of w) (immIOf w))
  | .SB => .ok (.sb (rs1Of w) (rs2Of w) (immSOf w))
  | .SH => .ok (.sh (rs1Of w) (rs2Of w) (immSOf w))
  | .SW => .ok (.sw (rs1Of w) (rs2Of w) (immSOf w))
  | .ADDI => .ok (.addi (rdOf w) (rs1Of w) (immIOf w))
  | .SLTI => .ok (.slti (rdOf w) (rs1Of w) (immIOf w))
  | .SLTIU => .ok (.sltiu (rdOf w) (rs1Of w) (immIOf w))
  | .XORI => .ok (.xori (rdOf w) (rs1Of w) (immIOf w))
  | .ORI => .ok (.ori (rdOf w) (rs1Of w) (immIOf w))
  | .ANDI => .ok (.andi (rdOf w) (rs1Of w) (immIOf w))
  | .SLLI => .ok (.slli (rdOf w) (rs1Of w) (shamt6Of w))
  | .SRLI => .ok (.srli (rdOf w) (rs1Of w) (shamt6Of w))
  | .SRAI => .ok (.srai (rdOf w) (rs1Of w) (shamt6Of w))
  | .ADD => .ok (.add (rdOf w) (rs1Of w) (rs2Of w))
  | .SUB => .ok (.sub (rdOf w) (rs1Of w) (rs2Of w))
  | .SLL => .ok (.sll (rdOf w) (rs1Of w) (rs2Of w))
  | .SLT => .ok (.slt (rdOf w) (rs1Of w) (rs2Of w))
  | .SLTU => .ok (.sltu (rdOf w) (rs1Of w) (rs2Of w))
  | .XOR => .ok (.xor (rdOf w) (rs1Of w) (rs2Of w))
  | .SRL => .ok (.srl (rdOf w) (rs1Of w) (rs2Of w))
  | .SRA => .ok (.sra (rdOf w) (rs1Of w) (rs2Of w))
  | .OR => .ok (.or (rdOf w) (rs1Of w) (rs2Of w))
  | .AND => .ok (.and (rdOf w) (rs1Of w) (rs2Of w))
  | .FENCE => .ok (.fence (rdOf w) (rs1Of w) (immIOf w))
  | .ECALL => .ok .ecall
  | .EBREAK => .ok .ebreak
  | .LWU => .ok (.lwu (rdOf w) (rs1Of w) (immIOf w))
  | .LD => .ok (.ld (rdOf w) (rs1Of w) (immIOf w))
  | .SD => .ok (.sd (rs1Of w) (rs2Of w) (immSOf w))
  | .ADDIW => .ok (.addiw (rdOf w) (rs1Of w) (immIOf w))
  | .SLLIW => .ok (.slliw (rdOf w) (rs1Of w) (shamt5Of w))
  | .SRLIW => .ok (.srliw (rdOf w) (rs1Of w) (shamt5Of w))
  | .SRAIW => .ok (.sraiw (rdOf w) (rs1Of w) (shamt5Of w))
  | .ADDW => .ok (.addw (rdOf w) (rs1Of w) (rs2Of w))
  | .SUBW => .ok (.subw (rdOf w) (rs1Of w) (rs2Of w))
  | .SLLW => .ok (.sllw (rdOf w) (rs1Of w) (rs2Of w))
  | .SRLW => .ok (.srlw (rdOf w) (rs1Of w) (rs2Of w))
  | .SRAW => .ok (.sraw (rdOf w) (rs1Of w) (rs2Of w))
  | .MUL => .ok (.mul (rdOf w) (rs1Of w) (rs2Of w))
  | .MULH => .ok (.mulh (rdOf w) (rs1Of w) (rs2Of w))
  | .MULHSU => .ok (.mulhsu (rdOf w) (rs1Of w) (rs2Of w))
  | .MULHU => .ok (.mulhu (rdOf w) (rs1Of w) (rs2Of w))
  | .DIV => .ok (.div (rdOf w) (rs1Of w) (rs2Of w))
  | .DIVU => .ok (.divu (rdOf w) (rs1Of w) (rs2Of w))
  | .REM => .ok (.rem (rdOf w) (rs1Of w) (rs2Of w))
  | .REMU => .ok (.remu (rdOf w) (rs1Of w) (rs2Of w))
  | .MULW => .ok (.mulw (rdOf w) (rs1Of w) (rs2Of w))
  | .DIVW => .ok (.divw (rdOf w) (rs1Of w) (rs2Of w))
  | .DIVUW => .ok (.divuw (rdOf w) (rs1Of w) (rs2Of w))
  | .REMW => .ok (.remw (rdOf w) (rs1Of w) (rs2Of w))
  | .REMUW => .ok (.remuw (rdOf w) (rs1Of w) (rs2Of w))

/-- The decoder on one fetched word: LEN, then CLS, then the fields (R100 steps 2 to 4). -/
def decodeWord (xl : Xlen) (w : Opcode) : Except Reject Instr :=
  if opcodeLength w = 4 then instrOf (classify xl w) w else .error (.length (opcodeLength w))

/-- Why a list of bytes does not begin with an instruction. -/
inductive BytesReject
  /-- fewer than the 4 bytes the block always fetches (R42) -/
  | truncated
  /-- the first 4 bytes are a word the decoder rejects -/
  | word (r : Reject)
deriving DecidableEq, Repr

/-- The 32-bit word of 4 bytes, the first at the lowest address (R45: little-endian). -/
def wordOfBytes (b0 b1 b2 b3 : Byte) : Opcode := b3 ++ b2 ++ b1 ++ b0

/-- The 4 bytes of a word as they lie in memory, lowest address first (R45). -/
def bytesOfWord (w : Opcode) : List Byte :=
  [w.extractLsb' 0 8, w.extractLsb' 8 8, w.extractLsb' 16 8, w.extractLsb' 24 8]

/-- The decoder on bytes: the instruction they begin with and the bytes after it. -/
def decodeBytes (xl : Xlen) : List Byte → Except BytesReject (Instr × List Byte)
  | b0 :: b1 :: b2 :: b3 :: rest =>
    match decodeWord xl (wordOfBytes b0 b1 b2 b3) with
    | .ok i => .ok (i, rest)
    | .error r => .error (.word r)
  | _ => .error .truncated

/-! ### The encoder -/

/-- Format R (R63). -/
def encodeR (f7 : BitVec 7) (f3 : BitVec 3) (op : BitVec 7) (rd rs1 rs2 : RegIdx) : Opcode :=
  f7 ++ rs2 ++ rs1 ++ f3 ++ rd ++ op

/-- Format I (R63). -/
def encodeI (f3 : BitVec 3) (op : BitVec 7) (rd rs1 : RegIdx) (imm : BitVec 12) : Opcode :=
  imm ++ rs1 ++ f3 ++ rd ++ op

/-- Format S (R63). -/
def encodeS (f3 : BitVec 3) (op : BitVec 7) (rs1 rs2 : RegIdx) (imm : BitVec 12) : Opcode :=
  imm.extractLsb' 5 7 ++ rs2 ++ rs1 ++ f3 ++ imm.extractLsb' 0 5 ++ op

/-- Format B (R63): bit 0 of the offset has no place in the word. -/
def encodeB (f3 : BitVec 3) (op : BitVec 7) (rs1 rs2 : RegIdx) (imm : BitVec 13) : Opcode :=
  imm.extractLsb' 12 1 ++ imm.extractLsb' 5 6 ++ rs2 ++ rs1 ++ f3 ++ imm.extractLsb' 1 4 ++ imm.extractLsb' 11 1 ++ op

/-- Format U (R63). -/
def encodeU (op : BitVec 7) (rd : RegIdx) (imm : BitVec 20) : Opcode := imm ++ rd ++ op

/-- Format J (R63): bit 0 of the offset has no place in the word. -/
def encodeJ (op : BitVec 7) (rd : RegIdx) (imm : BitVec 21) : Opcode :=
  imm.extractLsb' 20 1 ++ imm.extractLsb' 1 10 ++ imm.extractLsb' 11 1 ++ imm.extractLsb' 12 8 ++ rd ++ op

/-- The word of an instruction, from the encoding tables R76 to R84. -/
def encode : Instr → Opcode
  | .lui rd imm => encodeU 0b0110111#7 rd imm
  | .auipc rd imm => encodeU 0b0010111#7 rd imm
  | .jal rd imm => encodeJ 0b1101111#7 rd imm
  | .jalr rd rs1 imm => encodeI 0b000#3 0b1100111#7 rd rs1 imm
  | .beq rs1 rs2 imm => encodeB 0b000#3 0b1100011#7 rs1 rs2 imm
  | .bne rs1 rs2 imm => encodeB 0b001#3 0b1100011#7 rs1 rs2 imm
  | .blt rs1 rs2 imm => encodeB 0b100#3 0b1100011#7 rs1 rs2 imm
  | .bge rs1 rs2 imm => encodeB 0b101#3 0b1100011#7 rs1 rs2 imm
  | .bltu rs1 rs2 imm => encodeB 0b110#3 0b1100011#7 rs1 rs2 imm
  | .bgeu rs1 rs2 imm => encodeB 0b111#3 0b1100011#7 rs1 rs2 imm
  | .lb rd rs1 imm => encodeI 0b000#3 0b0000011#7 rd rs1 imm
  | .lh rd rs1 imm => encodeI 0b001#3 0b0000011#7 rd rs1 imm
  | .lw rd rs1 imm => encodeI 0b010#3 0b0000011#7 rd rs1 imm
  | .lbu rd rs1 imm => encodeI 0b100#3 0b0000011#7 rd rs1 imm
  | .lhu rd rs1 imm => encodeI 0b101#3 0b0000011#7 rd rs1 imm
  | .sb rs1 rs2 imm => encodeS 0b000#3 0b0100011#7 rs1 rs2 imm
  | .sh rs1 rs2 imm => encodeS 0b001#3 0b0100011#7 rs1 rs2 imm
  | .sw rs1 rs2 imm => encodeS 0b010#3 0b0100011#7 rs1 rs2 imm
  | .addi rd rs1 imm => encodeI 0b000#3 0b0010011#7 rd rs1 imm
  | .slti rd rs1 imm => encodeI 0b010#3 0b0010011#7 rd rs1 imm
  | .sltiu rd rs1 imm => encodeI 0b011#3 0b0010011#7 rd rs1 imm
  | .xori rd rs1 imm => encodeI 0b100#3 0b0010011#7 rd rs1 imm
  | .ori rd rs1 imm => encodeI 0b110#3 0b0010011#7 rd rs1 imm
  | .andi rd rs1 imm => encodeI 0b111#3 0b0010011#7 rd rs1 imm
  | .slli rd rs1 shamt => encodeI 0b001#3 0b0010011#7 rd rs1 (0b000000#6 ++ shamt)
  | .srli rd rs1 shamt => encodeI 0b101#3 0b0010011#7 rd rs1 (0b000000#6 ++ shamt)
  | .srai rd rs1 shamt => encodeI 0b101#3 0b0010011#7 rd rs1 (0b010000#6 ++ shamt)
  | .add rd rs1 rs2 => encodeR 0b0000000#7 0b000#3 0b0110011#7 rd rs1 rs2
  | .sub rd rs1 rs2 => encodeR 0b0100000#7 0b000#3 0b0110011#7 rd rs1 rs2
  | .sll rd rs1 rs2 => encodeR 0b0000000#7 0b001#3 0b0110011#7 rd rs1 rs2
  | .slt rd rs1 rs2 => encodeR 0b0000000#7 0b010#3 0b0110011#7 rd rs1 rs2
  | .sltu rd rs1 rs2 => encodeR 0b0000000#7 0b011#3 0b0110011#7 rd rs1 rs2
  | .xor rd rs1 rs2 => encodeR 0b0000000#7 0b100#3 0b0110011#7 rd rs1 rs2
  | .srl rd rs1 rs2 => encodeR 0b0000000#7 0b101#3 0b0110011#7 rd rs1 rs2
  | .sra rd rs1 rs2 => encodeR 0b0100000#7 0b101#3 0b0110011#7 rd rs1 rs2
  | .or rd rs1 rs2 => encodeR 0b0000000#7 0b110#3 0b0110011#7 rd rs1 rs2
  | .and rd rs1 rs2 => encodeR 0b0000000#7 0b111#3 0b0110011#7 rd rs1 rs2
  | .fence rd rs1 fields => encodeI 0b000#3 0b0001111#7 rd rs1 fields
  | .ecall => 0x00000073#32
  | .ebreak => 0x00100073#32
  | .lwu rd rs1 imm => encodeI 0b110#3 0b0000011#7 rd rs1 imm
  | .ld rd rs1 imm => encodeI 0b011#3 0b0000011#7 rd rs1 imm
  | .sd rs1 rs2 imm => encodeS 0b011#3 0b0100011#7 rs1 rs2 imm
  | .addiw rd rs1 imm => encodeI 0b000#3 0b0011011#7 rd rs1 imm
  | .slliw rd rs1 shamt => encodeI 0b001#3 0b0011011#7 rd rs1 (0b0000000#7 ++ shamt)
  | .srliw rd rs1 shamt => encodeI 0b101#3 0b0011011#7 rd rs1 (0b0000000#7 ++ shamt)
  | .sraiw rd rs1 shamt => encodeI 0b101#3 0b0011011#7 rd rs1 (0b0100000#7 ++ shamt)
  | .addw rd rs1 rs2 => encodeR 0b0000000#7 0b000#3 0b0111011#7 rd rs1 rs2
  | .subw rd rs1 rs2 => encodeR 0b0100000#7 0b000#3 0b0111011#7 rd rs1 rs2
  | .sllw rd rs1 rs2 => encodeR 0b0000000#7 0b001#3 0b0111011#7 rd rs1 rs2
  | .srlw rd rs1 rs2 => encodeR 0b0000000#7 0b101#3 0b0111011#7 rd rs1 rs2
  | .sraw rd rs1 rs2 => encodeR 0b0100000#7 0b101#3 0b0111011#7 rd rs1 rs2
  | .mul rd rs1 rs2 => encodeR 0b0000001#7 0b000#3 0b0110011#7 rd rs1 rs2
  | .mulh rd rs1 rs2 => encodeR 0b0000001#7 0b001#3 0b0110011#7 rd rs1 rs2
  | .mulhsu rd rs1 rs2 => encodeR 0b0000001#7 0b010#3 0b0110011#7 rd rs1 rs2
  | .mulhu rd rs1 rs2 => encodeR 0b0000001#7 0b011#3 0b0110011#7 rd rs1 rs2
  | .div rd rs1 rs2 => encodeR 0b0000001#7 0b100#3 0b0110011#7 rd rs1 rs2
  | .divu rd rs1 rs2 => encodeR 0b0000001#7 0b101#3 0b0110011#7 rd rs1 rs2
  | .rem rd rs1 rs2 => encodeR 0b0000001#7 0b110#3 0b0110011#7 rd rs1 rs2
  | .remu rd rs1 rs2 => encodeR 0b0000001#7 0b111#3 0b0110011#7 rd rs1 rs2
  | .mulw rd rs1 rs2 => encodeR 0b0000001#7 0b000#3 0b0111011#7 rd rs1 rs2
  | .divw rd rs1 rs2 => encodeR 0b0000001#7 0b100#3 0b0111011#7 rd rs1 rs2
  | .divuw rd rs1 rs2 => encodeR 0b0000001#7 0b101#3 0b0111011#7 rd rs1 rs2
  | .remw rd rs1 rs2 => encodeR 0b0000001#7 0b110#3 0b0111011#7 rd rs1 rs2
  | .remuw rd rs1 rs2 => encodeR 0b0000001#7 0b111#3 0b0111011#7 rd rs1 rs2

/-! ### The opcode table as rows -/

/-- A row of spec/opcode_table.json: a word `w` is the row's instruction when `w &&& mask = match`. -/
structure OpcodeRow where
  tag : Tag
  mask : Opcode
  value : Opcode
deriving DecidableEq, Repr

/-- The rows of the table that hold for both widths: loads, stores, branches, jumps, upper immediates, system. -/
def commonRowsTransfer : List OpcodeRow :=
  [
    ⟨.LB, 0x0000707F#32, 0x00000003#32⟩, ⟨.LH, 0x0000707F#32, 0x00001003#32⟩,
    ⟨.LW, 0x0000707F#32, 0x00002003#32⟩, ⟨.LD, 0x0000707F#32, 0x00003003#32⟩,
    ⟨.LBU, 0x0000707F#32, 0x00004003#32⟩, ⟨.LHU, 0x0000707F#32, 0x00005003#32⟩,
    ⟨.LWU, 0x0000707F#32, 0x00006003#32⟩, ⟨.FENCE, 0x0000707F#32, 0x0000000F#32⟩,
    ⟨.AUIPC, 0x0000007F#32, 0x00000017#32⟩, ⟨.SB, 0x0000707F#32, 0x00000023#32⟩,
    ⟨.SH, 0x0000707F#32, 0x00001023#32⟩, ⟨.SW, 0x0000707F#32, 0x00002023#32⟩,
    ⟨.SD, 0x0000707F#32, 0x00003023#32⟩, ⟨.LUI, 0x0000007F#32, 0x00000037#32⟩,
    ⟨.BEQ, 0x0000707F#32, 0x00000063#32⟩, ⟨.BNE, 0x0000707F#32, 0x00001063#32⟩,
    ⟨.BLT, 0x0000707F#32, 0x00004063#32⟩, ⟨.BGE, 0x0000707F#32, 0x00005063#32⟩,
    ⟨.BLTU, 0x0000707F#32, 0x00006063#32⟩, ⟨.BGEU, 0x0000707F#32, 0x00007063#32⟩,
    ⟨.JALR, 0x0000707F#32, 0x00000067#32⟩, ⟨.JAL, 0x0000007F#32, 0x0000006F#32⟩,
    ⟨.ECALL, 0xFFFFFFFF#32, 0x00000073#32⟩, ⟨.EBREAK, 0xFFFFFFFF#32, 0x00100073#32⟩]

/-- The rows of the table that hold for both widths: register-immediate and register-register. -/
def commonRowsAlu : List OpcodeRow :=
  [
    ⟨.ADDI, 0x0000707F#32, 0x00000013#32⟩, ⟨.SLTI, 0x0000707F#32, 0x00002013#32⟩,
    ⟨.SLTIU, 0x0000707F#32, 0x00003013#32⟩, ⟨.XORI, 0x0000707F#32, 0x00004013#32⟩,
    ⟨.ORI, 0x0000707F#32, 0x00006013#32⟩, ⟨.ANDI, 0x0000707F#32, 0x00007013#32⟩,
    ⟨.ADDIW, 0x0000707F#32, 0x0000001B#32⟩, ⟨.SLLIW, 0xFE00707F#32, 0x0000101B#32⟩,
    ⟨.SRLIW, 0xFE00707F#32, 0x0000501B#32⟩, ⟨.SRAIW, 0xFE00707F#32, 0x4000501B#32⟩,
    ⟨.ADD, 0xFE00707F#32, 0x00000033#32⟩, ⟨.SLL, 0xFE00707F#32, 0x00001033#32⟩,
    ⟨.SLT, 0xFE00707F#32, 0x00002033#32⟩, ⟨.SLTU, 0xFE00707F#32, 0x00003033#32⟩,
    ⟨.XOR, 0xFE00707F#32, 0x00004033#32⟩, ⟨.SRL, 0xFE00707F#32, 0x00005033#32⟩,
    ⟨.OR, 0xFE00707F#32, 0x00006033#32⟩, ⟨.AND, 0xFE00707F#32, 0x00007033#32⟩,
    ⟨.SUB, 0xFE00707F#32, 0x40000033#32⟩, ⟨.SRA, 0xFE00707F#32, 0x40005033#32⟩,
    ⟨.ADDW, 0xFE00707F#32, 0x0000003B#32⟩, ⟨.SLLW, 0xFE00707F#32, 0x0000103B#32⟩,
    ⟨.SRLW, 0xFE00707F#32, 0x0000503B#32⟩, ⟨.SUBW, 0xFE00707F#32, 0x4000003B#32⟩,
    ⟨.SRAW, 0xFE00707F#32, 0x4000503B#32⟩]

/-- The rows of the table that hold for both widths: multiply and divide. -/
def commonRowsMulDiv : List OpcodeRow :=
  [
    ⟨.MUL, 0xFE00707F#32, 0x02000033#32⟩, ⟨.MULH, 0xFE00707F#32, 0x02001033#32⟩,
    ⟨.MULHSU, 0xFE00707F#32, 0x02002033#32⟩, ⟨.MULHU, 0xFE00707F#32, 0x02003033#32⟩,
    ⟨.DIV, 0xFE00707F#32, 0x02004033#32⟩, ⟨.DIVU, 0xFE00707F#32, 0x02005033#32⟩,
    ⟨.REM, 0xFE00707F#32, 0x02006033#32⟩, ⟨.REMU, 0xFE00707F#32, 0x02007033#32⟩,
    ⟨.MULW, 0xFE00707F#32, 0x0200003B#32⟩, ⟨.DIVW, 0xFE00707F#32, 0x0200403B#32⟩,
    ⟨.DIVUW, 0xFE00707F#32, 0x0200503B#32⟩, ⟨.REMW, 0xFE00707F#32, 0x0200603B#32⟩,
    ⟨.REMUW, 0xFE00707F#32, 0x0200703B#32⟩]

/-- The rows of `SLLI`, `SRLI`, `SRAI` when `XLEN` = 32 (R79). -/
def shiftRows32 : List OpcodeRow :=
  [
    ⟨.SLLI, 0xFE00707F#32, 0x00001013#32⟩, ⟨.SRLI, 0xFE00707F#32, 0x00005013#32⟩,
    ⟨.SRAI, 0xFE00707F#32, 0x40005013#32⟩]

/-- The rows of `SLLI`, `SRLI`, `SRAI` when `XLEN` = 64 (R79). -/
def shiftRows64 : List OpcodeRow :=
  [
    ⟨.SLLI, 0xFC00707F#32, 0x00001013#32⟩, ⟨.SRLI, 0xFC00707F#32, 0x00005013#32⟩,
    ⟨.SRAI, 0xFC00707F#32, 0x40005013#32⟩]

/-- The opcode table of a hart of a given width. -/
def opcodeRows (xl : Xlen) : List OpcodeRow :=
  commonRowsTransfer ++ commonRowsAlu ++ commonRowsMulDiv ++
    (match xl with
    | .rv32 => shiftRows32
    | .rv64 => shiftRows64)

/-! ### The host's table words -/

/-- The instruction the decoder reads from a table word of `nbits` bits: the word laid out little-endian as 4 bytes, every bit
above `nbits` 0, on a hart with `XLEN` = 64, whose classifier has the wider shift-immediate rows (log 20). -/
def decodeTableWord (nbits w : Nat) : Option Instr :=
  match decodeBytes .rv64 (bytesOfWord (BitVec.ofNat 32 (w % 2 ^ nbits))) with
  | .ok (i, _) => some i
  | .error _ => none

end Sys2Proof
end

