-- ==== Sys2Proof/Machine/State.lean ====
section
/-! DEFINITION. The hart state (10_state.md) with the environment it is handed, as plain data; the reasons a step can stop; and the
state after construction. -/

namespace Sys2Proof.Machine

/-- The instruction latch's record (R24).  `pc` and `imm` are `XLEN` bits wide. -/
structure InstRecord where
  /-- the mnemonic tag CLS returned -/
  tag : Tag
  /-- the value of `pc` at the fetch of this instruction -/
  pc : Word
  rd : RegIdx
  rs1 : RegIdx
  rs2 : RegIdx
  /-- the immediate, already sign-extended to `XLEN` bits -/
  imm : Word
deriving DecidableEq, Repr

/-- The closed set of trap kinds (R230). -/
inductive TrapKind
  | breakpoint
  | instructionAddressMisaligned
  | illegalInstruction
  | systemCall
deriving DecidableEq, Repr

/-- The width of a data access (R41, R48). -/
inductive AccessSize
  | byte
  | half
  | word
  | double
deriving DecidableEq, Repr

/-- One call of the environment interface (R41). -/
inductive EnvCall
  /-- `get_opcode_32(a)` -/
  | fetch (a : Word)
  /-- `get_byte`, `get_half`, `get_word` or `get_double` at `a` -/
  | read (a : Word) (n : AccessSize)
  /-- `set_byte`, `set_half`, `set_word` or `set_double` at `a`; `v` is the data zero-extended -/
  | write (a : Word) (n : AccessSize) (v : Word)
  /-- `trap(kind)`, the one-way notification (R231) -/
  | trap (k : TrapKind)
deriving DecidableEq, Repr

/-- The bytes that do not read as `unlistedByte`, by strictly rising address. -/
abbrev Memory := List Host.Cell

/-- What a byte of memory reads as that nothing has written (log 5, DESIGN CHOICE, unsafe). -/
def unlistedByte : Byte := 0

/-- The hart state `x`, `pc`, `inst`, `config` (R27), with the environment's memory (R49) and the record of the calls made on the
environment (R41).  `dispatch` is a function of `config` (R26, `dispatchEntry`). -/
structure State where
  /-- `XLEN`, `NREGS`, extension letters, `abi_name` (R6, R25) -/
  config : HartConfig
  /-- the general registers (R20); the cells 16 to 31 are no registers when `NREGS` = 16 (R21) -/
  x : Vector Word 32
  /-- the program counter (R23) -/
  pc : Word
  /-- the instruction latch (R24) -/
  inst : InstRecord
  /-- the environment's memory (R49) -/
  mem : Memory
  /-- the environment calls made so far, latest first: the model's own record (log 6) -/
  calls : List EnvCall
deriving DecidableEq, Repr

/-- Why the machine stops with a fault: never.  The four fault kinds of the block are traps, which a step takes as a next state
(R230, R233), and the block never stops by itself (R258), so no one raises a `Fault` (log 17; safe: nothing is claimed of a
stopped machine). -/
inductive Fault
deriving DecidableEq, Repr

/-- Why a step has no meaning. -/
inductive Refusal
  /-- raised by `exec` for an instruction whose meaning is not written yet (none is left); safe -/
  | notModelled (mnemonic : String)
  /-- `Unsupported(length(n))`: raised by `step` for a fetched word whose length class is not 4 bytes (R13, R62, U1); safe, the
  model refuses what the document calls unsupported -/
  | unsupportedLength (bytes : Nat)
  /-- `Unsupported(reg_index)`: raised by `exec` for a register index of 16 or more when `NREGS` = 16 (R13, R21, U2); safe -/
  | regIndex
  /-- raised by `State.construct` for arguments that break a launch premise (R30, R253, U11); safe -/
  | launchPremise
deriving DecidableEq, Repr

/-- The configuration of `State.reset`: an RV64IM hart with 32 registers, on which every instruction of the opcode table runs
(log 2, DESIGN CHOICE). -/
def HartConfig.atReset : HartConfig := { xlen := .rv64, nregs := .r32, extensions := ['M'], abiName := false }

/-- The record in the latch before the first step, which R30 leaves unspecified and no rule reads (log 4, DESIGN CHOICE). -/
def InstRecord.atReset : InstRecord := { tag := .UNKNOWN, pc := 0, rd := 0, rs1 := 0, rs2 := 0, imm := 0 }

/-- The hart right after construction (R30, R250): `x[0]` = 0; the values the host supplies, `config`, `initial_registers`,
`initial_pc` and the memory's contents, are the ones log 2, 3 and 5 name; no environment call has been made (R251). -/
def State.reset : State :=
  { config := HartConfig.atReset, x := Vector.replicate 32 0, pc := 0, inst := InstRecord.atReset, mem := [], calls := [] }

end Sys2Proof.Machine
end

