-- ==== Sys2Proof/Machine/Operands.lean ====
section
/-! DEFINITION. `XLEN`-bit values in 64-bit words (R9, R10, R11), and the sub-block FMT: the records the format decoders produce
(R63 to R74), from an opcode and from an instruction. -/

namespace Sys2Proof

/-! ### Values of `XLEN` bits -/

/-- The low `XLEN` bits of a word, zero-extended: an `XLEN`-bit value as the model holds it (R9, log 1). -/
def Xlen.trunc (xl : Xlen) (v : Word) : Word :=
  match xl with
  | .rv32 => (v.setWidth 32).setWidth 64
  | .rv64 => v

/-- `sext_XLEN` (R10). -/
def Xlen.sext {n : Nat} (xl : Xlen) (v : BitVec n) : Word := xl.trunc (v.signExtend 64)

/-- `zext_XLEN` (R10). -/
def Xlen.zext {n : Nat} (xl : Xlen) (v : BitVec n) : Word := xl.trunc (v.setWidth 64)

/-- An operation on two `XLEN`-bit values that yields one: taken at width 32 or 64 (R9, R11). -/
def Xlen.lift2 (xl : Xlen) (f : {w : Nat} → BitVec w → BitVec w → BitVec w) (a b : Word) : Word :=
  match xl with
  | .rv32 => (f (a.setWidth 32) (b.setWidth 32)).setWidth 64
  | .rv64 => f a b

/-- A comparison of two `XLEN`-bit values (R11). -/
def Xlen.compare (xl : Xlen) (f : {w : Nat} → BitVec w → BitVec w → Bool) (a b : Word) : Bool :=
  match xl with
  | .rv32 => f (a.setWidth 32) (b.setWidth 32)
  | .rv64 => f a b

/-- `a + b` modulo 2^`XLEN` (R11). -/
def Xlen.add (xl : Xlen) (a b : Word) : Word := xl.trunc (a + b)

end Sys2Proof

namespace Sys2Proof.Machine

/-! ### FMT: the format decoders (R64 to R72) -/

/-- Format R (R65). -/
def fmtR (tag : Tag) (pc : Word) (w : Opcode) : InstRecord :=
  { tag := tag, pc := pc, rd := rdOf w, rs1 := rs1Of w, rs2 := rs2Of w, imm := 0 }

/-- Format I (R66). -/
def fmtI (xl : Xlen) (tag : Tag) (pc : Word) (w : Opcode) : InstRecord :=
  { tag := tag, pc := pc, rd := rdOf w, rs1 := rs1Of w, rs2 := 0, imm := xl.sext (immIOf w) }

/-- Format S (R67). -/
def fmtS (xl : Xlen) (tag : Tag) (pc : Word) (w : Opcode) : InstRecord :=
  { tag := tag, pc := pc, rd := 0, rs1 := rs1Of w, rs2 := rs2Of w, imm := xl.sext (immSOf w) }

/-- Format B (R68). -/
def fmtB (xl : Xlen) (tag : Tag) (pc : Word) (w : Opcode) : InstRecord :=
  { tag := tag, pc := pc, rd := 0, rs1 := rs1Of w, rs2 := rs2Of w, imm := xl.sext (immBOf w) }

/-- Format U (R69). -/
def fmtU (xl : Xlen) (tag : Tag) (pc : Word) (w : Opcode) : InstRecord :=
  { tag := tag, pc := pc, rd := rdOf w, rs1 := 0, rs2 := 0, imm := xl.sext (immUOf w ++ 0#12) }

/-- Format J (R70). -/
def fmtJ (xl : Xlen) (tag : Tag) (pc : Word) (w : Opcode) : InstRecord :=
  { tag := tag, pc := pc, rd := rdOf w, rs1 := 0, rs2 := 0, imm := xl.sext (immJOf w) }

/-- Format Empty (R71). -/
def fmtEmpty (tag : Tag) (pc : Word) : InstRecord := { tag := tag, pc := pc, rd := 0, rs1 := 0, rs2 := 0, imm := 0 }

/-- Format Fail (R72): the record of Empty; its diagnostic has no architectural effect (R240) and no dispatch entry selects it. -/
def fmtFail (tag : Tag) (pc : Word) : InstRecord := fmtEmpty tag pc

/-- FMT: the record the format decoder `f` makes of an opcode (R63). -/
def formatRecord (f : Format) (xl : Xlen) (tag : Tag) (pc : Word) (w : Opcode) : InstRecord :=
  match f with
  | .R => fmtR tag pc w
  | .I => fmtI xl tag pc w
  | .S => fmtS xl tag pc w
  | .B => fmtB xl tag pc w
  | .U => fmtU xl tag pc w
  | .J => fmtJ xl tag pc w
  | .Empty => fmtEmpty tag pc
  | .Fail => fmtFail tag pc

/-! ### The same records from an instruction's fields -/

/-- The record of an R-format instruction (R65). -/
def recordR (tag : Tag) (pc : Word) (rd rs1 rs2 : RegIdx) : InstRecord :=
  { tag := tag, pc := pc, rd := rd, rs1 := rs1, rs2 := rs2, imm := 0 }

/-- The record of an I-format instruction (R66). -/
def recordI (xl : Xlen) (tag : Tag) (pc : Word) (rd rs1 : RegIdx) (imm : BitVec 12) : InstRecord :=
  { tag := tag, pc := pc, rd := rd, rs1 := rs1, rs2 := 0, imm := xl.sext imm }

/-- The record of an S-format instruction (R67). -/
def recordS (xl : Xlen) (tag : Tag) (pc : Word) (rs1 rs2 : RegIdx) (imm : BitVec 12) : InstRecord :=
  { tag := tag, pc := pc, rd := 0, rs1 := rs1, rs2 := rs2, imm := xl.sext imm }

/-- The record of a B-format instruction (R68). -/
def recordB (xl : Xlen) (tag : Tag) (pc : Word) (rs1 rs2 : RegIdx) (imm : BitVec 13) : InstRecord :=
  { tag := tag, pc := pc, rd := 0, rs1 := rs1, rs2 := rs2, imm := xl.sext imm }

/-- The record of a U-format instruction (R69). -/
def recordU (xl : Xlen) (tag : Tag) (pc : Word) (rd : RegIdx) (imm : BitVec 20) : InstRecord :=
  { tag := tag, pc := pc, rd := rd, rs1 := 0, rs2 := 0, imm := xl.sext (imm ++ 0#12) }

/-- The record of a J-format instruction (R70). -/
def recordJ (xl : Xlen) (tag : Tag) (pc : Word) (rd : RegIdx) (imm : BitVec 21) : InstRecord :=
  { tag := tag, pc := pc, rd := rd, rs1 := 0, rs2 := 0, imm := xl.sext imm }

/-- The record the latch receives for an enabled instruction fetched at `pc` (R89 gives the format).  A shift-immediate keeps
its upper field in `imm` (R74). -/
def recordOf (xl : Xlen) (pc : Word) : Instr → InstRecord
  | .lui rd imm => recordU xl .LUI pc rd imm
  | .auipc rd imm => recordU xl .AUIPC pc rd imm
  | .jal rd imm => recordJ xl .JAL pc rd imm
  | .jalr rd rs1 imm => recordI xl .JALR pc rd rs1 imm
  | .beq rs1 rs2 imm => recordB xl .BEQ pc rs1 rs2 imm
  | .bne rs1 rs2 imm => recordB xl .BNE pc rs1 rs2 imm
  | .blt rs1 rs2 imm => recordB xl .BLT pc rs1 rs2 imm
  | .bge rs1 rs2 imm => recordB xl .BGE pc rs1 rs2 imm
  | .bltu rs1 rs2 imm => recordB xl .BLTU pc rs1 rs2 imm
  | .bgeu rs1 rs2 imm => recordB xl .BGEU pc rs1 rs2 imm
  | .lb rd rs1 imm => recordI xl .LB pc rd rs1 imm
  | .lh rd rs1 imm => recordI xl .LH pc rd rs1 imm
  | .lw rd rs1 imm => recordI xl .LW pc rd rs1 imm
  | .lbu rd rs1 imm => recordI xl .LBU pc rd rs1 imm
  | .lhu rd rs1 imm => recordI xl .LHU pc rd rs1 imm
  | .sb rs1 rs2 imm => recordS xl .SB pc rs1 rs2 imm
  | .sh rs1 rs2 imm => recordS xl .SH pc rs1 rs2 imm
  | .sw rs1 rs2 imm => recordS xl .SW pc rs1 rs2 imm
  | .addi rd rs1 imm => recordI xl .ADDI pc rd rs1 imm
  | .slti rd rs1 imm => recordI xl .SLTI pc rd rs1 imm
  | .sltiu rd rs1 imm => recordI xl .SLTIU pc rd rs1 imm
  | .xori rd rs1 imm => recordI xl .XORI pc rd rs1 imm
  | .ori rd rs1 imm => recordI xl .ORI pc rd rs1 imm
  | .andi rd rs1 imm => recordI xl .ANDI pc rd rs1 imm
  | .slli rd rs1 shamt => recordI xl .SLLI pc rd rs1 (0b000000#6 ++ shamt)
  | .srli rd rs1 shamt => recordI xl .SRLI pc rd rs1 (0b000000#6 ++ shamt)
  | .srai rd rs1 shamt => recordI xl .SRAI pc rd rs1 (0b010000#6 ++ shamt)
  | .add rd rs1 rs2 => recordR .ADD pc rd rs1 rs2
  | .sub rd rs1 rs2 => recordR .SUB pc rd rs1 rs2
  | .sll rd rs1 rs2 => recordR .SLL pc rd rs1 rs2
  | .slt rd rs1 rs2 => recordR .SLT pc rd rs1 rs2
  | .sltu rd rs1 rs2 => recordR .SLTU pc rd rs1 rs2
  | .xor rd rs1 rs2 => recordR .XOR pc rd rs1 rs2
  | .srl rd rs1 rs2 => recordR .SRL pc rd rs1 rs2
  | .sra rd rs1 rs2 => recordR .SRA pc rd rs1 rs2
  | .or rd rs1 rs2 => recordR .OR pc rd rs1 rs2
  | .and rd rs1 rs2 => recordR .AND pc rd rs1 rs2
  | .fence _ _ _ => fmtEmpty .FENCE pc
  | .ecall => fmtEmpty .ECALL pc
  | .ebreak => fmtEmpty .EBREAK pc
  | .lwu rd rs1 imm => recordI xl .LWU pc rd rs1 imm
  | .ld rd rs1 imm => recordI xl .LD pc rd rs1 imm
  | .sd rs1 rs2 imm => recordS xl .SD pc rs1 rs2 imm
  | .addiw rd rs1 imm => recordI xl .ADDIW pc rd rs1 imm
  | .slliw rd rs1 shamt => recordI xl .SLLIW pc rd rs1 (0b0000000#7 ++ shamt)
  | .srliw rd rs1 shamt => recordI xl .SRLIW pc rd rs1 (0b0000000#7 ++ shamt)
  | .sraiw rd rs1 shamt => recordI xl .SRAIW pc rd rs1 (0b0100000#7 ++ shamt)
  | .addw rd rs1 rs2 => recordR .ADDW pc rd rs1 rs2
  | .subw rd rs1 rs2 => recordR .SUBW pc rd rs1 rs2
  | .sllw rd rs1 rs2 => recordR .SLLW pc rd rs1 rs2
  | .srlw rd rs1 rs2 => recordR .SRLW pc rd rs1 rs2
  | .sraw rd rs1 rs2 => recordR .SRAW pc rd rs1 rs2
  | .mul rd rs1 rs2 => recordR .MUL pc rd rs1 rs2
  | .mulh rd rs1 rs2 => recordR .MULH pc rd rs1 rs2
  | .mulhsu rd rs1 rs2 => recordR .MULHSU pc rd rs1 rs2
  | .mulhu rd rs1 rs2 => recordR .MULHU pc rd rs1 rs2
  | .div rd rs1 rs2 => recordR .DIV pc rd rs1 rs2
  | .divu rd rs1 rs2 => recordR .DIVU pc rd rs1 rs2
  | .rem rd rs1 rs2 => recordR .REM pc rd rs1 rs2
  | .remu rd rs1 rs2 => recordR .REMU pc rd rs1 rs2
  | .mulw rd rs1 rs2 => recordR .MULW pc rd rs1 rs2
  | .divw rd rs1 rs2 => recordR .DIVW pc rd rs1 rs2
  | .divuw rd rs1 rs2 => recordR .DIVUW pc rd rs1 rs2
  | .remw rd rs1 rs2 => recordR .REMW pc rd rs1 rs2
  | .remuw rd rs1 rs2 => recordR .REMUW pc rd rs1 rs2

/-- Every register index of a decoded record exists in a file of `NREGS` registers (R21). -/
def indicesExist (n : NRegs) (d : InstRecord) : Bool :=
  decide (d.rd.toNat < n.count) && decide (d.rs1.toNat < n.count) && decide (d.rs2.toNat < n.count)

end Sys2Proof.Machine
end

