-- ==== Sys2Proof/Machine/Flags.lean ====
section
/-! DEFINITION. The block has no flags (R29): what stands in for them are the comparators, whose one-bit result an instruction writes
to a register or a branch consumes at once (R107, R170), and the address-alignment detector ALN (R112). -/

namespace Sys2Proof.Machine

/-- `a <s b` (R11). -/
def lessSigned {w : Nat} (a b : BitVec w) : Bool := decide (a.toInt < b.toInt)

/-- `a <u b` (R11). -/
def lessUnsigned {w : Nat} (a b : BitVec w) : Bool := decide (a.toNat < b.toNat)

/-- `zext_XLEN` of a one-bit comparison result (R107). -/
def bitToWord {w : Nat} (c : Bool) : BitVec w := BitVec.ofNat w c.toNat

/-- The condition of `BEQ` on all `XLEN` bits (R173). -/
def condEq (xl : Xlen) (a b : Word) : Bool := xl.compare (fun a b => a == b) a b

/-- The condition of `BNE` (R174). -/
def condNe (xl : Xlen) (a b : Word) : Bool := !condEq xl a b

/-- The condition of `BLT` (R175). -/
def condLt (xl : Xlen) (a b : Word) : Bool := xl.compare lessSigned a b

/-- The condition of `BGE` (R176). -/
def condGe (xl : Xlen) (a b : Word) : Bool := !condLt xl a b

/-- The condition of `BLTU` (R177). -/
def condLtu (xl : Xlen) (a b : Word) : Bool := xl.compare lessUnsigned a b

/-- The condition of `BGEU` (R178). -/
def condGeu (xl : Xlen) (a b : Word) : Bool := !condLtu xl a b

/-- ALN: `misaligned(a)` (R112). -/
def misaligned (extC : Bool) (a : Word) : Bool :=
  if extC then a.extractLsb' 0 1 != 0b0#1 else a.extractLsb' 0 2 != 0b00#2

end Sys2Proof.Machine
end

