-- ==== Sys2Proof/Machine/Ops.lean ====
section
/-! DEFINITION. The named operations over memory, registers and the environment, taking a trap, launching a hart, and issuing an
instruction (steps 4 to 6 of R100). -/

namespace Sys2Proof.Machine

/-- What a step or a meaning answers. -/
abbrev Result := Host.Outcome State Fault Refusal

/-! ### Bytes of memory -/

/-- The canonical form of memory: addresses strictly rising, no entry equal to what an unlisted byte reads as. -/
def Memory.wf : Memory → Bool
  | [] => true
  | [(_, v)] => v != unlistedByte
  | (a, v) :: (b, w) :: m => v != unlistedByte && decide (a < b) && Memory.wf ((b, w) :: m)

/-- The byte at an address. -/
def Memory.readByte : Memory → Nat → Byte
  | [], _ => unlistedByte
  | (b, w) :: m, a => if b = a then w else Memory.readByte m a

/-- List a byte at its place in the rising order, instead of the entry that stands there. -/
def Memory.insert : Memory → Nat → Byte → Memory
  | [], a, v => [(a, v)]
  | (b, w) :: m, a, v =>
    if a < b then (a, v) :: (b, w) :: m
    else if a = b then (a, v) :: m
    else (b, w) :: Memory.insert m a v

/-- Write one byte; the value an unlisted byte reads as is kept by listing nothing. -/
def Memory.writeByte (m : Memory) (a : Nat) (v : Byte) : Memory :=
  if v = unlistedByte then m.filter (fun c => c.1 != a) else Memory.insert m a v

/-- The address of byte `k` of an access at `a`: `a + k` modulo 2^`XLEN` (R45, R49). -/
def byteAddress (xl : Xlen) (a : Word) (k : Nat) : Nat := (xl.add a (BitVec.ofNat 64 k)).toNat

/-- The `n` bytes from byte `k` of an access at `a` on, the byte at the lowest address least significant (R45). -/
def Memory.readFrom (xl : Xlen) (m : Memory) (a : Word) (k : Nat) : Nat → Word
  | 0 => 0
  | n + 1 => (Memory.readByte m (byteAddress xl a k)).setWidth 64 ||| (Memory.readFrom xl m a (k + 1) n <<< 8)

/-- Write the low `n` bytes of `v` from byte `k` of an access at `a` on, least significant byte at the lowest address (R45). -/
def Memory.writeFrom (xl : Xlen) (m : Memory) (a : Word) (v : Word) (k : Nat) : Nat → Memory
  | 0 => m
  | n + 1 => Memory.writeFrom xl (Memory.writeByte m (byteAddress xl a k) (v.setWidth 8)) a (v >>> 8) (k + 1) n

/-- The number of bytes of an access (R41). -/
def AccessSize.bytes : AccessSize → Nat
  | .byte => 1
  | .half => 2
  | .word => 4
  | .double => 8

/-- The low `8n` bits of a word: the data of an `n`-byte access (R44). -/
def AccessSize.data : AccessSize → Word → Word
  | .byte, v => (v.setWidth 8).setWidth 64
  | .half, v => (v.setWidth 16).setWidth 64
  | .word, v => (v.setWidth 32).setWidth 64
  | .double, v => v

/-! ### Parts of the state -/

/-- `XLEN`. -/
def State.xlen (s : State) : Xlen := s.config.xlen

/-- A read port of the register file: the stored value, index 0 not special-cased (R104). -/
def State.reg (s : State) (r : RegIdx) : Word := s.x[r.toNat]

/-- `wr(rd, v)`: the write port, gated by `rd != 0` (R105). -/
def State.wr (s : State) (rd : RegIdx) (v : Word) : State :=
  { s with x := if rd = 0 then s.x else s.x.set rd.toNat v }

/-- `pc <- t`. -/
def State.setPc (s : State) (t : Word) : State := { s with pc := t }

/-- Record a call of the environment (R41, log 6). -/
def State.call (s : State) (c : EnvCall) : State := { s with calls := c :: s.calls }

/-- `MemRead(a, n)`: the value of an `n`-byte little-endian read, zero-extended (R43). -/
def State.memRead (s : State) (a : Word) (n : AccessSize) : Word := Memory.readFrom s.xlen s.mem a 0 n.bytes

/-- `MemWrite(a, n, v)`: one `n`-byte little-endian write of the low `8n` bits of `v`, recorded as one call (R44, R48). -/
def State.memWrite (s : State) (a : Word) (n : AccessSize) (v : Word) : State :=
  { s with mem := Memory.writeFrom s.xlen s.mem a v 0 n.bytes }.call (.write a n (n.data v))

/-- `FetchOpcode(pc)`: with the flat memory the 4 bytes at `pc`, never checked for alignment (R42, R45, R47, log 7). -/
def State.fetchOpcode (s : State) : Opcode := (s.memRead s.pc .word).setWidth 32

/-! ### Traps -/

/-- The number of a trap kind where a trap port needs one: the order of the document's list, no `mcause` code (R230, D21). -/
def TrapKind.code : TrapKind → Nat
  | .breakpoint => 0
  | .instructionAddressMisaligned => 1
  | .illegalInstruction => 2
  | .systemCall => 3

/-- TAKING A TRAP, `raise Trap(kind)` (R230 to R233): the environment is notified of the kind once, and nothing else changes.
`pc` already holds the trapping instruction's address plus 4 and is not redirected; nothing is saved; the executor ends here.
There is no return from a trap (R236): the run goes on, if the host steps again, at `pc` (R239). -/
def takeTrap (k : TrapKind) (s : State) : Result := .next (s.call (.trap k))

/-- The `UNKNOWN` executor, of every word CLS does not recognise and of every disabled tag (R203). -/
def unknownExecutor (s : State) : Result := takeTrap .illegalInstruction s

/-! ### Issuing an instruction -/

/-- Steps 4 and 5 of R100: the latch receives the decoded record, and `pc` advances by 4 modulo 2^`XLEN` (R23, R102). -/
def State.latch (s : State) (d : InstRecord) : State := { s with inst := d, pc := s.xlen.add d.pc 4 }

/-- Steps 4 to 6 of R100 for the instruction `i` at `pc`: the dispatch gate, the register-index check, the latch, the advance,
then the executor.  A tag whose group is not enabled is decoded by Empty and executed by the `UNKNOWN` executor (R87). -/
def issue (i : Instr) (executor : State → Result) (s : State) : Result :=
  if tagEnabled s.config i.tag then
    if indicesExist s.config.nregs (recordOf s.xlen s.pc i) then executor (s.latch (recordOf s.xlen s.pc i))
    else .refused .regIndex
  else unknownExecutor (s.latch (fmtEmpty i.tag s.pc))

/-! ### Construction -/

/-- The host's arguments meet the launch premises: `initial_registers` has `NREGS` entries of `XLEN` bits, entry 0 is 0, and
`initial_pc` is `XLEN` bits (R6, R30, R253). -/
def launchPremises (config : HartConfig) (initialRegisters : List Word) (initialPc : Word) : Bool :=
  initialRegisters.length == config.nregs.count &&
  initialRegisters.all (fun v => decide (v.toNat < 2 ^ config.xlen.bits)) &&
  initialRegisters.head? == some 0 &&
  decide (initialPc.toNat < 2 ^ config.xlen.bits)

/-- `new(initial_registers, initial_pc, config, environment)` (R30, R250, R251). -/
def State.construct (config : HartConfig) (initialRegisters : List Word) (initialPc : Word) (mem : Memory) : Result :=
  if launchPremises config initialRegisters initialPc then
    .next { config := config, x := Vector.ofFn (fun r : Fin 32 => initialRegisters.getD r.val 0), pc := initialPc,
            inst := InstRecord.atReset, mem := mem, calls := [] }
  else .refused .launchPremise

end Sys2Proof.Machine
end

