-- ==== Sys2Proof/Machine/Alu.lean ====
section
/-! DEFINITION. The ALU core (R107 to R109) and the address generators AGU (R110, R111). -/

namespace Sys2Proof.Machine

/-- The operations of the ALU core (R107). -/
inductive AluOp
  | add
  | sub
  | and
  | or
  | xor
  | sll
  | srl
  | sra
  | slt
  | sltu
  | addw
  | subw
  | sllw
  | srlw
  | sraw
deriving DecidableEq, Repr

/-- `b & SHMASK` at width `w`: `SHMASK` is the width less 1 (R7, R108). -/
def shiftAmount {w : Nat} (b : BitVec w) : Nat := (b &&& BitVec.ofNat w (w - 1)).toNat

/-- The low 32 bits of a value (R109). -/
def low32 {w : Nat} (v : BitVec w) : BitVec 32 := v.setWidth 32

/-- `b & 31`, the amount of a `W` shift (R108). -/
def shiftAmountW {w : Nat} (b : BitVec w) : Nat := (b &&& BitVec.ofNat w 31).toNat

/-- The result of an operation on two values of one width (R107); a `W` operation sign-extends its 32-bit result (R109). -/
def aluCore (op : AluOp) {w : Nat} (a b : BitVec w) : BitVec w :=
  match op with
  | .add => a + b
  | .sub => a - b
  | .and => a &&& b
  | .or => a ||| b
  | .xor => a ^^^ b
  | .sll => a <<< shiftAmount b
  | .srl => a >>> shiftAmount b
  | .sra => a.sshiftRight (shiftAmount b)
  | .slt => bitToWord (lessSigned a b)
  | .sltu => bitToWord (lessUnsigned a b)
  | .addw => (low32 (a + b)).signExtend w
  | .subw => (low32 (a - b)).signExtend w
  | .sllw => (low32 a <<< shiftAmountW b).signExtend w
  | .srlw => (low32 a >>> shiftAmountW b).signExtend w
  | .sraw => ((low32 a).sshiftRight (shiftAmountW b)).signExtend w

/-- The ALU core on `XLEN`-bit values (R107). -/
def alu (xl : Xlen) (op : AluOp) (a b : Word) : Word := xl.lift2 (aluCore op) a b

/-- Branch, `JAL` target and `AUIPC` sum: `inst.pc + inst.imm` (R110). -/
def pcRelative (s : State) : Word := s.xlen.add s.inst.pc s.inst.imm

/-- The link value `inst.pc + 4` (R110). -/
def linkValue (s : State) : Word := s.xlen.add s.inst.pc 4

/-- The effective address of a load or store, `x[inst.rs1] + inst.imm` (R111). -/
def effectiveAddress (s : State) : Word := s.xlen.add (s.reg s.inst.rs1) s.inst.imm

/-- The `JALR` target: the same sum with bit 0 cleared (R111). -/
def jalrTarget (s : State) : Word := effectiveAddress s &&& ~~~1#64

end Sys2Proof.Machine
end

