-- ==== Sys2Proof/Machine/AluImm.lean ====
section
/-! DEFINITION. Integer register-immediate instructions (41_alu_immediate.md, R130 to R145). -/

namespace Sys2Proof.Machine

/-- The executor of `LUI`: `wr(inst.rd, inst.imm)` (R131). -/
def loadUpper (s : State) : Result := .next (s.wr s.inst.rd s.inst.imm)

/-- The executor of `AUIPC`: `wr(inst.rd, inst.pc + inst.imm)` (R132). -/
def addUpperToPc (s : State) : Result := .next (s.wr s.inst.rd (pcRelative s))

/-- The executor of the I-format ALU instructions: `wr(inst.rd, x[inst.rs1] op inst.imm)` (R107, R130). -/
def aluImmediate (op : AluOp) (s : State) : Result :=
  .next (s.wr s.inst.rd (alu s.xlen op (s.reg s.inst.rs1) s.inst.imm))

/-- `LUI` (R131). -/
def execLui (rd : RegIdx) (imm : BitVec 20) (s : State) : Result := issue (.lui rd imm) loadUpper s

/-- `AUIPC` (R132). -/
def execAuipc (rd : RegIdx) (imm : BitVec 20) (s : State) : Result := issue (.auipc rd imm) addUpperToPc s

/-- `ADDI` (R133). -/
def execAddi (rd rs1 : RegIdx) (imm : BitVec 12) (s : State) : Result := issue (.addi rd rs1 imm) (aluImmediate .add) s

/-- `SLTI` (R134). -/
def execSlti (rd rs1 : RegIdx) (imm : BitVec 12) (s : State) : Result := issue (.slti rd rs1 imm) (aluImmediate .slt) s

/-- `SLTIU` (R135). -/
def execSltiu (rd rs1 : RegIdx) (imm : BitVec 12) (s : State) : Result := issue (.sltiu rd rs1 imm) (aluImmediate .sltu) s

/-- `XORI` (R136). -/
def execXori (rd rs1 : RegIdx) (imm : BitVec 12) (s : State) : Result := issue (.xori rd rs1 imm) (aluImmediate .xor) s

/-- `ORI` (R137). -/
def execOri (rd rs1 : RegIdx) (imm : BitVec 12) (s : State) : Result := issue (.ori rd rs1 imm) (aluImmediate .or) s

/-- `ANDI` (R138). -/
def execAndi (rd rs1 : RegIdx) (imm : BitVec 12) (s : State) : Result := issue (.andi rd rs1 imm) (aluImmediate .and) s

/-- `SLLI` (R139). -/
def execSlli (rd rs1 : RegIdx) (shamt : BitVec 6) (s : State) : Result := issue (.slli rd rs1 shamt) (aluImmediate .sll) s

/-- `SRLI` (R140). -/
def execSrli (rd rs1 : RegIdx) (shamt : BitVec 6) (s : State) : Result := issue (.srli rd rs1 shamt) (aluImmediate .srl) s

/-- `SRAI` (R141). -/
def execSrai (rd rs1 : RegIdx) (shamt : BitVec 6) (s : State) : Result := issue (.srai rd rs1 shamt) (aluImmediate .sra) s

/-- `ADDIW` (R142). -/
def execAddiw (rd rs1 : RegIdx) (imm : BitVec 12) (s : State) : Result := issue (.addiw rd rs1 imm) (aluImmediate .addw) s

/-- `SLLIW` (R143). -/
def execSlliw (rd rs1 : RegIdx) (shamt : BitVec 5) (s : State) : Result := issue (.slliw rd rs1 shamt) (aluImmediate .sllw) s

/-- `SRLIW` (R144). -/
def execSrliw (rd rs1 : RegIdx) (shamt : BitVec 5) (s : State) : Result := issue (.srliw rd rs1 shamt) (aluImmediate .srlw) s

/-- `SRAIW` (R145). -/
def execSraiw (rd rs1 : RegIdx) (shamt : BitVec 5) (s : State) : Result := issue (.sraiw rd rs1 shamt) (aluImmediate .sraw) s

end Sys2Proof.Machine
end

