-- ==== Sys2Proof/Machine/AluReg.lean ====
section
/-! DEFINITION. Integer register-register instructions (42_alu_register.md, R150 to R165). -/

namespace Sys2Proof.Machine

/-- The executor of the R-format ALU instructions: `wr(inst.rd, x[inst.rs1] op x[inst.rs2])`, both sources read before the
write (R106, R107, R150). -/
def aluRegister (op : AluOp) (s : State) : Result :=
  .next (s.wr s.inst.rd (alu s.xlen op (s.reg s.inst.rs1) (s.reg s.inst.rs2)))

/-- `ADD` (R151). -/
def execAdd (rd rs1 rs2 : RegIdx) (s : State) : Result := issue (.add rd rs1 rs2) (aluRegister .add) s

/-- `SUB` (R152). -/
def execSub (rd rs1 rs2 : RegIdx) (s : State) : Result := issue (.sub rd rs1 rs2) (aluRegister .sub) s

/-- `SLL` (R153). -/
def execSll (rd rs1 rs2 : RegIdx) (s : State) : Result := issue (.sll rd rs1 rs2) (aluRegister .sll) s

/-- `SLT` (R154). -/
def execSlt (rd rs1 rs2 : RegIdx) (s : State) : Result := issue (.slt rd rs1 rs2) (aluRegister .slt) s

/-- `SLTU` (R155). -/
def execSltu (rd rs1 rs2 : RegIdx) (s : State) : Result := issue (.sltu rd rs1 rs2) (aluRegister .sltu) s

/-- `XOR` (R156). -/
def execXor (rd rs1 rs2 : RegIdx) (s : State) : Result := issue (.xor rd rs1 rs2) (aluRegister .xor) s

/-- `SRL` (R157). -/
def execSrl (rd rs1 rs2 : RegIdx) (s : State) : Result := issue (.srl rd rs1 rs2) (aluRegister .srl) s

/-- `SRA` (R158). -/
def execSra (rd rs1 rs2 : RegIdx) (s : State) : Result := issue (.sra rd rs1 rs2) (aluRegister .sra) s

/-- `OR` (R159). -/
def execOr (rd rs1 rs2 : RegIdx) (s : State) : Result := issue (.or rd rs1 rs2) (aluRegister .or) s

/-- `AND` (R160). -/
def execAnd (rd rs1 rs2 : RegIdx) (s : State) : Result := issue (.and rd rs1 rs2) (aluRegister .and) s

/-- `ADDW` (R161). -/
def execAddw (rd rs1 rs2 : RegIdx) (s : State) : Result := issue (.addw rd rs1 rs2) (aluRegister .addw) s

/-- `SUBW` (R162). -/
def execSubw (rd rs1 rs2 : RegIdx) (s : State) : Result := issue (.subw rd rs1 rs2) (aluRegister .subw) s

/-- `SLLW` (R163). -/
def execSllw (rd rs1 rs2 : RegIdx) (s : State) : Result := issue (.sllw rd rs1 rs2) (aluRegister .sllw) s

/-- `SRLW` (R164). -/
def execSrlw (rd rs1 rs2 : RegIdx) (s : State) : Result := issue (.srlw rd rs1 rs2) (aluRegister .srlw) s

/-- `SRAW` (R165). -/
def execSraw (rd rs1 rs2 : RegIdx) (s : State) : Result := issue (.sraw rd rs1 rs2) (aluRegister .sraw) s

end Sys2Proof.Machine
end

