-- ==== Sys2Proof/Machine/Control.lean ====
section
/-! DEFINITION. Control transfer instructions (43_control_transfer.md, R170 to R179). -/

namespace Sys2Proof.Machine

/-- The end of `JAL` and `JALR` (R171, R172): a misaligned target traps, with neither `pc` nor the link register written
(D10, log 12); otherwise `pc` takes the target and the link value `inst.pc + 4` is written. -/
def jumpTo (t : Word) (s : State) : Result :=
  if misaligned s.config.extC t then takeTrap .instructionAddressMisaligned s
  else .next ((s.setPc t).wr s.inst.rd (linkValue s))

/-- The executor of `JAL` (R171). -/
def jumpAndLink (s : State) : Result := jumpTo (pcRelative s) s

/-- The executor of `JALR`: `x[inst.rs1]` is read before the link write (R106, R172). -/
def jumpAndLinkRegister (s : State) : Result := jumpTo (jalrTarget s) s

/-- The branch executor (R179): the target is checked only when the condition holds (D11, log 13). -/
def branchOn (cond : Xlen → Word → Word → Bool) (s : State) : Result :=
  if cond s.xlen (s.reg s.inst.rs1) (s.reg s.inst.rs2) then
    if misaligned s.config.extC (pcRelative s) then takeTrap .instructionAddressMisaligned s
    else .next (s.setPc (pcRelative s))
  else .next s

/-- `JAL` (R171). -/
def execJal (rd : RegIdx) (imm : BitVec 21) (s : State) : Result := issue (.jal rd imm) jumpAndLink s

/-- `JALR` (R172). -/
def execJalr (rd rs1 : RegIdx) (imm : BitVec 12) (s : State) : Result := issue (.jalr rd rs1 imm) jumpAndLinkRegister s

/-- `BEQ` (R173). -/
def execBeq (rs1 rs2 : RegIdx) (imm : BitVec 13) (s : State) : Result := issue (.beq rs1 rs2 imm) (branchOn condEq) s

/-- `BNE` (R174). -/
def execBne (rs1 rs2 : RegIdx) (imm : BitVec 13) (s : State) : Result := issue (.bne rs1 rs2 imm) (branchOn condNe) s

/-- `BLT` (R175). -/
def execBlt (rs1 rs2 : RegIdx) (imm : BitVec 13) (s : State) : Result := issue (.blt rs1 rs2 imm) (branchOn condLt) s

/-- `BGE` (R176). -/
def execBge (rs1 rs2 : RegIdx) (imm : BitVec 13) (s : State) : Result := issue (.bge rs1 rs2 imm) (branchOn condGe) s

/-- `BLTU` (R177). -/
def execBltu (rs1 rs2 : RegIdx) (imm : BitVec 13) (s : State) : Result := issue (.bltu rs1 rs2 imm) (branchOn condLtu) s

/-- `BGEU` (R178). -/
def execBgeu (rs1 rs2 : RegIdx) (imm : BitVec 13) (s : State) : Result := issue (.bgeu rs1 rs2 imm) (branchOn condGeu) s

end Sys2Proof.Machine
end

