-- ==== Sys2Proof/Machine/LoadStore.lean ====
section
/-! DEFINITION. Load and store instructions (44_load_store.md, R180 to R192). -/

namespace Sys2Proof.Machine

/-- The extension of a load without the `U` suffix: `sext_XLEN` of the low `8n` bits (R180 to R183, R187). -/
def signExtendLoad (xl : Xlen) (n : AccessSize) (v : Word) : Word := xl.sext (v.setWidth (8 * n.bytes))

/-- The extension of a load with the `U` suffix: `zext_XLEN` of the low `8n` bits (R184 to R186). -/
def zeroExtendLoad (xl : Xlen) (n : AccessSize) (v : Word) : Word := xl.zext (v.setWidth (8 * n.bytes))

/-- The load executor (R180): `inst.rd` = 0 is tested first (D12, log 14); a misaligned address makes no read (D31). -/
def loadFrom (n : AccessSize) (ext : Xlen → AccessSize → Word → Word) (s : State) : Result :=
  if s.inst.rd = 0 then takeTrap .illegalInstruction s
  else if misaligned s.config.extC (effectiveAddress s) then takeTrap .instructionAddressMisaligned s
  else .next ((s.call (.read (effectiveAddress s) n)).wr s.inst.rd (ext s.xlen n (s.memRead (effectiveAddress s) n)))

/-- The store executor (R188): the low `8n` bits of `x[inst.rs2]`; a misaligned address makes no write (D31). -/
def storeTo (n : AccessSize) (s : State) : Result :=
  if misaligned s.config.extC (effectiveAddress s) then takeTrap .instructionAddressMisaligned s
  else .next (s.memWrite (effectiveAddress s) n (s.reg s.inst.rs2))

/-- `LB` (R181). -/
def execLb (rd rs1 : RegIdx) (imm : BitVec 12) (s : State) : Result := issue (.lb rd rs1 imm) (loadFrom .byte signExtendLoad) s

/-- `LH` (R182). -/
def execLh (rd rs1 : RegIdx) (imm : BitVec 12) (s : State) : Result := issue (.lh rd rs1 imm) (loadFrom .half signExtendLoad) s

/-- `LW` (R183). -/
def execLw (rd rs1 : RegIdx) (imm : BitVec 12) (s : State) : Result := issue (.lw rd rs1 imm) (loadFrom .word signExtendLoad) s

/-- `LBU` (R184). -/
def execLbu (rd rs1 : RegIdx) (imm : BitVec 12) (s : State) : Result := issue (.lbu rd rs1 imm) (loadFrom .byte zeroExtendLoad) s

/-- `LHU` (R185). -/
def execLhu (rd rs1 : RegIdx) (imm : BitVec 12) (s : State) : Result := issue (.lhu rd rs1 imm) (loadFrom .half zeroExtendLoad) s

/-- `LWU` (R186). -/
def execLwu (rd rs1 : RegIdx) (imm : BitVec 12) (s : State) : Result := issue (.lwu rd rs1 imm) (loadFrom .word zeroExtendLoad) s

/-- `LD` (R187). -/
def execLd (rd rs1 : RegIdx) (imm : BitVec 12) (s : State) : Result := issue (.ld rd rs1 imm) (loadFrom .double signExtendLoad) s

/-- `SB` (R189). -/
def execSb (rs1 rs2 : RegIdx) (imm : BitVec 12) (s : State) : Result := issue (.sb rs1 rs2 imm) (storeTo .byte) s

/-- `SH` (R190). -/
def execSh (rs1 rs2 : RegIdx) (imm : BitVec 12) (s : State) : Result := issue (.sh rs1 rs2 imm) (storeTo .half) s

/-- `SW` (R191). -/
def execSw (rs1 rs2 : RegIdx) (imm : BitVec 12) (s : State) : Result := issue (.sw rs1 rs2 imm) (storeTo .word) s

/-- `SD` (R192). -/
def execSd (rs1 rs2 : RegIdx) (imm : BitVec 12) (s : State) : Result := issue (.sd rs1 rs2 imm) (storeTo .double) s

end Sys2Proof.Machine
end

