-- ==== Sys2Proof/Machine/Mdu.lean ====
section
/-! DEFINITION. The multiply/divide unit: the replaceable numerics function of R210 with the results of R211 to R223 (log 11). -/

namespace Sys2Proof.Machine

/-- The operations of the multiply/divide unit (R211 to R223). -/
inductive MduOp
  | mul
  | mulh
  | mulhsu
  | mulhu
  | div
  | divu
  | rem
  | remu
deriving DecidableEq, Repr

/-- Bits `2w-1` to `w` of an exact product, taken as a `2w`-bit two's-complement number (R212). -/
def highHalf (w : Nat) (product : Int) : BitVec w := (BitVec.ofInt (2 * w) product).extractLsb' w w

/-- Signed division rounding toward zero (R215). -/
def divSigned {w : Nat} (a b : BitVec w) : BitVec w :=
  if b = 0 then BitVec.allOnes w
  else if a = BitVec.intMin w ∧ b.toInt = -1 then a
  else BitVec.ofInt w (a.toInt.tdiv b.toInt)

/-- Unsigned division (R216). -/
def divUnsigned {w : Nat} (a b : BitVec w) : BitVec w :=
  if b = 0 then BitVec.allOnes w else BitVec.ofNat w (a.toNat / b.toNat)

/-- Signed remainder, with the sign of the dividend (R217). -/
def remSigned {w : Nat} (a b : BitVec w) : BitVec w :=
  if b = 0 then a
  else if a = BitVec.intMin w ∧ b.toInt = -1 then 0
  else BitVec.ofInt w (a.toInt - b.toInt * a.toInt.tdiv b.toInt)

/-- Unsigned remainder (R218). -/
def remUnsigned {w : Nat} (a b : BitVec w) : BitVec w :=
  if b = 0 then a else BitVec.ofNat w (a.toNat % b.toNat)

/-- The result of an operation on two values of one width (R211 to R218). -/
def mduCore (op : MduOp) {w : Nat} (a b : BitVec w) : BitVec w :=
  match op with
  | .mul => BitVec.ofNat w (a.toNat * b.toNat)
  | .mulh => highHalf w (a.toInt * b.toInt)
  | .mulhsu => highHalf w (a.toInt * (b.toNat : Int))
  | .mulhu => highHalf w ((a.toNat : Int) * (b.toNat : Int))
  | .div => divSigned a b
  | .divu => divUnsigned a b
  | .rem => remSigned a b
  | .remu => remUnsigned a b

/-- `mdu(op, a, b)` on `XLEN`-bit values (R210). -/
def mdu (xl : Xlen) (op : MduOp) (a b : Word) : Word := xl.lift2 (mduCore op) a b

/-- The `W` forms: the 32-bit result on the low words, sign-extended to 64 bits (R219 to R223). -/
def mduW (xl : Xlen) (op : MduOp) (a b : Word) : Word := xl.sext (mduCore op (a.setWidth 32) (b.setWidth 32))

end Sys2Proof.Machine
end

