-- ==== Sys2Proof/Machine/MulDiv.lean ====
section
/-! DEFINITION. Multiply and divide instructions (46_muldiv.md, R210 to R223). -/

namespace Sys2Proof.Machine

/-- The executor of the XLEN-wide M instructions: `wr(inst.rd, mdu(op, x[inst.rs1], x[inst.rs2]))` (R210). -/
def mulDiv (op : MduOp) (s : State) : Result :=
  .next (s.wr s.inst.rd (mdu s.xlen op (s.reg s.inst.rs1) (s.reg s.inst.rs2)))

/-- The executor of the `W` M instructions (R210, R219 to R223). -/
def mulDivW (op : MduOp) (s : State) : Result :=
  .next (s.wr s.inst.rd (mduW s.xlen op (s.reg s.inst.rs1) (s.reg s.inst.rs2)))

/-- `MUL` (R211). -/
def execMul (rd rs1 rs2 : RegIdx) (s : State) : Result := issue (.mul rd rs1 rs2) (mulDiv .mul) s

/-- `MULH` (R212). -/
def execMulh (rd rs1 rs2 : RegIdx) (s : State) : Result := issue (.mulh rd rs1 rs2) (mulDiv .mulh) s

/-- `MULHSU` (R213). -/
def execMulhsu (rd rs1 rs2 : RegIdx) (s : State) : Result := issue (.mulhsu rd rs1 rs2) (mulDiv .mulhsu) s

/-- `MULHU` (R214). -/
def execMulhu (rd rs1 rs2 : RegIdx) (s : State) : Result := issue (.mulhu rd rs1 rs2) (mulDiv .mulhu) s

/-- `DIV` (R215). -/
def execDiv (rd rs1 rs2 : RegIdx) (s : State) : Result := issue (.div rd rs1 rs2) (mulDiv .div) s

/-- `DIVU` (R216). -/
def execDivu (rd rs1 rs2 : RegIdx) (s : State) : Result := issue (.divu rd rs1 rs2) (mulDiv .divu) s

/-- `REM` (R217). -/
def execRem (rd rs1 rs2 : RegIdx) (s : State) : Result := issue (.rem rd rs1 rs2) (mulDiv .rem) s

/-- `REMU` (R218). -/
def execRemu (rd rs1 rs2 : RegIdx) (s : State) : Result := issue (.remu rd rs1 rs2) (mulDiv .remu) s

/-- `MULW` (R219). -/
def execMulw (rd rs1 rs2 : RegIdx) (s : State) : Result := issue (.mulw rd rs1 rs2) (mulDivW .mul) s

/-- `DIVW` (R220). -/
def execDivw (rd rs1 rs2 : RegIdx) (s : State) : Result := issue (.divw rd rs1 rs2) (mulDivW .div) s

/-- `DIVUW` (R221). -/
def execDivuw (rd rs1 rs2 : RegIdx) (s : State) : Result := issue (.divuw rd rs1 rs2) (mulDivW .divu) s

/-- `REMW` (R222). -/
def execRemw (rd rs1 rs2 : RegIdx) (s : State) : Result := issue (.remw rd rs1 rs2) (mulDivW .rem) s

/-- `REMUW` (R223). -/
def execRemuw (rd rs1 rs2 : RegIdx) (s : State) : Result := issue (.remuw rd rs1 rs2) (mulDivW .remu) s

end Sys2Proof.Machine
end

