-- ==== Sys2Proof/Machine/System.lean ====
section
/-! DEFINITION. `FENCE`, `ECALL`, `EBREAK` and words the classifier does not recognise (45_system.md, R200 to R203). -/

namespace Sys2Proof.Machine

/-- The executor of `FENCE`: nothing, since one hart makes its accesses in program order (R51, R200). -/
def fenceExecutor (s : State) : Result := .next s

/-- `FENCE` (R200), every field of the word ignored. -/
def execFence (rd rs1 : RegIdx) (fields : BitVec 12) (s : State) : Result := issue (.fence rd rs1 fields) fenceExecutor s

/-- `ECALL` (R201). -/
def execEcall (s : State) : Result := issue .ecall (takeTrap .systemCall) s

/-- `EBREAK` (R202). -/
def execEbreak (s : State) : Result := issue .ebreak (takeTrap .breakpoint) s

/-- A 4-byte word that CLS gives `UNKNOWN`: decoded by Empty, executed by the `UNKNOWN` executor (R85, R90, R203). -/
def execUnknown (s : State) : Result := unknownExecutor (s.latch (fmtEmpty .UNKNOWN s.pc))

end Sys2Proof.Machine
end

