-- ==== Sys2Proof/Machine/Step.lean ====
section
/-! DEFINITION. The single-step sequencer SEQ (R100), and placing an instruction where the step fetches it. -/

namespace Sys2Proof.Machine

/-- One step (R100): fetch 32 bits at `pc`, length check, classify and decode, then execute.  A word of another length class
is refused (R62); one that CLS does not recognise takes the `UNKNOWN` path (R85). -/
def step (s : State) : Host.Outcome State Fault Refusal :=
  match decodeWord s.xlen s.fetchOpcode with
  | .ok i => exec i (s.call (.fetch s.pc))
  | .error (.length n) => .refused (.unsupportedLength n)
  | .error .unknown => execUnknown (s.call (.fetch s.pc))

/-- `s` with the table word `w` of `nbits` bits stored, little-endian, at `pc`, where the step fetches (log 19). -/
def State.withFetchWord (s : State) (nbits w : Nat) : State :=
  { s with mem := Memory.writeFrom s.xlen s.mem s.pc (BitVec.ofNat 64 (w % 2 ^ nbits % 2 ^ 32)) 0 4 }

end Sys2Proof.Machine
end

