-- ==== Sys2Proof/Safety.lean ====
section
/-! DEFINITION. The terms claims about the machine use: values as integers, the effect of an instruction seen through reads, the
outcome of a step (R13), the host's run under a trap policy (R239), and the state invariant. -/

namespace Sys2Proof

/-! ### Values as integers (R9) -/

/-- The `XLEN`-bit value of an integer: its residue modulo 2^`XLEN` (R11). -/
def Xlen.residue (xl : Xlen) (z : Int) : Word := BitVec.ofInt 64 (z % 2 ^ xl.bits)

/-- The unsigned reading of an integer's `XLEN`-bit value (R9). -/
def Xlen.unsigned (xl : Xlen) (z : Int) : Nat := (z % 2 ^ xl.bits).toNat

/-- The 64-bit sign-extension of an integer's 32-bit value (R109). -/
def wordResidue (z : Int) : Word := BitVec.ofInt 64 (Int.bmod z (2 ^ 32))

/-- The two's-complement reading of an `n`-bit unsigned value (R9). -/
def signedReading (bits : Nat) (n : Nat) : Int := if 2 * n < 2 ^ bits then n else (n : Int) - 2 ^ bits

end Sys2Proof

namespace Sys2Proof.Machine

/-- `u(x[r])`: the register's unsigned value (R9). -/
def State.u (s : State) (r : RegIdx) : Nat := (s.reg r).toNat % 2 ^ s.xlen.bits

/-- `s(x[r])`: the register's two's-complement value (R9). -/
def State.sg (s : State) (r : RegIdx) : Int := signedReading s.xlen.bits (s.u r)

/-- The unsigned value of the register's low 32 bits (R109). -/
def State.u32 (s : State) (r : RegIdx) : Nat := (s.reg r).toNat % 2 ^ 32

/-- The two's-complement value of the register's low 32 bits (R109). -/
def State.sg32 (s : State) (r : RegIdx) : Int := signedReading 32 (s.u32 r)

/-- The byte of memory at an address. -/
def State.byte (s : State) (a : Nat) : Byte := Memory.readByte s.mem a

/-- The memory address of an integer: its residue modulo 2^`XLEN` (R49). -/
def State.address (s : State) (z : Int) : Nat := s.xlen.unsigned z

/-- The little-endian value of the `n` bytes at an address (R45). -/
def State.bytesValue (s : State) (z : Int) : Nat → Nat
  | 0 => 0
  | n + 1 => (s.byte (s.address z)).toNat + 256 * s.bytesValue (z + 1) n

/-- The address an access or a transfer may use: even with `C`, a multiple of 4 without (R112). -/
def State.aligned (s : State) (z : Int) : Prop := if s.config.extC then z % 2 = 0 else z % 4 = 0

/-- Every listed register index exists on a hart of `NREGS` registers (R21). -/
def State.hasRegisters (s : State) (rs : List RegIdx) : Prop := ∀ r ∈ rs, r.toNat < s.config.nregs.count

/-! ### The effect of an instruction, seen through reads -/

/-- The registers after `wr(rd, v)` (R105). -/
def State.written (s : State) (rd : RegIdx) (v : Word) (r : RegIdx) : Word := if r = rd ∧ rd ≠ 0 then v else s.reg r

/-- The address of the next sequential instruction, `inst.pc + 4` (R102). -/
def State.sequential (s : State) : Word := s.xlen.residue (s.pc.toNat + 4)

/-- `t` is `s` with the registers `regs`, the pc `pc`, the latch `d` and the environment calls `calls`, and nothing else changed:
every byte of memory reads as before. -/
structure Effect (s t : State) (d : InstRecord) (regs : RegIdx → Word) (pc : Word) (calls : List EnvCall) : Prop where
  regs : ∀ r, t.reg r = regs r
  pc : t.pc = pc
  inst : t.inst = d
  mem : ∀ a, t.byte a = s.byte a
  config : t.config = s.config
  calls : t.calls = calls

/-- `exec i s` completes: its next state is `s` with `rd` written through the gate with `v` and the pc at the next sequential
instruction, and nothing else changed. -/
def Computes (i : Instr) (s : State) (rd : RegIdx) (v : Word) : Prop :=
  ∃ t, exec i s = .next t ∧ Effect s t (recordOf s.xlen s.pc i) (s.written rd v) s.sequential s.calls

/-- The instruction's word matches a value under a mask: the rule's match and mask. -/
def Encoded (i : Instr) (mask value : Opcode) : Prop := encode i &&& mask = value

/-- The instruction has the rule's encoding, and it completes with `rd` written through the gate with `v`. -/
def ComputesAs (i : Instr) (mask value : Opcode) (s : State) (rd : RegIdx) (v : Word) : Prop :=
  Encoded i mask value ∧ Computes i s rd v

/-- `exec i s` completes: it writes `rd` with `v` and the pc with `target`, and nothing else changed. -/
def Transfers (i : Instr) (s : State) (rd : RegIdx) (v target : Word) : Prop :=
  ∃ t, exec i s = .next t ∧ Effect s t (recordOf s.xlen s.pc i) (s.written rd v) target s.calls

/-- `exec i s` takes the trap `k` with the record `d` latched: the environment is notified once, the pc is at the next sequential
instruction, and nothing else changed. -/
def TrapsWith (i : Instr) (s : State) (d : InstRecord) (k : TrapKind) : Prop :=
  ∃ t, exec i s = .next t ∧ Effect s t d s.reg s.sequential (.trap k :: s.calls)

/-- `exec i s` takes the trap `k`, its own record latched. -/
def Traps (i : Instr) (s : State) (k : TrapKind) : Prop := TrapsWith i s (recordOf s.xlen s.pc i) k

/-- `exec i s` completes: it makes one `n`-byte read at `z` and writes `rd` with `v`, and nothing else changed but the pc. -/
def Loads (i : Instr) (s : State) (z : Int) (n : AccessSize) (rd : RegIdx) (v : Word) : Prop :=
  ∃ t, exec i s = .next t ∧
    Effect s t (recordOf s.xlen s.pc i) (s.written rd v) s.sequential (.read (s.xlen.residue z) n :: s.calls)

/-- `exec i s` completes: it makes one `n`-byte write of the low bytes of the value `v` at `z`, least significant byte at the lowest
address; every other byte reads as before, and nothing else changed but the pc. -/
def Stores (i : Instr) (s : State) (z : Int) (n : AccessSize) (v : Nat) : Prop :=
  ∃ t, exec i s = .next t ∧ (∀ r, t.reg r = s.reg r) ∧ t.pc = s.sequential ∧ t.inst = recordOf s.xlen s.pc i ∧
    t.config = s.config ∧
    t.calls = .write (s.xlen.residue z) n (BitVec.ofNat 64 (v % 2 ^ (8 * n.bytes))) :: s.calls ∧
    (∀ k, k < n.bytes → t.byte (s.address (z + k)) = BitVec.ofNat 8 (v / 2 ^ (8 * k))) ∧
    (∀ a, (∀ k, k < n.bytes → a ≠ s.address (z + k)) → t.byte a = s.byte a)

/-! ### The kinds of instructions -/

/-- The number of bytes an instruction stores, none for an instruction that is no store (R48). -/
def storeSize : Instr → Option AccessSize
  | .sb _ _ _ => some .byte
  | .sh _ _ _ => some .half
  | .sw _ _ _ => some .word
  | .sd _ _ _ => some .double
  | _ => none

/-- The number of bytes an instruction loads, none for an instruction that is no load (R48). -/
def loadSize : Instr → Option AccessSize
  | .lb _ _ _ | .lbu _ _ _ => some .byte
  | .lh _ _ _ | .lhu _ _ _ => some .half
  | .lw _ _ _ | .lwu _ _ _ => some .word
  | .ld _ _ _ => some .double
  | _ => none

/-- The instructions that may write `pc` (R170). -/
def isTransfer : Instr → Bool
  | .jal _ _ | .jalr _ _ _ => true
  | .beq _ _ _ | .bne _ _ _ | .blt _ _ _ | .bge _ _ _ | .bltu _ _ _ | .bgeu _ _ _ => true
  | _ => false

/-- The destination register of an instruction whose format has one (R63, R89). -/
def destination : Instr → Option RegIdx
  | .lui rd _ | .auipc rd _ | .jal rd _ | .jalr rd _ _ => some rd
  | .lb rd _ _ | .lh rd _ _ | .lw rd _ _ | .lbu rd _ _ | .lhu rd _ _ | .lwu rd _ _ | .ld rd _ _ => some rd
  | .addi rd _ _ | .slti rd _ _ | .sltiu rd _ _ | .xori rd _ _ | .ori rd _ _ | .andi rd _ _ => some rd
  | .slli rd _ _ | .srli rd _ _ | .srai rd _ _ => some rd
  | .addiw rd _ _ | .slliw rd _ _ | .srliw rd _ _ | .sraiw rd _ _ => some rd
  | .add rd _ _ | .sub rd _ _ | .sll rd _ _ | .slt rd _ _ | .sltu rd _ _ | .xor rd _ _ | .srl rd _ _ | .sra rd _ _ => some rd
  | .or rd _ _ | .and rd _ _ | .addw rd _ _ | .subw rd _ _ | .sllw rd _ _ | .srlw rd _ _ | .sraw rd _ _ => some rd
  | .mul rd _ _ | .mulh rd _ _ | .mulhsu rd _ _ | .mulhu rd _ _ | .div rd _ _ | .divu rd _ _ | .rem rd _ _ => some rd
  | .remu rd _ _ | .mulw rd _ _ | .divw rd _ _ | .divuw rd _ _ | .remw rd _ _ | .remuw rd _ _ => some rd
  | .beq _ _ _ | .bne _ _ _ | .blt _ _ _ | .bge _ _ _ | .bltu _ _ _ | .bgeu _ _ _ => none
  | .sb _ _ _ | .sh _ _ _ | .sw _ _ _ | .sd _ _ _ => none
  | .fence _ _ _ | .ecall | .ebreak => none

/-- The integer computational instructions: `LUI`, `AUIPC`, the ALU instructions and the multiply/divide instructions (R92). -/
def isComputational (i : Instr) : Bool := (destination i).isSome && !isTransfer i && (loadSize i).isNone

/-! ### Steps and runs -/

/-- The step outcome of R13. -/
inductive StepOutcome
  | ok (t : State)
  | trapped (k : TrapKind) (t : State)
  | unsupported (r : Refusal)

/-- The outcome of one step: a step that took a trap has the notification as its last environment call (R103, R231). -/
def stepOutcome (s : State) : StepOutcome :=
  match step s with
  | .next t =>
    match t.calls with
    | .trap k :: _ => .trapped k t
    | _ => .ok t
  | .refused r => .unsupported r
  | .fault f => nomatch f

/-- How the host's run of steps ends. -/
inductive RunEnd
  /-- the host made all its steps -/
  | ran (t : State)
  /-- the host stopped at a trap -/
  | haltedAt (k : TrapKind) (t : State)
  /-- a step was refused -/
  | unsupported (r : Refusal) (t : State)

/-- At most `k` steps by the host under a trap policy (R101, R239, R258). -/
def hostRun (policy : TrapPolicy) : Nat → State → RunEnd
  | 0, s => .ran s
  | k + 1, s =>
    match stepOutcome s with
    | .ok t => hostRun policy k t
    | .trapped kind t =>
      match policy with
      | .halts => .haltedAt kind t
      | .continues => hostRun policy k t
    | .unsupported r => .unsupported r s

/-- The next state of a step, where there is one. -/
def nextState : Result → Option State
  | .next t => some t
  | .fault _ => none
  | .refused _ => none

/-- The refusal of a step, where there is one. -/
def refusalOf : Result → Option Refusal
  | .next _ => none
  | .fault _ => none
  | .refused r => some r

/-- A result with its next state changed. -/
def mapNext (f : State → State) : Result → Result
  | .next t => .next (f t)
  | .fault r => .fault r
  | .refused r => .refused r

/-- The hart with other extension letters and another `abi_name` (R25). -/
def State.relabel (s : State) (letters : List Char) (abiName : Bool) : State :=
  { s with config := { s.config with extensions := letters, abiName := abiName } }

/-! ### The invariant -/

/-- What holds of every state a run from a proper launch reaches: `x[0]` = 0 (R22); registers, pc and latch hold `XLEN`-bit values
(R20, R23, R24); the pc is aligned (D32, from an aligned `initial_pc`); the cells 16 to 31 stay 0 when `NREGS` = 16 (log 9);
memory is canonical and lies in the address space (R49). -/
structure State.Inv (s : State) : Prop where
  zero : s.reg 0 = 0
  regs : ∀ r, (s.reg r).toNat < 2 ^ s.xlen.bits
  pc : s.pc.toNat < 2 ^ s.xlen.bits
  instPc : s.inst.pc.toNat < 2 ^ s.xlen.bits
  instImm : s.inst.imm.toNat < 2 ^ s.xlen.bits
  pcAligned : misaligned s.config.extC s.pc = false
  absent : ∀ r : RegIdx, s.config.nregs.count ≤ r.toNat → s.reg r = 0
  memWf : Memory.wf s.mem = true
  memFits : ∀ c ∈ s.mem, c.1 < 2 ^ s.xlen.bits

end Sys2Proof.Machine
end

