-- ==== Sys2Proof/Certificates/Slice0/Obligations.lean ====
section
/-! DEFINITION. The statements for the provers, from the numbered rules of spec/. -/

open Sys2Proof Sys2Proof.Machine

/-! ### Construction, reset and the invariant -/

/-- R30, R250, R251: for arguments that meet the launch premises, construction leaves the host's registers, pc, config and memory,
with `x[0]` = 0, and makes no environment call. -/
def Obligations.ConstructionLeavesHostArguments : Prop :=
  ∀ (config : HartConfig) (regs : List Word) (pc : Word) (mem : Memory),
    regs.length = config.nregs.count → (∀ v ∈ regs, v.toNat < 2 ^ config.xlen.bits) → regs.head? = some 0 →
    pc.toNat < 2 ^ config.xlen.bits →
    ∃ t, State.construct config regs pc mem = .next t ∧
      (∀ r : RegIdx, r.toNat < config.nregs.count → regs[r.toNat]? = some (t.reg r)) ∧
      t.reg 0 = 0 ∧ t.pc = pc ∧ t.config = config ∧ t.mem = mem ∧ t.calls = []

/-- R30, R253, U11: a launch with `initial_registers[0]` not 0, or with a register list that is not `NREGS` long, is refused. -/
def Obligations.ConstructionRefusesBrokenPremises : Prop :=
  ∀ (config : HartConfig) (regs : List Word) (pc : Word) (mem : Memory),
    regs.head? ≠ some 0 ∨ regs.length ≠ config.nregs.count →
    State.construct config regs pc mem = .refused .launchPremise

/-- The model's choice (log 2, 3, 4, 5): `State.reset` is the construction with an RV64IM configuration of 32 registers, all
registers and the pc 0, and memory with nothing listed. -/
def Obligations.ResetIsConstructionWithZeros : Prop :=
  State.construct { xlen := .rv64, nregs := .r32, extensions := ['M'], abiName := false } (List.replicate 32 0) 0 [] =
    .next State.reset

/-- The invariant holds at `State.reset` (whose values are the model's choice, log 2 to 5). -/
def Obligations.ResetMeetsInvariant : Prop := State.reset.Inv

/-- R22, R20, R23, R49, D32: every step keeps the invariant: `x[0]` = 0, `XLEN`-bit values, an aligned pc, canonical memory inside
the address space, the cells that are no registers at 0. -/
def Obligations.StepKeepsInvariant : Prop :=
  ∀ s t : State, s.Inv → step s = .next t → t.Inv

/-- From any launch that meets the premises, with an aligned `initial_pc` and canonical memory inside the address space, every
state a run reaches meets the invariant. -/
def Obligations.RunsFromLaunchMeetInvariant : Prop :=
  ∀ (config : HartConfig) (regs : List Word) (pc : Word) (mem : Memory) (s t : State) (k : Nat),
    State.construct config regs pc mem = .next s → misaligned config.extC pc = false → Memory.wf mem = true →
    (∀ c ∈ mem, c.1 < 2 ^ config.xlen.bits) → core.run k s = .next t → State.Inv t

/-! ### Registers and configuration over runs -/

/-- R105: the write port is gated by `rd != 0`, and writes no other register. -/
def Obligations.WritePortIsGated : Prop :=
  ∀ (s : State) (rd r : RegIdx) (v : Word),
    (s.wr rd v).reg r = (if rd ≠ 0 ∧ r = rd then v else s.reg r) ∧ (rd = 0 → s.wr rd v = s)

/-- R22: no sequence of steps changes `x[0]`; so it is 0 after any sequence of steps from a state where it is 0. -/
def Obligations.ZeroRegisterKeepsItsValue : Prop :=
  ∀ (k : Nat) (s t : State), core.run k s = .next t → State.reg t 0 = s.reg 0 ∧ (s.reg 0 = 0 → State.reg t 0 = 0)

/-- R25, R250: no sequence of steps changes the configuration. -/
def Obligations.ConfigurationNeverChanges : Prop :=
  ∀ (k : Nat) (s t : State), core.run k s = .next t → State.config t = s.config

/-- R25: a step reads only `ext_M` and `ext_C` of the extension letters, and `abi_name` never: with other letters and another
`abi_name` it does the same; and it writes none of the configuration.  That the other letters have no effect is a choice: the
source is silent on them (R6, U16), and the model follows the spec's decision D2 (log 25, DESIGN CHOICE). -/
def Obligations.OtherLettersAndAbiNameHaveNoEffect : Prop :=
  ∀ (s : State) (letters : List Char) (abiName : Bool),
    letters.contains 'M' = s.config.extM → letters.contains 'C' = s.config.extC →
    step (s.relabel letters abiName) = mapNext (fun t => t.relabel letters abiName) (step s) ∧
    ∀ t, step s = .next t → t.config = s.config

/-! ### Encoding, decoding and the step -/

/-- R100, R45: when the four bytes at the pc decode to `i`, the step is `exec i` on the state with the fetch recorded; advancing the
pc past the word is part of `exec` (R100 step 5), as the statements about each instruction say. -/
def Obligations.StepRunsDecodedInstruction : Prop :=
  ∀ (s : State) (i : Instr),
    decodeBytes s.xlen [s.byte (s.address s.pc.toNat), s.byte (s.address (s.pc.toNat + 1)),
      s.byte (s.address (s.pc.toNat + 2)), s.byte (s.address (s.pc.toNat + 3))] = .ok (i, []) →
    step s = exec i (s.call (.fetch s.pc))

/-- R65 to R84, the words of the spec's own examples: one word of every format and group decodes to its instruction. -/
def Obligations.SampleWordsDecode : Prop :=
  decodeWord .rv32 0x01C18FB3#32 = .ok (.add 31 3 28) ∧
  decodeWord .rv32 0xE3868713#32 = .ok (.addi 14 13 (-456)) ∧
  decodeWord .rv32 0xFFDFF06F#32 = .ok (.jal 0 (-4)) ∧
  decodeWord .rv32 0xFE209CE3#32 = .ok (.bne 1 2 (-8)) ∧
  decodeWord .rv32 0x00730423#32 = .ok (.sb 6 7 8) ∧
  decodeWord .rv32 0x123452B7#32 = .ok (.lui 5 0x12345) ∧
  decodeWord .rv64 0x43F75713#32 = .ok (.srai 14 14 63) ∧
  decodeWord .rv64 0x4041509B#32 = .ok (.sraiw 1 2 4) ∧
  decodeWord .rv32 0x0220C1B3#32 = .ok (.div 3 1 2) ∧
  decodeWord .rv32 0x00100073#32 = .ok .ebreak ∧
  decodeWord .rv32 0x02011093#32 = .error .unknown ∧
  decodeWord .rv32 0x00000000#32 = .error (.length 2)

/-- Decoding the encoding of a well-formed instruction gives it back, on words and on bytes. -/
def Obligations.DecodeOfEncode : Prop :=
  ∀ (xl : Xlen) (i : Instr), i.wellFormed xl = true →
    decodeWord xl (encode i) = .ok i ∧
    ∀ rest : List Byte, decodeBytes xl (bytesOfWord (encode i) ++ rest) = .ok (i, rest)

/-- Every word the decoder accepts is the encoding of the well-formed instruction it gives: no bit of a word is dropped. -/
def Obligations.EncodeOfDecode : Prop :=
  ∀ (xl : Xlen) (w : Opcode) (i : Instr), decodeWord xl w = .ok i → i.wellFormed xl = true ∧ encode i = w

/-- R76 to R84, opcode_table.json: the decoder gives a word an instruction of a mnemonic exactly when the mnemonic's row of the
opcode table for this width matches the word. -/
def Obligations.DecoderAgreesWithOpcodeTable : Prop :=
  ∀ (xl : Xlen) (w : Opcode) (t : Tag),
    (∃ i, decodeWord xl w = .ok i ∧ i.tag = t) ↔ ∃ row ∈ opcodeRows xl, row.tag = t ∧ w &&& row.mask = row.value

/-- R85: at most one row of the opcode table matches a word on a hart of one width. -/
def Obligations.OpcodeRowsExclusive : Prop :=
  ∀ (xl : Xlen) (w : Opcode) (r r' : OpcodeRow), r ∈ opcodeRows xl → r' ∈ opcodeRows xl →
    w &&& r.mask = r.value → w &&& r'.mask = r'.value → r = r'

/-- R65 to R70: after a step that ran an enabled instruction the latch holds the record the format decoder of its tag makes of the
fetched word, field by field; with the format Empty every operand field is 0. -/
def Obligations.LatchHoldsFormatRecord : Prop :=
  ∀ (s t : State) (i : Instr), decodeWord s.xlen s.fetchOpcode = .ok i → tagEnabled s.config i.tag = true → step s = .next t →
    let field (lo len : Nat) : Nat := s.fetchOpcode.toNat / 2 ^ lo % 2 ^ len
    let bit31 : Int := field 31 1
    t.inst.tag = i.tag ∧ t.inst.pc = s.pc ∧
    t.inst.rd.toNat = (if formatOf i.tag ∈ [Format.R, .I, .U, .J] then field 7 5 else 0) ∧
    t.inst.rs1.toNat = (if formatOf i.tag ∈ [Format.R, .I, .S, .B] then field 15 5 else 0) ∧
    t.inst.rs2.toNat = (if formatOf i.tag ∈ [Format.R, .S, .B] then field 20 5 else 0) ∧
    t.inst.imm = s.xlen.residue (match formatOf i.tag with
      | .I => (field 20 11 : Int) - bit31 * 2 ^ 11
      | .S => (field 25 6 : Int) * 2 ^ 5 + field 7 5 - bit31 * 2 ^ 11
      | .B => (field 7 1 : Int) * 2 ^ 11 + field 25 6 * 2 ^ 5 + field 8 4 * 2 - bit31 * 2 ^ 12
      | .U => (field 12 19 : Int) * 2 ^ 12 - bit31 * 2 ^ 31
      | .J => (field 12 8 : Int) * 2 ^ 12 + field 20 1 * 2 ^ 11 + field 21 10 * 2 - bit31 * 2 ^ 20
      | _ => 0)

/-- R61: the length function, class by class. -/
def Obligations.LengthClasses : Prop :=
  ∀ h : BitVec 16,
    (h.toNat % 4 ≠ 3 → ilen h = 2) ∧
    (h.toNat % 4 = 3 → h.toNat / 4 % 8 ≠ 7 → ilen h = 4) ∧
    (h.toNat % 64 = 31 → ilen h = 6) ∧
    (h.toNat % 128 = 63 → ilen h = 8) ∧
    (h.toNat % 128 = 127 → h.toNat / 4096 % 8 ≠ 7 → ilen h = 10 + 2 * (h.toNat / 4096 % 8)) ∧
    (h.toNat % 128 = 127 → h.toNat / 4096 % 8 = 7 → ilen h = 24)

/-- R203: a step on a 4-byte word that no row of the opcode table matches, or whose tag's group is not enabled, raises
IllegalInstruction: the pc at the next word, the kind notified once, no register and no byte of memory changed, the latch holding
the tag and the Empty fields.  Which words are recognised is decided by D3 to D5 (log 16). -/
def Obligations.UnrecognisedWordsTrap : Prop :=
  ∀ s : State,
    (opcodeLength s.fetchOpcode = 4 → (∀ row ∈ opcodeRows s.xlen, s.fetchOpcode &&& row.mask ≠ row.value) →
      ∃ t, step s = .next t ∧
        Effect s t (fmtEmpty .UNKNOWN s.pc) s.reg s.sequential (.trap .illegalInstruction :: .fetch s.pc :: s.calls)) ∧
    (∀ i, decodeWord s.xlen s.fetchOpcode = .ok i →
      (groupOf i.tag = .i64 ∧ s.xlen = .rv32) ∨ (groupOf i.tag = .m32 ∧ s.config.extM = false) ∨
        (groupOf i.tag = .m64 ∧ (s.xlen = .rv32 ∨ s.config.extM = false)) →
      ∃ t, step s = .next t ∧
        Effect s t (fmtEmpty i.tag s.pc) s.reg s.sequential (.trap .illegalInstruction :: .fetch s.pc :: s.calls))

/-- R87, R203: an instruction of a group that is not enabled (I64 when `XLEN` = 32, M32 without `M`, M64 without `M` or when
`XLEN` = 32) raises IllegalInstruction with the Empty record latched, whatever its operands. -/
def Obligations.DisabledTagsTrap : Prop :=
  ∀ (i : Instr) (s : State),
    (i.tag ∈ [Tag.LWU, .LD, .SD, .ADDIW, .SLLIW, .SRLIW, .SRAIW, .ADDW, .SUBW, .SLLW, .SRLW, .SRAW] ∧ s.xlen = .rv32) ∨
    (i.tag ∈ [Tag.MUL, .MULH, .MULHSU, .MULHU, .DIV, .DIVU, .REM, .REMU] ∧ s.config.extM = false) ∨
    (i.tag ∈ [Tag.MULW, .DIVW, .DIVUW, .REMW, .REMUW] ∧ (s.config.extM = false ∨ s.xlen = .rv32)) →
    TrapsWith i s { tag := i.tag, pc := s.pc, rd := 0, rs1 := 0, rs2 := 0, imm := 0 } .illegalInstruction

/-- R21: when `NREGS` = 16, an enabled instruction with a register field of 16 or more is refused. -/
def Obligations.AbsentRegistersRefused : Prop :=
  ∀ (i : Instr) (s : State), s.config.nregs = .r16 → tagEnabled s.config i.tag = true →
    (16 ≤ (recordOf s.xlen s.pc i).rd.toNat ∨ 16 ≤ (recordOf s.xlen s.pc i).rs1.toNat ∨
      16 ≤ (recordOf s.xlen s.pc i).rs2.toNat) →
    exec i s = .refused .regIndex

/-- R13, R21, R62: a step is refused exactly for a word whose length class is not 4 bytes, and for a register index that does not
exist; every other step has a next state. -/
def Obligations.StepRefusedExactly : Prop :=
  ∀ (s : State),
    (∀ r, step s = .refused r ↔
      (opcodeLength s.fetchOpcode ≠ 4 ∧ r = .unsupportedLength (opcodeLength s.fetchOpcode)) ∨
      (r = .regIndex ∧ s.config.nregs = .r16 ∧ ∃ i, decodeWord s.xlen s.fetchOpcode = .ok i ∧
        tagEnabled s.config i.tag = true ∧
        (16 ≤ (recordOf s.xlen s.pc i).rd.toNat ∨ 16 ≤ (recordOf s.xlen s.pc i).rs1.toNat ∨
          16 ≤ (recordOf s.xlen s.pc i).rs2.toNat))) ∧
    ((∃ t, step s = .next t) ∨ ∃ r, step s = .refused r)

/-! ### Integer register-immediate instructions -/

/-- R131, R132: `LUI` writes the immediate, `AUIPC` the sum of the instruction's address and the immediate. -/
def Obligations.UpperImmediateResults : Prop :=
  ∀ (s : State) (rd : RegIdx) (imm : BitVec 20), s.hasRegisters [rd] →
    ComputesAs (.lui rd imm) 0x0000007F 0x00000037 s rd (s.xlen.residue (imm.toInt * 2 ^ 12)) ∧
    ComputesAs (.auipc rd imm) 0x0000007F 0x00000017 s rd (s.xlen.residue (s.pc.toNat + imm.toInt * 2 ^ 12))

/-- R133 to R138: `ADDI`, `SLTI`, `SLTIU`, `XORI`, `ORI`, `ANDI`. -/
def Obligations.ImmediateArithmeticResults : Prop :=
  ∀ (s : State) (rd rs1 : RegIdx) (imm : BitVec 12), s.hasRegisters [rd, rs1] →
    ComputesAs (.addi rd rs1 imm) 0x0000707F 0x00000013 s rd (s.xlen.residue (s.u rs1 + imm.toInt)) ∧
    ComputesAs (.slti rd rs1 imm) 0x0000707F 0x00002013 s rd (if s.sg rs1 < imm.toInt then 1 else 0) ∧
    ComputesAs (.sltiu rd rs1 imm) 0x0000707F 0x00003013 s rd (if s.u rs1 < s.xlen.unsigned imm.toInt then 1 else 0) ∧
    ComputesAs (.xori rd rs1 imm) 0x0000707F 0x00004013 s rd (s.xlen.residue (s.u rs1 ^^^ s.xlen.unsigned imm.toInt : Nat)) ∧
    ComputesAs (.ori rd rs1 imm) 0x0000707F 0x00006013 s rd (s.xlen.residue (s.u rs1 ||| s.xlen.unsigned imm.toInt : Nat)) ∧
    ComputesAs (.andi rd rs1 imm) 0x0000707F 0x00007013 s rd (s.xlen.residue (s.u rs1 &&& s.xlen.unsigned imm.toInt : Nat))

/-- R139 to R141: `SLLI`, `SRLI`, `SRAI` shift by the amount field, which is below `XLEN` in every encoding of the width. -/
def Obligations.ShiftImmediateResults : Prop :=
  ∀ (s : State) (rd rs1 : RegIdx) (shamt : BitVec 6), s.hasRegisters [rd, rs1] → shamt.toNat < s.xlen.bits →
    let mask : Opcode := match s.xlen with
      | .rv32 => 0xFE00707F
      | .rv64 => 0xFC00707F
    ComputesAs (.slli rd rs1 shamt) mask 0x00001013 s rd (s.xlen.residue (s.u rs1 * 2 ^ shamt.toNat)) ∧
    ComputesAs (.srli rd rs1 shamt) mask 0x00005013 s rd (s.xlen.residue (s.u rs1 / 2 ^ shamt.toNat : Nat)) ∧
    ComputesAs (.srai rd rs1 shamt) mask 0x40005013 s rd (s.xlen.residue (s.sg rs1 / 2 ^ shamt.toNat))

/-- R142 to R145: `ADDIW`, `SLLIW`, `SRLIW`, `SRAIW` on a 64-bit hart. -/
def Obligations.WordImmediateResults : Prop :=
  ∀ (s : State) (rd rs1 : RegIdx) (imm : BitVec 12) (shamt : BitVec 5), s.xlen = .rv64 → s.hasRegisters [rd, rs1] →
    ComputesAs (.addiw rd rs1 imm) 0x0000707F 0x0000001B s rd (wordResidue (s.u rs1 + imm.toInt)) ∧
    ComputesAs (.slliw rd rs1 shamt) 0xFE00707F 0x0000101B s rd (wordResidue (s.u32 rs1 * 2 ^ shamt.toNat)) ∧
    ComputesAs (.srliw rd rs1 shamt) 0xFE00707F 0x0000501B s rd (wordResidue (s.u32 rs1 / 2 ^ shamt.toNat : Nat)) ∧
    ComputesAs (.sraiw rd rs1 shamt) 0xFE00707F 0x4000501B s rd (wordResidue (s.sg32 rs1 / 2 ^ shamt.toNat))

/-! ### Integer register-register instructions -/

/-- R151, R152, R154 to R156, R159, R160: `ADD`, `SUB`, `SLT`, `SLTU`, `XOR`, `OR`, `AND`. -/
def Obligations.RegisterArithmeticResults : Prop :=
  ∀ (s : State) (rd rs1 rs2 : RegIdx), s.hasRegisters [rd, rs1, rs2] →
    ComputesAs (.add rd rs1 rs2) 0xFE00707F 0x00000033 s rd (s.xlen.residue (s.u rs1 + s.u rs2)) ∧
    ComputesAs (.sub rd rs1 rs2) 0xFE00707F 0x40000033 s rd (s.xlen.residue ((s.u rs1 : Int) - s.u rs2)) ∧
    ComputesAs (.slt rd rs1 rs2) 0xFE00707F 0x00002033 s rd (if s.sg rs1 < s.sg rs2 then 1 else 0) ∧
    ComputesAs (.sltu rd rs1 rs2) 0xFE00707F 0x00003033 s rd (if s.u rs1 < s.u rs2 then 1 else 0) ∧
    ComputesAs (.xor rd rs1 rs2) 0xFE00707F 0x00004033 s rd (s.xlen.residue (s.u rs1 ^^^ s.u rs2 : Nat)) ∧
    ComputesAs (.or rd rs1 rs2) 0xFE00707F 0x00006033 s rd (s.xlen.residue (s.u rs1 ||| s.u rs2 : Nat)) ∧
    ComputesAs (.and rd rs1 rs2) 0xFE00707F 0x00007033 s rd (s.xlen.residue (s.u rs1 &&& s.u rs2 : Nat))

/-- R153, R157, R158, R108: `SLL`, `SRL`, `SRA` shift by `x[rs2]` modulo `XLEN`. -/
def Obligations.RegisterShiftResults : Prop :=
  ∀ (s : State) (rd rs1 rs2 : RegIdx), s.hasRegisters [rd, rs1, rs2] →
    ComputesAs (.sll rd rs1 rs2) 0xFE00707F 0x00001033 s rd (s.xlen.residue (s.u rs1 * 2 ^ (s.u rs2 % s.xlen.bits))) ∧
    ComputesAs (.srl rd rs1 rs2) 0xFE00707F 0x00005033 s rd (s.xlen.residue (s.u rs1 / 2 ^ (s.u rs2 % s.xlen.bits) : Nat)) ∧
    ComputesAs (.sra rd rs1 rs2) 0xFE00707F 0x40005033 s rd (s.xlen.residue (s.sg rs1 / 2 ^ (s.u rs2 % s.xlen.bits)))

/-- R161 to R165: `ADDW`, `SUBW`, `SLLW`, `SRLW`, `SRAW` on a 64-bit hart. -/
def Obligations.WordRegisterResults : Prop :=
  ∀ (s : State) (rd rs1 rs2 : RegIdx), s.xlen = .rv64 → s.hasRegisters [rd, rs1, rs2] →
    ComputesAs (.addw rd rs1 rs2) 0xFE00707F 0x0000003B s rd (wordResidue (s.u rs1 + s.u rs2)) ∧
    ComputesAs (.subw rd rs1 rs2) 0xFE00707F 0x4000003B s rd (wordResidue ((s.u rs1 : Int) - s.u rs2)) ∧
    ComputesAs (.sllw rd rs1 rs2) 0xFE00707F 0x0000103B s rd (wordResidue (s.u32 rs1 * 2 ^ (s.u rs2 % 32))) ∧
    ComputesAs (.srlw rd rs1 rs2) 0xFE00707F 0x0000503B s rd (wordResidue (s.u32 rs1 / 2 ^ (s.u rs2 % 32) : Nat)) ∧
    ComputesAs (.sraw rd rs1 rs2) 0xFE00707F 0x4000503B s rd (wordResidue (s.sg32 rs1 / 2 ^ (s.u rs2 % 32)))

/-! ### Multiply and divide -/

/-- R211 to R214: `MUL`, `MULH`, `MULHSU`, `MULHU` with `ext_M`. -/
def Obligations.MultiplyResults : Prop :=
  ∀ (s : State) (rd rs1 rs2 : RegIdx), s.config.extM = true → s.hasRegisters [rd, rs1, rs2] →
    ComputesAs (.mul rd rs1 rs2) 0xFE00707F 0x02000033 s rd (s.xlen.residue (s.u rs1 * s.u rs2)) ∧
    ComputesAs (.mulh rd rs1 rs2) 0xFE00707F 0x02001033 s rd (s.xlen.residue (s.sg rs1 * s.sg rs2 / 2 ^ s.xlen.bits)) ∧
    ComputesAs (.mulhsu rd rs1 rs2) 0xFE00707F 0x02002033 s rd (s.xlen.residue (s.sg rs1 * s.u rs2 / 2 ^ s.xlen.bits)) ∧
    ComputesAs (.mulhu rd rs1 rs2) 0xFE00707F 0x02003033 s rd (s.xlen.residue (s.u rs1 * s.u rs2 / 2 ^ s.xlen.bits))

/-- R215 to R218: `DIV`, `DIVU`, `REM`, `REMU` with `ext_M`, division by zero and signed overflow among them. -/
def Obligations.DivideResults : Prop :=
  ∀ (s : State) (rd rs1 rs2 : RegIdx), s.config.extM = true → s.hasRegisters [rd, rs1, rs2] →
    ComputesAs (.div rd rs1 rs2) 0xFE00707F 0x02004033 s rd (s.xlen.residue
      (if s.u rs2 = 0 then -1
        else if s.sg rs1 = -2 ^ (s.xlen.bits - 1) ∧ s.sg rs2 = -1 then s.sg rs1
        else (s.sg rs1).tdiv (s.sg rs2))) ∧
    ComputesAs (.divu rd rs1 rs2) 0xFE00707F 0x02005033 s rd (s.xlen.residue
      (if s.u rs2 = 0 then 2 ^ s.xlen.bits - 1 else ((s.u rs1 / s.u rs2 : Nat) : Int))) ∧
    ComputesAs (.rem rd rs1 rs2) 0xFE00707F 0x02006033 s rd (s.xlen.residue
      (if s.u rs2 = 0 then s.sg rs1
        else if s.sg rs1 = -2 ^ (s.xlen.bits - 1) ∧ s.sg rs2 = -1 then 0
        else (s.sg rs1).tmod (s.sg rs2))) ∧
    ComputesAs (.remu rd rs1 rs2) 0xFE00707F 0x02007033 s rd (s.xlen.residue
      (if s.u rs2 = 0 then (s.u rs1 : Int) else ((s.u rs1 % s.u rs2 : Nat) : Int)))

/-- R219 to R223: `MULW`, `DIVW`, `DIVUW`, `REMW`, `REMUW` on a 64-bit hart with `ext_M`. -/
def Obligations.MulDivWordResults : Prop :=
  ∀ (s : State) (rd rs1 rs2 : RegIdx), s.xlen = .rv64 → s.config.extM = true → s.hasRegisters [rd, rs1, rs2] →
    ComputesAs (.mulw rd rs1 rs2) 0xFE00707F 0x0200003B s rd (wordResidue (s.u32 rs1 * s.u32 rs2)) ∧
    ComputesAs (.divw rd rs1 rs2) 0xFE00707F 0x0200403B s rd (wordResidue
      (if s.u32 rs2 = 0 then -1
        else if s.sg32 rs1 = -2 ^ 31 ∧ s.sg32 rs2 = -1 then s.sg32 rs1
        else (s.sg32 rs1).tdiv (s.sg32 rs2))) ∧
    ComputesAs (.divuw rd rs1 rs2) 0xFE00707F 0x0200503B s rd (wordResidue
      (if s.u32 rs2 = 0 then 2 ^ 32 - 1 else ((s.u32 rs1 / s.u32 rs2 : Nat) : Int))) ∧
    ComputesAs (.remw rd rs1 rs2) 0xFE00707F 0x0200603B s rd (wordResidue
      (if s.u32 rs2 = 0 then s.sg32 rs1
        else if s.sg32 rs1 = -2 ^ 31 ∧ s.sg32 rs2 = -1 then 0
        else (s.sg32 rs1).tmod (s.sg32 rs2))) ∧
    ComputesAs (.remuw rd rs1 rs2) 0xFE00707F 0x0200703B s rd (wordResidue
      (if s.u32 rs2 = 0 then (s.u32 rs1 : Int) else ((s.u32 rs1 % s.u32 rs2 : Nat) : Int)))

/-- R92: an integer computational instruction with `rd` = 0, the canonical `NOP` among them, and `FENCE` with any fields, change
nothing but the pc (and the latch).  That `FENCE` does nothing is D16 (log 21). -/
def Obligations.ComputationWithoutDestination : Prop :=
  ∀ (s : State) (i : Instr),
    (isComputational i = true ∧ destination i = some 0) ∨ (∃ rd rs1 fields, i = .fence rd rs1 fields) →
    tagEnabled s.config i.tag = true →
    s.hasRegisters [(recordOf s.xlen s.pc i).rs1, (recordOf s.xlen s.pc i).rs2] →
    ∃ t, exec i s = .next t ∧ Effect s t (recordOf s.xlen s.pc i) s.reg s.sequential s.calls

/-! ### Control transfer -/

/-- R112: the alignment detector. -/
def Obligations.AlignmentDetector : Prop :=
  ∀ (extC : Bool) (a : Word),
    misaligned extC a = true ↔ (if extC then a.toNat % 2 ≠ 0 else a.toNat % 4 ≠ 0)

/-- R171, D10: `JAL` to an aligned target writes the pc with `inst.pc + imm` and the link value `inst.pc + 4`; a misaligned target
traps, with neither written (log 12). -/
def Obligations.JalResults : Prop :=
  ∀ (s : State) (rd : RegIdx) (imm : BitVec 21), s.hasRegisters [rd] →
    Encoded (.jal rd imm) 0x0000007F 0x0000006F ∧
    (s.aligned (s.pc.toNat + imm.toInt) →
      Transfers (.jal rd imm) s rd s.sequential (s.xlen.residue (s.pc.toNat + imm.toInt))) ∧
    (¬ s.aligned (s.pc.toNat + imm.toInt) → Traps (.jal rd imm) s .instructionAddressMisaligned)

/-- R172, R106, D10: `JALR` clears bit 0 of `x[rs1] + imm`, read before the link write; then as `JAL` (log 12). -/
def Obligations.JalrResults : Prop :=
  ∀ (s : State) (rd rs1 : RegIdx) (imm : BitVec 12), s.hasRegisters [rd, rs1] →
    let target : Int := 2 * ((s.u rs1 + imm.toInt) / 2)
    Encoded (.jalr rd rs1 imm) 0x0000707F 0x00000067 ∧
    (s.aligned target → Transfers (.jalr rd rs1 imm) s rd s.sequential (s.xlen.residue target)) ∧
    (¬ s.aligned target → Traps (.jalr rd rs1 imm) s .instructionAddressMisaligned)

/-- R173 to R179, D11: each branch, encoded as its rule says, is taken exactly when its condition holds; a taken branch to an
aligned target writes the pc with `inst.pc + imm`, one to a misaligned target traps; a branch not taken only advances the pc, and
its target is not checked (log 13). -/
def Obligations.BranchResults : Prop :=
  ∀ (s : State) (rs1 rs2 : RegIdx) (imm : BitVec 13), s.hasRegisters [rs1, rs2] →
    ∀ (i : Instr) (value : Opcode) (cond : Prop),
      (i, value, cond) ∈
        [(Instr.beq rs1 rs2 imm, (0x00000063 : Opcode), s.u rs1 = s.u rs2),
         (.bne rs1 rs2 imm, 0x00001063, s.u rs1 ≠ s.u rs2),
         (.blt rs1 rs2 imm, 0x00004063, s.sg rs1 < s.sg rs2),
         (.bge rs1 rs2 imm, 0x00005063, s.sg rs2 ≤ s.sg rs1),
         (.bltu rs1 rs2 imm, 0x00006063, s.u rs1 < s.u rs2),
         (.bgeu rs1 rs2 imm, 0x00007063, s.u rs2 ≤ s.u rs1)] →
      Encoded i 0x0000707F value ∧
      (cond → s.aligned (s.pc.toNat + imm.toInt) → Transfers i s 0 0 (s.xlen.residue (s.pc.toNat + imm.toInt))) ∧
      (cond → ¬ s.aligned (s.pc.toNat + imm.toInt) → Traps i s .instructionAddressMisaligned) ∧
      (¬ cond → Transfers i s 0 0 s.sequential)

/-- R259: `JAL x0, 0` (word 0x0000006F) at an aligned pc parks: the step changes nothing but the latch and the record of the
fetch. -/
def Obligations.JumpToItselfParks : Prop :=
  ∀ s : State, s.fetchOpcode = 0x0000006F#32 → s.pc.toNat < 2 ^ s.xlen.bits → misaligned s.config.extC s.pc = false →
    ∃ t, step s = .next t ∧
      Effect s t { tag := .JAL, pc := s.pc, rd := 0, rs1 := 0, rs2 := 0, imm := 0 } s.reg s.pc (.fetch s.pc :: s.calls)

/-! ### Loads and stores -/

/-- R180 to R187: each load with `rd` not 0 and an aligned effective address makes one little-endian read of its width and writes
`rd` with the value, sign- or zero-extended. -/
def Obligations.LoadResults : Prop :=
  ∀ (s : State) (rd rs1 : RegIdx) (imm : BitVec 12), s.hasRegisters [rd, rs1] → rd ≠ 0 →
    let ea : Int := s.u rs1 + imm.toInt
    s.aligned ea →
    Loads (.lb rd rs1 imm) s ea .byte rd (s.xlen.residue (signedReading 8 (s.bytesValue ea 1))) ∧
    Loads (.lh rd rs1 imm) s ea .half rd (s.xlen.residue (signedReading 16 (s.bytesValue ea 2))) ∧
    Loads (.lw rd rs1 imm) s ea .word rd (s.xlen.residue (signedReading 32 (s.bytesValue ea 4))) ∧
    Loads (.lbu rd rs1 imm) s ea .byte rd (s.xlen.residue (s.bytesValue ea 1)) ∧
    Loads (.lhu rd rs1 imm) s ea .half rd (s.xlen.residue (s.bytesValue ea 2)) ∧
    (s.xlen = .rv64 →
      Loads (.lwu rd rs1 imm) s ea .word rd (s.xlen.residue (s.bytesValue ea 4)) ∧
      Loads (.ld rd rs1 imm) s ea .double rd (s.xlen.residue (s.bytesValue ea 8)))

/-- R180, R235, D12: an enabled load with `rd` = 0 raises IllegalInstruction whatever its address, and touches nothing (log 14). -/
def Obligations.LoadWithoutDestinationTraps : Prop :=
  ∀ (s : State) (i : Instr) (n : AccessSize), loadSize i = some n → destination i = some 0 →
    tagEnabled s.config i.tag = true → s.hasRegisters [(recordOf s.xlen s.pc i).rs1] →
    Traps i s .illegalInstruction

/-- R46, R113, D13, D31: an enabled load with `rd` not 0, or store, whose effective address fails the detector raises
InstructionAddressMisaligned and makes no access, whatever its width (log 15). -/
def Obligations.MisalignedAccessTraps : Prop :=
  ∀ (s : State) (rd rs1 rs2 : RegIdx) (imm : BitVec 12), ¬ s.aligned (s.u rs1 + imm.toInt) → rd ≠ 0 →
    s.hasRegisters [rd, rs1, rs2] →
    ∀ i ∈ [Instr.lb rd rs1 imm, .lh rd rs1 imm, .lw rd rs1 imm, .lbu rd rs1 imm, .lhu rd rs1 imm, .lwu rd rs1 imm,
        .ld rd rs1 imm, .sb rs1 rs2 imm, .sh rs1 rs2 imm, .sw rs1 rs2 imm, .sd rs1 rs2 imm],
      tagEnabled s.config i.tag = true → Traps i s .instructionAddressMisaligned

/-- R188 to R192: each store to an aligned effective address makes one little-endian write of the low bytes of `x[rs2]`. -/
def Obligations.StoreResults : Prop :=
  ∀ (s : State) (rs1 rs2 : RegIdx) (imm : BitVec 12), s.hasRegisters [rs1, rs2] →
    let ea : Int := s.u rs1 + imm.toInt
    s.aligned ea →
    Stores (.sb rs1 rs2 imm) s ea .byte (s.u rs2) ∧
    Stores (.sh rs1 rs2 imm) s ea .half (s.u rs2) ∧
    Stores (.sw rs1 rs2 imm) s ea .word (s.u rs2) ∧
    (s.xlen = .rv64 → Stores (.sd rs1 rs2 imm) s ea .double (s.u rs2))

/-- R43 to R45: a read of `m` bytes after a write of at least `m` bytes at the same address returns the low `m` bytes written; a
halfword read after a word write returns `v[15:0]`. -/
def Obligations.ReadAfterWrite : Prop :=
  ∀ (s : State) (a v : Word) (m n : AccessSize), m.bytes ≤ n.bytes →
    ((s.memWrite a n v).memRead a m).toNat = v.toNat % 2 ^ (8 * m.bytes)

/-- R52, R42: a word stored at the pc is what the next fetch returns; `withFetchWord` places exactly that word and touches
nothing but memory. -/
def Obligations.StoredWordIsFetched : Prop :=
  ∀ (s : State) (v : Word) (w : Nat), w < 2 ^ 32 →
    (s.memWrite s.pc .word v).fetchOpcode = v.setWidth 32 ∧
    (s.withFetchWord 32 w).fetchOpcode = BitVec.ofNat 32 w ∧
    { s.withFetchWord 32 w with mem := s.mem } = s

/-! ### System instructions and traps -/

/-- R200, R51, D16: `FENCE`, whatever its fields, only advances the pc (log 21). -/
def Obligations.FenceOnlyAdvances : Prop :=
  ∀ (s : State) (rd rs1 : RegIdx) (fields : BitVec 12),
    Encoded (.fence rd rs1 fields) 0x0000707F 0x0000000F ∧
    ∃ t, exec (.fence rd rs1 fields) s = .next t ∧ Effect s t (fmtEmpty .FENCE s.pc) s.reg s.sequential s.calls

/-- R201, R202: `ECALL` and `EBREAK` notify the environment of their trap kind once, leave the pc at the next instruction and change
nothing else. -/
def Obligations.CallAndBreakpointTrap : Prop :=
  ∀ s : State,
    (encode .ecall = 0x00000073#32 ∧ TrapsWith .ecall s (fmtEmpty .ECALL s.pc) .systemCall) ∧
    (encode .ebreak = 0x00100073#32 ∧ TrapsWith .ebreak s (fmtEmpty .EBREAK s.pc) .breakpoint)

/-- R233, R234, R231: a step that traps leaves the pc at its own address plus 4, changes no register and no byte of memory, saves
nothing, and notifies the environment exactly once.  Of the whole step two clauses are choices, as R234 marks: that a `JAL` or `JALR`
with a misaligned target writes no link register is D10 (log 12), and that a misaligned load or store makes no access is D31
(log 15). -/
def Obligations.TrappedStepChangesNothingElse : Prop :=
  ∀ (s t : State) (k : TrapKind), stepOutcome s = .trapped k t →
    t.pc = s.sequential ∧ t.x = s.x ∧ t.mem = s.mem ∧ t.config = s.config ∧ t.calls = .trap k :: .fetch s.pc :: s.calls

/-- R103, R50, R48: a step makes one fetch, then at most one data access, by a load or store and of its width, or one trap
notification. -/
def Obligations.EnvironmentCallsOfAStep : Prop :=
  ∀ s t : State, step s = .next t →
    t.calls = .fetch s.pc :: s.calls ∨
    (∃ k, t.calls = .trap k :: .fetch s.pc :: s.calls) ∨
    ∃ i n, decodeWord s.xlen s.fetchOpcode = .ok i ∧
      ((loadSize i = some n ∧ ∃ a, t.calls = .read a n :: .fetch s.pc :: s.calls) ∨
       (storeSize i = some n ∧ ∃ a v, t.calls = .write a n v :: .fetch s.pc :: s.calls))

/-- R239, D22: under the policy `halt` a run that made all its steps took no trap: no notification stands among its calls. -/
def Obligations.HaltedRunsRecordNoTrap : Prop :=
  ∀ (k : Nat) (s t : State), hostRun .halts k s = .ran t →
    ∃ new, t.calls = new ++ s.calls ∧ ∀ c ∈ new, ∀ kind, c ≠ .trap kind

/-- R239: under the policy `continue` the step after a trap fetches at the trapping instruction's address plus 4. -/
def Obligations.ContinuedRunsFetchAfterTheTrap : Prop :=
  ∀ (k : Nat) (s t : State) (kind : TrapKind), stepOutcome s = .trapped kind t →
    hostRun .continues (k + 1) s = hostRun .continues k t ∧
    (∀ t', step t = .next t' → ∃ new, t'.calls = new ++ .fetch s.sequential :: .trap kind :: .fetch s.pc :: s.calls) ∧
    hostRun .halts (k + 1) s = .haltedAt kind t

/-! ### Frames -/

/-- R105, R20: an instruction writes no register but its destination, and none where its format has no `rd`; the configuration
is unchanged. -/
def Obligations.RegisterFrame : Prop :=
  ∀ (i : Instr) (s t : State), exec i s = .next t →
    (∀ r, (destination i ≠ some r ∨ r = 0) → t.reg r = s.reg r) ∧ t.config = s.config

/-- R40: an instruction that is no store leaves every byte of memory as it was. -/
def Obligations.MemoryFrameWithoutStore : Prop :=
  ∀ (i : Instr) (s t : State), storeSize i = none → exec i s = .next t → ∀ a, t.byte a = s.byte a

/-- R44, R49, R111: a store changes no byte outside the bytes of its width from the effective address on. -/
def Obligations.StoreFrame : Prop :=
  ∀ (i : Instr) (n : AccessSize) (s t : State), storeSize i = some n → exec i s = .next t →
    ∀ a, (∀ k, k < n.bytes → a ≠ byteAddress s.xlen (effectiveAddress (s.latch (recordOf s.xlen s.pc i))) k) →
      t.byte a = s.byte a

/-- R23, R102: after an instruction that is no branch or jump the pc is the next sequential instruction's address; after a branch
or jump it is that or a target the detector accepts. -/
def Obligations.PcAfterAnInstruction : Prop :=
  ∀ (i : Instr) (s t : State), exec i s = .next t →
    t.pc = s.sequential ∨ (isTransfer i = true ∧ misaligned s.config.extC t.pc = false)
end

