-- ==== Sys2Proof/Laws/Values.lean ====
section
/-! SUPPORT. `XLEN`-bit values as integers: every width-dependent operation of the model is an operation on bit vectors of `XLEN` bits,
and its result is a residue modulo 2^`XLEN`. -/

namespace Sys2Proof

/-- The `XLEN` bits of a word. -/
def Xlen.view (xl : Xlen) (v : Word) : BitVec xl.bits := v.setWidth xl.bits

theorem Xlen.bits_le (xl : Xlen) : xl.bits ≤ 64 := by cases xl <;> decide

theorem Xlen.bits_ge (xl : Xlen) : 32 ≤ xl.bits := by cases xl <;> decide

theorem Xlen.bits_pos (xl : Xlen) : 0 < xl.bits := by cases xl <;> decide

/-- `2^XLEN` divides `2^64`. -/
theorem Xlen.dvd (xl : Xlen) : (2 : Int) ^ xl.bits ∣ 2 ^ 64 := by cases xl <;> decide

@[simp] theorem Xlen.view_toNat (xl : Xlen) (v : Word) : (xl.view v).toNat = v.toNat % 2 ^ xl.bits := by
  simp [Xlen.view]

/-- The signed reading of a bit vector. -/
theorem toInt_eq_signedReading {w : Nat} (v : BitVec w) : v.toInt = signedReading w v.toNat := by
  simp [BitVec.toInt, signedReading]

theorem Xlen.view_toInt (xl : Xlen) (v : Word) : (xl.view v).toInt = signedReading xl.bits (v.toNat % 2 ^ xl.bits) := by
  rw [toInt_eq_signedReading, Xlen.view_toNat]

/-- A two-operand operation acts on the `XLEN` bits of its operands. -/
theorem Xlen.lift2_eq (xl : Xlen) (f : {w : Nat} → BitVec w → BitVec w → BitVec w) (a b : Word) :
    xl.lift2 f a b = (f (xl.view a) (xl.view b)).setWidth 64 := by
  cases xl
  · rfl
  · simp only [Xlen.lift2, Xlen.view, Xlen.bits, BitVec.setWidth_eq]

/-- A comparison acts on the `XLEN` bits of its operands. -/
theorem Xlen.compare_eq (xl : Xlen) (f : {w : Nat} → BitVec w → BitVec w → Bool) (a b : Word) :
    xl.compare f a b = f (xl.view a) (xl.view b) := by
  cases xl
  · rfl
  · simp only [Xlen.compare, Xlen.view, Xlen.bits, BitVec.setWidth_eq]

theorem Xlen.trunc_eq_view (xl : Xlen) (v : Word) : xl.trunc v = (xl.view v).setWidth 64 := by
  cases xl
  · rfl
  · simp only [Xlen.trunc, Xlen.view, Xlen.bits, BitVec.setWidth_eq]

/-- The unsigned value of a residue. -/
@[simp] theorem Xlen.residue_toNat (xl : Xlen) (z : Int) : (xl.residue z).toNat = xl.unsigned z := by
  have h : (0 : Int) ≤ z % 2 ^ xl.bits := Int.emod_nonneg _ (by cases xl <;> decide)
  have h' : z % 2 ^ xl.bits < 2 ^ xl.bits := Int.emod_lt_of_pos _ (by cases xl <;> decide)
  have h'' : (2 : Int) ^ xl.bits ≤ 2 ^ 64 := by cases xl <;> decide
  simp only [Xlen.residue, Xlen.unsigned, BitVec.toNat_ofInt]
  congr 1
  exact Int.emod_eq_of_lt h (Int.lt_of_lt_of_le h' (by simpa using h''))

@[simp] theorem Xlen.unsigned_natCast (xl : Xlen) (n : Nat) : xl.unsigned n = n % 2 ^ xl.bits := by
  have e : (n : Int) % 2 ^ xl.bits = ((n % 2 ^ xl.bits : Nat) : Int) := by push_cast; rfl
  rw [Xlen.unsigned, e]
  rfl

theorem Xlen.unsigned_lt (xl : Xlen) (z : Int) : xl.unsigned z < 2 ^ xl.bits := by
  have h : z % 2 ^ xl.bits < 2 ^ xl.bits := Int.emod_lt_of_pos _ (by cases xl <;> decide)
  have h' : (0 : Int) ≤ z % 2 ^ xl.bits := Int.emod_nonneg _ (by cases xl <;> decide)
  simp only [Xlen.unsigned]
  zify
  rw [Int.toNat_of_nonneg h']
  exact_mod_cast h

theorem Xlen.residue_lt (xl : Xlen) (z : Int) : (xl.residue z).toNat < 2 ^ xl.bits := by
  rw [Xlen.residue_toNat]; exact xl.unsigned_lt z

/-- Integers congruent modulo 2^`XLEN` have one residue. -/
theorem Xlen.residue_congr {xl : Xlen} {y z : Int} (h : y % 2 ^ xl.bits = z % 2 ^ xl.bits) : xl.residue y = xl.residue z := by
  simp only [Xlen.residue, h]

/-- The 64-bit word of an `XLEN`-bit result known as an integer. -/
theorem Xlen.setWidth_ofInt (xl : Xlen) (z : Int) : (BitVec.ofInt xl.bits z).setWidth 64 = xl.residue z := by
  apply BitVec.eq_of_toNat_eq
  have h := xl.unsigned_lt z
  have h' : 2 ^ xl.bits ≤ 2 ^ 64 := Nat.pow_le_pow_right (by decide) xl.bits_le
  rw [Xlen.residue_toNat, BitVec.toNat_setWidth, BitVec.toNat_ofInt]
  have e : (z % ((2 ^ xl.bits : Nat) : Int)).toNat = xl.unsigned z := by simp [Xlen.unsigned]
  rw [e, Nat.mod_eq_of_lt (Nat.lt_of_lt_of_le h h')]

/-- An operation whose result at `XLEN` bits is an integer's value yields that integer's residue. -/
theorem Xlen.lift2_residue {xl : Xlen} {f : {w : Nat} → BitVec w → BitVec w → BitVec w} {a b : Word} {z : Int}
    (h : f (xl.view a) (xl.view b) = BitVec.ofInt xl.bits z) : xl.lift2 f a b = xl.residue z := by
  rw [Xlen.lift2_eq, h, Xlen.setWidth_ofInt]

theorem ofInt_toNat {w : Nat} (v : BitVec w) : BitVec.ofInt w v.toNat = v := by
  apply BitVec.eq_of_toNat_eq
  rw [BitVec.toNat_ofInt]
  have e : ((v.toNat : Int) % ((2 ^ w : Nat) : Int)) = v.toNat :=
    Int.emod_eq_of_lt (Int.natCast_nonneg _) (Int.ofNat_lt.2 v.isLt)
  rw [e]; rfl

/-- Truncation to `XLEN` bits is the residue of the value. -/
theorem Xlen.trunc_eq (xl : Xlen) (v : Word) : xl.trunc v = xl.residue v.toNat := by
  rw [Xlen.trunc_eq_view, ← ofInt_toNat (xl.view v), Xlen.setWidth_ofInt, Xlen.view_toNat]
  apply Xlen.residue_congr
  push_cast
  exact Int.emod_emod_of_dvd _ (dvd_refl _)

/-- Addition modulo 2^`XLEN` (R11). -/
theorem Xlen.add_eq (xl : Xlen) (a b : Word) : xl.add a b = xl.residue (a.toNat + b.toNat) := by
  rw [Xlen.add, Xlen.trunc_eq, BitVec.toNat_add]
  apply Xlen.residue_congr
  push_cast
  exact Int.emod_emod_of_dvd _ (by simpa using xl.dvd)

theorem Xlen.trunc_lt (xl : Xlen) (v : Word) : (xl.trunc v).toNat < 2 ^ xl.bits := by
  rw [Xlen.trunc_eq]; exact xl.residue_lt _

/-- Sign-extension to `XLEN` bits keeps the signed value (R10). -/
theorem Xlen.sext_eq (xl : Xlen) {n : Nat} (hn : n ≤ 64) (v : BitVec n) : xl.sext v = xl.residue v.toInt := by
  rw [Xlen.sext, Xlen.trunc_eq]
  apply Xlen.residue_congr
  have h : (v.signExtend 64).toInt = v.toInt := BitVec.toInt_signExtend_of_le hn
  rw [← h, BitVec.toInt_eq_toNat_bmod]
  have : ((v.signExtend 64).toNat : Int).bmod (2 ^ 64) % 2 ^ 64 = ((v.signExtend 64).toNat : Int) % 2 ^ 64 :=
    Int.bmod_emod
  have := congrArg (· % (2 : Int) ^ xl.bits) this
  simp only [Int.emod_emod_of_dvd _ xl.dvd] at this
  exact this.symm

/-- Zero-extension to `XLEN` bits keeps the unsigned value (R10). -/
theorem Xlen.zext_eq (xl : Xlen) {n : Nat} (hn : n ≤ 64) (v : BitVec n) : xl.zext v = xl.residue v.toNat := by
  rw [Xlen.zext, Xlen.trunc_eq, BitVec.toNat_setWidth, Nat.mod_eq_of_lt]
  exact Nat.lt_of_lt_of_le v.isLt (Nat.pow_le_pow_right (by decide) hn)

/-- A residue as an integer. -/
theorem Xlen.coe_residue_toNat (xl : Xlen) (z : Int) : ((xl.residue z).toNat : Int) = z % 2 ^ xl.bits := by
  rw [Xlen.residue_toNat, Xlen.unsigned, Int.toNat_of_nonneg (Int.emod_nonneg _ (by positivity))]

/-- A sum of residues is the residue of the sum (R11). -/
theorem Xlen.residue_add_emod (xl : Xlen) (y z : Int) : xl.residue (y + z % 2 ^ xl.bits) = xl.residue (y + z) :=
  Xlen.residue_congr (Int.add_emod_emod ..)

theorem Xlen.residue_emod_add (xl : Xlen) (y z : Int) : xl.residue (y % 2 ^ xl.bits + z) = xl.residue (y + z) :=
  Xlen.residue_congr (Int.emod_add_emod ..)

/-- An address sum: a word and a sign-extended immediate (R110, R111). -/
theorem Xlen.add_sext (xl : Xlen) {n : Nat} (hn : n ≤ 64) (a : Word) (v : BitVec n) :
    xl.add a (xl.sext v) = xl.residue (a.toNat % 2 ^ xl.bits + v.toInt) := by
  rw [Xlen.add_eq, Xlen.sext_eq xl hn, Xlen.coe_residue_toNat, Xlen.residue_add_emod, Xlen.residue_emod_add]

/-- The `XLEN` bits of a sign-extended value. -/
theorem Xlen.view_sext (xl : Xlen) {n : Nat} (v : BitVec n) : xl.view (xl.sext v) = v.signExtend xl.bits := by
  cases xl
  · ext j hj
    simp only [Xlen.view, Xlen.sext, Xlen.trunc, Xlen.bits] at hj ⊢
    simp [BitVec.getElem_signExtend]
    grind
  · simp only [Xlen.view, Xlen.sext, Xlen.trunc, Xlen.bits, BitVec.setWidth_eq]

/-- The signed value of a sign-extended field (R10). -/
theorem Xlen.view_sext_toInt (xl : Xlen) {n : Nat} (hn : n ≤ 32) (v : BitVec n) : (xl.view (xl.sext v)).toInt = v.toInt := by
  rw [Xlen.view_sext]
  exact BitVec.toInt_signExtend_of_le (Nat.le_trans hn xl.bits_ge)

/-- The unsigned value of a sign-extended field (R10). -/
theorem Xlen.view_sext_toNat (xl : Xlen) {n : Nat} (hn : n ≤ 32) (v : BitVec n) :
    (xl.view (xl.sext v)).toNat = xl.unsigned v.toInt := by
  have h : ∀ w (u : BitVec w), u.toInt % 2 ^ w = u.toNat := by
    intro w u
    have e := Int.bmod_emod (x := (u.toNat : Int)) (m := 2 ^ w)
    rw [BitVec.toInt_eq_toNat_bmod]
    push_cast at e
    rw [e]
    exact Int.emod_eq_of_lt (Int.natCast_nonneg _) (by exact_mod_cast u.isLt)
  rw [Xlen.unsigned, ← Xlen.view_sext_toInt xl hn v, h]
  rfl

theorem Xlen.lift2_lt (xl : Xlen) (f : {w : Nat} → BitVec w → BitVec w → BitVec w) (a b : Word) :
    (xl.lift2 f a b).toNat < 2 ^ xl.bits := by
  rw [Xlen.lift2_eq, BitVec.toNat_setWidth]
  exact Nat.lt_of_le_of_lt (Nat.mod_le _ _) (BitVec.isLt _)

end Sys2Proof
end

