-- ==== Sys2Proof/Laws/Alu.lean ====
section
/-! SUPPORT. What the ALU core, the multiply/divide unit and the comparators compute, as integers: one lemma per operation. -/

namespace Sys2Proof.Machine

/-! ### The ALU core (R107 to R109) -/

theorem shiftAmount_eq (xl : Xlen) (b : BitVec xl.bits) : shiftAmount b = b.toNat % xl.bits := by
  rw [shiftAmount, BitVec.toNat_and]
  cases xl
  · exact Nat.and_two_pow_sub_one_eq_mod _ 5
  · exact Nat.and_two_pow_sub_one_eq_mod _ 6

theorem shiftAmountW_eq (b : Word) : shiftAmountW b = b.toNat % 32 := by
  change (b &&& 31#64).toNat = _
  rw [BitVec.toNat_and]
  exact Nat.and_two_pow_sub_one_eq_mod _ 5

/-- An operation whose result at `XLEN` bits has an integer's unsigned value yields that integer's residue. -/
theorem lift2_of_toNat {xl : Xlen} {f : {w : Nat} → BitVec w → BitVec w → BitVec w} {a b : Word} {z : Int}
    (h : (f (xl.view a) (xl.view b)).toNat = xl.unsigned z) : xl.lift2 f a b = xl.residue z := by
  apply Xlen.lift2_residue
  apply BitVec.eq_of_toNat_eq
  rw [h, BitVec.toNat_ofInt, Xlen.unsigned]
  simp

theorem alu_add (xl : Xlen) (a b : Word) : alu xl .add a b = xl.residue ((xl.view a).toNat + (xl.view b).toNat : Nat) :=
  lift2_of_toNat (by rw [aluCore, BitVec.toNat_add, Xlen.unsigned_natCast])

theorem alu_sub (xl : Xlen) (a b : Word) : alu xl .sub a b = xl.residue ((xl.view a).toNat - (xl.view b).toNat : Int) :=
  lift2_of_toNat (by
    have := (xl.view a).isLt
    have := (xl.view b).isLt
    rw [aluCore, BitVec.toNat_sub, Xlen.unsigned]
    cases xl <;> simp only [Xlen.bits] at * <;> omega)

theorem alu_and (xl : Xlen) (a b : Word) : alu xl .and a b = xl.residue ((xl.view a).toNat &&& (xl.view b).toNat : Nat) :=
  lift2_of_toNat (by
    rw [aluCore, Xlen.unsigned_natCast, BitVec.toNat_and, Nat.mod_eq_of_lt (Nat.and_lt_two_pow _ (BitVec.isLt _))])

theorem alu_or (xl : Xlen) (a b : Word) : alu xl .or a b = xl.residue ((xl.view a).toNat ||| (xl.view b).toNat : Nat) :=
  lift2_of_toNat (by
    rw [aluCore, Xlen.unsigned_natCast, BitVec.toNat_or,
      Nat.mod_eq_of_lt (Nat.or_lt_two_pow (BitVec.isLt _) (BitVec.isLt _))])

theorem alu_xor (xl : Xlen) (a b : Word) : alu xl .xor a b = xl.residue ((xl.view a).toNat ^^^ (xl.view b).toNat : Nat) :=
  lift2_of_toNat (by
    rw [aluCore, Xlen.unsigned_natCast, BitVec.toNat_xor,
      Nat.mod_eq_of_lt (Nat.xor_lt_two_pow (BitVec.isLt _) (BitVec.isLt _))])

theorem alu_sll (xl : Xlen) (a b : Word) :
    alu xl .sll a b = xl.residue ((xl.view a).toNat * 2 ^ ((xl.view b).toNat % xl.bits) : Nat) :=
  lift2_of_toNat (by
    rw [aluCore, shiftAmount_eq, Xlen.unsigned_natCast, BitVec.toNat_shiftLeft, Nat.shiftLeft_eq])

theorem alu_srl (xl : Xlen) (a b : Word) :
    alu xl .srl a b = xl.residue ((xl.view a).toNat / 2 ^ ((xl.view b).toNat % xl.bits) : Nat) :=
  lift2_of_toNat (by
    rw [aluCore, shiftAmount_eq, Xlen.unsigned_natCast, BitVec.toNat_ushiftRight, Nat.shiftRight_eq_div_pow,
      Nat.mod_eq_of_lt (Nat.lt_of_le_of_lt (Nat.div_le_self _ _) (BitVec.isLt _))])

theorem alu_sra (xl : Xlen) (a b : Word) :
    alu xl .sra a b = xl.residue ((xl.view a).toInt / 2 ^ ((xl.view b).toNat % xl.bits)) := by
  refine Xlen.lift2_residue ?_
  rw [aluCore, shiftAmount_eq, BitVec.sshiftRight, Int.shiftRight_eq_div_pow]
  simp

/-- A one-bit comparison result as a word (R107). -/
theorem setWidth_bitToWord (xl : Xlen) (c : Bool) : (bitToWord c : BitVec xl.bits).setWidth 64 = if c then 1 else 0 := by
  cases xl <;> cases c <;> decide

theorem alu_slt (xl : Xlen) (a b : Word) : alu xl .slt a b = if (xl.view a).toInt < (xl.view b).toInt then 1 else 0 := by
  rw [alu, Xlen.lift2_eq, aluCore, setWidth_bitToWord]
  simp only [lessSigned, decide_eq_true_eq]

theorem alu_sltu (xl : Xlen) (a b : Word) : alu xl .sltu a b = if (xl.view a).toNat < (xl.view b).toNat then 1 else 0 := by
  rw [alu, Xlen.lift2_eq, aluCore, setWidth_bitToWord]
  simp only [lessUnsigned, decide_eq_true_eq]

/-! ### The `W` operations (R109), on a 64-bit hart -/

/-- A 32-bit result known as an integer, sign-extended. -/
theorem signExtend_ofInt (z : Int) : (BitVec.ofInt 32 z).signExtend 64 = wordResidue z := by
  rw [wordResidue, BitVec.signExtend, BitVec.toInt_ofInt]

theorem low32_toInt (a : Word) : (low32 a).toInt = signedReading 32 (a.toNat % 2 ^ 32) := by
  rw [toInt_eq_signedReading, low32, BitVec.toNat_setWidth]

theorem alu_addw (a b : Word) : alu .rv64 .addw a b = wordResidue (a.toNat + b.toNat : Nat) := by
  rw [← signExtend_ofInt]
  change (low32 (a + b)).signExtend 64 = _
  congr 1
  apply BitVec.eq_of_toNat_eq
  rw [low32, BitVec.toNat_setWidth, BitVec.toNat_add, BitVec.toNat_ofInt]
  omega

theorem alu_subw (a b : Word) : alu .rv64 .subw a b = wordResidue (a.toNat - b.toNat : Int) := by
  rw [← signExtend_ofInt]
  change (low32 (a - b)).signExtend 64 = _
  congr 1
  apply BitVec.eq_of_toNat_eq
  have := a.isLt
  have := b.isLt
  rw [low32, BitVec.toNat_setWidth, BitVec.toNat_sub, BitVec.toNat_ofInt]
  omega

theorem alu_sllw (a b : Word) : alu .rv64 .sllw a b = wordResidue (a.toNat % 2 ^ 32 * 2 ^ (b.toNat % 32) : Nat) := by
  rw [← signExtend_ofInt]
  change (low32 a <<< shiftAmountW b).signExtend 64 = _
  congr 1
  apply BitVec.eq_of_toNat_eq
  rw [shiftAmountW_eq, BitVec.toNat_shiftLeft, low32, BitVec.toNat_setWidth, BitVec.toNat_ofInt, Nat.shiftLeft_eq]
  norm_cast

theorem alu_srlw (a b : Word) : alu .rv64 .srlw a b = wordResidue (a.toNat % 2 ^ 32 / 2 ^ (b.toNat % 32) : Nat) := by
  rw [← signExtend_ofInt]
  change (low32 a >>> shiftAmountW b).signExtend 64 = _
  congr 1
  apply BitVec.eq_of_toNat_eq
  have h : a.toNat % 2 ^ 32 / 2 ^ (b.toNat % 32) < 2 ^ 32 :=
    Nat.lt_of_le_of_lt (Nat.div_le_self _ _) (Nat.mod_lt _ (by decide))
  rw [shiftAmountW_eq, BitVec.toNat_ushiftRight, low32, BitVec.toNat_setWidth, BitVec.toNat_ofInt, Nat.shiftRight_eq_div_pow]
  norm_cast
  rw [Nat.mod_eq_of_lt h]

theorem alu_sraw (a b : Word) :
    alu .rv64 .sraw a b = wordResidue (signedReading 32 (a.toNat % 2 ^ 32) / 2 ^ (b.toNat % 32)) := by
  rw [← signExtend_ofInt, ← low32_toInt]
  change ((low32 a).sshiftRight (shiftAmountW b)).signExtend 64 = _
  rw [shiftAmountW_eq, BitVec.sshiftRight, Int.shiftRight_eq_div_pow]
  norm_cast

/-! ### The multiply/divide unit (R211 to R223), at a width -/

theorem highHalf_eq (w : Nat) (z : Int) : highHalf w z = BitVec.ofInt w (z / 2 ^ w) := by
  apply BitVec.eq_of_toNat_eq
  have hm : (0 : Int) < 2 ^ w := by positivity
  have e : (z % (2 ^ w * 2 ^ w)) / 2 ^ w % 2 ^ w = z / 2 ^ w % 2 ^ w := by
    have h : z % (2 ^ w * 2 ^ w) = z + 2 ^ w * (-(2 ^ w * (z / (2 ^ w * 2 ^ w)))) := by rw [Int.emod_def]; ring
    rw [h, Int.add_mul_ediv_left _ _ (ne_of_gt hm), ← mul_neg, Int.add_mul_emod_self_left]
  have h0 : 0 ≤ z % (2 ^ w * 2 ^ w) := Int.emod_nonneg _ (by positivity)
  rw [highHalf, BitVec.extractLsb'_toNat, BitVec.toNat_ofInt, BitVec.toNat_ofInt, Nat.shiftRight_eq_div_pow]
  zify
  rw [Int.toNat_of_nonneg (Int.emod_nonneg _ (by positivity)), Int.toNat_of_nonneg (Int.emod_nonneg _ (by positivity)),
    show 2 * w = w + w by omega, pow_add, e]

theorem mul_eq {w : Nat} (a b : BitVec w) : mduCore .mul a b = BitVec.ofInt w (a.toNat * b.toNat : Nat) := by
  rw [mduCore, BitVec.ofInt_natCast]

theorem mulh_eq {w : Nat} (a b : BitVec w) : mduCore .mulh a b = BitVec.ofInt w (a.toInt * b.toInt / 2 ^ w) := highHalf_eq _ _

theorem mulhsu_eq {w : Nat} (a b : BitVec w) : mduCore .mulhsu a b = BitVec.ofInt w (a.toInt * b.toNat / 2 ^ w) := highHalf_eq _ _

theorem mulhu_eq {w : Nat} (a b : BitVec w) : mduCore .mulhu a b = BitVec.ofInt w (a.toNat * b.toNat / 2 ^ w) := highHalf_eq _ _

theorem eq_zero_iff_toNat {w : Nat} (b : BitVec w) : b = 0 ↔ b.toNat = 0 := by
  rw [BitVec.toNat_eq]; simp

theorem eq_intMin_iff_toInt {w : Nat} (hw : 0 < w) (a : BitVec w) : a = BitVec.intMin w ↔ a.toInt = -2 ^ (w - 1) := by
  rw [← BitVec.toInt_inj, BitVec.toInt_intMin_of_pos hw]

theorem allOnes_eq (w : Nat) : BitVec.allOnes w = BitVec.ofInt w (-1) := by
  rw [← BitVec.neg_one_eq_allOnes, BitVec.ofInt_neg]
  simp

theorem div_eq {w : Nat} (hw : 0 < w) (a b : BitVec w) :
    mduCore .div a b = BitVec.ofInt w (if b.toNat = 0 then -1
      else if a.toInt = -2 ^ (w - 1) ∧ b.toInt = -1 then a.toInt else a.toInt.tdiv b.toInt) := by
  rw [mduCore, divSigned]
  simp only [eq_zero_iff_toNat, eq_intMin_iff_toInt hw]
  split_ifs
  · exact allOnes_eq w
  · exact (BitVec.ofInt_toInt).symm
  · rfl

theorem divu_eq {w : Nat} (a b : BitVec w) :
    mduCore .divu a b = BitVec.ofInt w (if b.toNat = 0 then 2 ^ w - 1 else (a.toNat / b.toNat : Nat)) := by
  rw [mduCore, divUnsigned]
  simp only [eq_zero_iff_toNat]
  split_ifs
  · apply BitVec.eq_of_toNat_eq
    have e : ((2 : Int) ^ w - 1) = ((2 ^ w - 1 : Nat) : Int) := by
      have := Nat.one_le_two_pow (n := w)
      push_cast [this]
      rfl
    rw [e, BitVec.ofInt_natCast, BitVec.toNat_allOnes, BitVec.toNat_ofNat, Nat.mod_eq_of_lt (Nat.sub_lt (by positivity) (by decide))]
  · rw [BitVec.ofInt_natCast]

theorem rem_eq {w : Nat} (hw : 0 < w) (a b : BitVec w) :
    mduCore .rem a b = BitVec.ofInt w (if b.toNat = 0 then a.toInt
      else if a.toInt = -2 ^ (w - 1) ∧ b.toInt = -1 then 0 else a.toInt.tmod b.toInt) := by
  rw [mduCore, remSigned]
  simp only [eq_zero_iff_toNat, eq_intMin_iff_toInt hw]
  split_ifs
  · exact (BitVec.ofInt_toInt).symm
  · simp
  · rw [Int.tmod_def]

theorem remu_eq {w : Nat} (a b : BitVec w) :
    mduCore .remu a b = BitVec.ofInt w (if b.toNat = 0 then (a.toNat : Int) else (a.toNat % b.toNat : Nat)) := by
  rw [mduCore, remUnsigned]
  simp only [eq_zero_iff_toNat]
  split_ifs
  · rw [BitVec.ofInt_natCast, BitVec.ofNat_toNat, BitVec.setWidth_eq]
  · rw [BitVec.ofInt_natCast]

/-- The `W` result of a 32-bit result known as an integer (R219 to R223). -/
theorem mduW_of_eq {op : MduOp} {a b : Word} {z : Int} (h : mduCore op (low32 a) (low32 b) = BitVec.ofInt 32 z) :
    mduW .rv64 op a b = wordResidue z := by
  rw [← signExtend_ofInt, ← h]
  rfl

/-! ### Comparators (R173 to R178) -/

theorem condEq_iff (xl : Xlen) (a b : Word) : condEq xl a b = true ↔ (xl.view a).toNat = (xl.view b).toNat := by
  rw [condEq, Xlen.compare_eq, beq_iff_eq, BitVec.toNat_eq]

theorem condLt_iff (xl : Xlen) (a b : Word) : condLt xl a b = true ↔ (xl.view a).toInt < (xl.view b).toInt := by
  rw [condLt, Xlen.compare_eq, lessSigned, decide_eq_true_eq]

theorem condLtu_iff (xl : Xlen) (a b : Word) : condLtu xl a b = true ↔ (xl.view a).toNat < (xl.view b).toNat := by
  rw [condLtu, Xlen.compare_eq, lessUnsigned, decide_eq_true_eq]

end Sys2Proof.Machine
end

