-- ==== Sys2Proof/Laws/Encoding.lean ====
section
/-! SUPPORT. The laws of the encoding: the fields of an encoded word, the words under the masks of the opcode table, and the length
class of an encoded word. -/

set_option linter.unusedSimpArgs false

namespace Sys2Proof

/-! ### Bit fields as numbers -/

theorem append_toNat {v w : Nat} (a : BitVec v) (b : BitVec w) : (a ++ b).toNat = a.toNat * 2 ^ w + b.toNat := by
  rw [BitVec.toNat_append, Nat.shiftLeft_eq, Nat.mul_comm, Nat.two_pow_add_eq_or_of_lt b.isLt]

theorem extract_toNat {w : Nat} (a : BitVec w) (lo n : Nat) : (a.extractLsb' lo n).toNat = a.toNat / 2 ^ lo % 2 ^ n := by
  rw [BitVec.extractLsb'_toNat, Nat.shiftRight_eq_div_pow]

/-- A field of the high part of an append. -/
theorem extract_high {v w : Nat} (a : BitVec v) (b : BitVec w) {lo n : Nat} (h : w ≤ lo) :
    (a ++ b).extractLsb' lo n = a.extractLsb' (lo - w) n := BitVec.extractLsb'_append_eq_of_le h

/-- A field of the low part of an append. -/
theorem extract_low {v w : Nat} (a : BitVec v) (b : BitVec w) {lo n : Nat} (h : lo + n ≤ w) :
    (a ++ b).extractLsb' lo n = b.extractLsb' lo n := BitVec.extractLsb'_append_eq_of_add_le h

theorem extract_all {w : Nat} (a : BitVec w) : a.extractLsb' 0 w = a := BitVec.extractLsb'_eq_self

/-- A bit vector whose bit 0 is clear has an even value. -/
theorem even_of_getLsbD {w : Nat} {v : BitVec w} (h : v.getLsbD 0 = false) : v.toNat % 2 = 0 := by
  simpa [BitVec.getLsbD, Nat.testBit_zero] using h

/-- Clearing bit 0, as the `JALR` target does (R111). -/
theorem clear_bit_zero_toNat (a : Word) : (a &&& ~~~1#64).toNat = 2 * (a.toNat / 2) := by
  have hm : (~~~1#64 : Word) = BitVec.allOnes 63 ++ 0#1 := by decide
  have ha : a = a.extractLsb' 1 63 ++ a.extractLsb' 0 1 := by
    apply BitVec.eq_of_toNat_eq
    have := a.isLt
    simp only [append_toNat, extract_toNat]
    omega
  have e : a &&& ~~~1#64 = a.extractLsb' 1 63 ++ 0#1 := by
    rw [hm]
    conv => lhs; rw [ha]
    rw [BitVec.and_append, BitVec.and_allOnes, BitVec.and_zero]
  have := a.isLt
  rw [e, append_toNat, extract_toNat, BitVec.toNat_ofNat]
  omega

/-! ### The fields of an encoded word (R63 to R70) -/

@[simp] theorem primaryOf_encodeR (f7 : BitVec 7) (f3 : BitVec 3) (op : BitVec 7) (rd rs1 rs2 : RegIdx) :
    primaryOf (encodeR f7 f3 op rd rs1 rs2) = op := by
  unfold primaryOf encodeR
  simp (disch := omega) only [extract_high, extract_low, extract_all, Nat.sub_self, Nat.reduceSub]

@[simp] theorem funct3Of_encodeR (f7 : BitVec 7) (f3 : BitVec 3) (op : BitVec 7) (rd rs1 rs2 : RegIdx) :
    funct3Of (encodeR f7 f3 op rd rs1 rs2) = f3 := by
  unfold funct3Of encodeR
  simp (disch := omega) only [extract_high, extract_low, extract_all, Nat.sub_self, Nat.reduceSub]

@[simp] theorem funct7Of_encodeR (f7 : BitVec 7) (f3 : BitVec 3) (op : BitVec 7) (rd rs1 rs2 : RegIdx) :
    funct7Of (encodeR f7 f3 op rd rs1 rs2) = f7 := by
  unfold funct7Of encodeR
  simp (disch := omega) only [extract_high, extract_low, extract_all, Nat.sub_self, Nat.reduceSub]

@[simp] theorem rdOf_encodeR (f7 : BitVec 7) (f3 : BitVec 3) (op : BitVec 7) (rd rs1 rs2 : RegIdx) :
    rdOf (encodeR f7 f3 op rd rs1 rs2) = rd := by
  unfold rdOf encodeR
  simp (disch := omega) only [extract_high, extract_low, extract_all, Nat.sub_self, Nat.reduceSub]

@[simp] theorem rs1Of_encodeR (f7 : BitVec 7) (f3 : BitVec 3) (op : BitVec 7) (rd rs1 rs2 : RegIdx) :
    rs1Of (encodeR f7 f3 op rd rs1 rs2) = rs1 := by
  unfold rs1Of encodeR
  simp (disch := omega) only [extract_high, extract_low, extract_all, Nat.sub_self, Nat.reduceSub]

@[simp] theorem rs2Of_encodeR (f7 : BitVec 7) (f3 : BitVec 3) (op : BitVec 7) (rd rs1 rs2 : RegIdx) :
    rs2Of (encodeR f7 f3 op rd rs1 rs2) = rs2 := by
  unfold rs2Of encodeR
  simp (disch := omega) only [extract_high, extract_low, extract_all, Nat.sub_self, Nat.reduceSub]

@[simp] theorem primaryOf_encodeI (f3 : BitVec 3) (op : BitVec 7) (rd rs1 : RegIdx) (imm : BitVec 12) :
    primaryOf (encodeI f3 op rd rs1 imm) = op := by
  unfold primaryOf encodeI
  simp (disch := omega) only [extract_high, extract_low, extract_all, Nat.sub_self, Nat.reduceSub]

@[simp] theorem funct3Of_encodeI (f3 : BitVec 3) (op : BitVec 7) (rd rs1 : RegIdx) (imm : BitVec 12) :
    funct3Of (encodeI f3 op rd rs1 imm) = f3 := by
  unfold funct3Of encodeI
  simp (disch := omega) only [extract_high, extract_low, extract_all, Nat.sub_self, Nat.reduceSub]

@[simp] theorem rdOf_encodeI (f3 : BitVec 3) (op : BitVec 7) (rd rs1 : RegIdx) (imm : BitVec 12) :
    rdOf (encodeI f3 op rd rs1 imm) = rd := by
  unfold rdOf encodeI
  simp (disch := omega) only [extract_high, extract_low, extract_all, Nat.sub_self, Nat.reduceSub]

@[simp] theorem rs1Of_encodeI (f3 : BitVec 3) (op : BitVec 7) (rd rs1 : RegIdx) (imm : BitVec 12) :
    rs1Of (encodeI f3 op rd rs1 imm) = rs1 := by
  unfold rs1Of encodeI
  simp (disch := omega) only [extract_high, extract_low, extract_all, Nat.sub_self, Nat.reduceSub]

@[simp] theorem immIOf_encodeI (f3 : BitVec 3) (op : BitVec 7) (rd rs1 : RegIdx) (imm : BitVec 12) :
    immIOf (encodeI f3 op rd rs1 imm) = imm := by
  unfold immIOf encodeI
  simp (disch := omega) only [extract_high, extract_low, extract_all, Nat.sub_self, Nat.reduceSub]

@[simp] theorem primaryOf_encodeS (f3 : BitVec 3) (op : BitVec 7) (rs1 rs2 : RegIdx) (imm : BitVec 12) :
    primaryOf (encodeS f3 op rs1 rs2 imm) = op := by
  unfold primaryOf encodeS
  simp (disch := omega) only [extract_high, extract_low, extract_all, Nat.sub_self, Nat.reduceSub]

@[simp] theorem funct3Of_encodeS (f3 : BitVec 3) (op : BitVec 7) (rs1 rs2 : RegIdx) (imm : BitVec 12) :
    funct3Of (encodeS f3 op rs1 rs2 imm) = f3 := by
  unfold funct3Of encodeS
  simp (disch := omega) only [extract_high, extract_low, extract_all, Nat.sub_self, Nat.reduceSub]

@[simp] theorem rs1Of_encodeS (f3 : BitVec 3) (op : BitVec 7) (rs1 rs2 : RegIdx) (imm : BitVec 12) :
    rs1Of (encodeS f3 op rs1 rs2 imm) = rs1 := by
  unfold rs1Of encodeS
  simp (disch := omega) only [extract_high, extract_low, extract_all, Nat.sub_self, Nat.reduceSub]

@[simp] theorem rs2Of_encodeS (f3 : BitVec 3) (op : BitVec 7) (rs1 rs2 : RegIdx) (imm : BitVec 12) :
    rs2Of (encodeS f3 op rs1 rs2 imm) = rs2 := by
  unfold rs2Of encodeS
  simp (disch := omega) only [extract_high, extract_low, extract_all, Nat.sub_self, Nat.reduceSub]

@[simp] theorem primaryOf_encodeB (f3 : BitVec 3) (op : BitVec 7) (rs1 rs2 : RegIdx) (imm : BitVec 13) :
    primaryOf (encodeB f3 op rs1 rs2 imm) = op := by
  unfold primaryOf encodeB
  simp (disch := omega) only [extract_high, extract_low, extract_all, Nat.sub_self, Nat.reduceSub]

@[simp] theorem funct3Of_encodeB (f3 : BitVec 3) (op : BitVec 7) (rs1 rs2 : RegIdx) (imm : BitVec 13) :
    funct3Of (encodeB f3 op rs1 rs2 imm) = f3 := by
  unfold funct3Of encodeB
  simp (disch := omega) only [extract_high, extract_low, extract_all, Nat.sub_self, Nat.reduceSub]

@[simp] theorem rs1Of_encodeB (f3 : BitVec 3) (op : BitVec 7) (rs1 rs2 : RegIdx) (imm : BitVec 13) :
    rs1Of (encodeB f3 op rs1 rs2 imm) = rs1 := by
  unfold rs1Of encodeB
  simp (disch := omega) only [extract_high, extract_low, extract_all, Nat.sub_self, Nat.reduceSub]

@[simp] theorem rs2Of_encodeB (f3 : BitVec 3) (op : BitVec 7) (rs1 rs2 : RegIdx) (imm : BitVec 13) :
    rs2Of (encodeB f3 op rs1 rs2 imm) = rs2 := by
  unfold rs2Of encodeB
  simp (disch := omega) only [extract_high, extract_low, extract_all, Nat.sub_self, Nat.reduceSub]

@[simp] theorem primaryOf_encodeU (op : BitVec 7) (rd : RegIdx) (imm : BitVec 20) :
    primaryOf (encodeU op rd imm) = op := by
  unfold primaryOf encodeU
  simp (disch := omega) only [extract_high, extract_low, extract_all, Nat.sub_self, Nat.reduceSub]

@[simp] theorem rdOf_encodeU (op : BitVec 7) (rd : RegIdx) (imm : BitVec 20) :
    rdOf (encodeU op rd imm) = rd := by
  unfold rdOf encodeU
  simp (disch := omega) only [extract_high, extract_low, extract_all, Nat.sub_self, Nat.reduceSub]

@[simp] theorem immUOf_encodeU (op : BitVec 7) (rd : RegIdx) (imm : BitVec 20) :
    immUOf (encodeU op rd imm) = imm := by
  unfold immUOf encodeU
  simp (disch := omega) only [extract_high, extract_low, extract_all, Nat.sub_self, Nat.reduceSub]

@[simp] theorem primaryOf_encodeJ (op : BitVec 7) (rd : RegIdx) (imm : BitVec 21) :
    primaryOf (encodeJ op rd imm) = op := by
  unfold primaryOf encodeJ
  simp (disch := omega) only [extract_high, extract_low, extract_all, Nat.sub_self, Nat.reduceSub]

@[simp] theorem rdOf_encodeJ (op : BitVec 7) (rd : RegIdx) (imm : BitVec 21) :
    rdOf (encodeJ op rd imm) = rd := by
  unfold rdOf encodeJ
  simp (disch := omega) only [extract_high, extract_low, extract_all, Nat.sub_self, Nat.reduceSub]

@[simp] theorem immSOf_encodeS (f3 : BitVec 3) (op : BitVec 7) (rs1 rs2 : RegIdx) (imm : BitVec 12) :
    immSOf (encodeS f3 op rs1 rs2 imm) = imm := by
  unfold immSOf encodeS
  simp (disch := omega) only [extract_high, extract_low, extract_all, Nat.sub_self, Nat.reduceSub]
  apply BitVec.eq_of_toNat_eq
  have := imm.isLt
  simp only [append_toNat, extract_toNat]
  omega

theorem immBOf_encodeB (f3 : BitVec 3) (op : BitVec 7) (rs1 rs2 : RegIdx) {imm : BitVec 13} (h : imm.getLsbD 0 = false) :
    immBOf (encodeB f3 op rs1 rs2 imm) = imm := by
  have := even_of_getLsbD h
  unfold immBOf encodeB
  simp (disch := omega) only [extract_high, extract_low, extract_all, Nat.sub_self, Nat.reduceSub]
  apply BitVec.eq_of_toNat_eq
  have := imm.isLt
  simp only [append_toNat, extract_toNat, BitVec.toNat_ofNat]
  omega

theorem immJOf_encodeJ (op : BitVec 7) (rd : RegIdx) {imm : BitVec 21} (h : imm.getLsbD 0 = false) :
    immJOf (encodeJ op rd imm) = imm := by
  have := even_of_getLsbD h
  unfold immJOf encodeJ
  simp (disch := omega) only [extract_high, extract_low, extract_all, Nat.sub_self, Nat.reduceSub]
  apply BitVec.eq_of_toNat_eq
  have := imm.isLt
  simp only [append_toNat, extract_toNat, BitVec.toNat_ofNat]
  omega

/-! Shift-immediates: the immediate field is an upper field and a shift amount (R74, R79, R82). -/

@[simp] theorem funct6Of_encodeI (f3 : BitVec 3) (op : BitVec 7) (rd rs1 : RegIdx) (upper shamt : BitVec 6) :
    funct6Of (encodeI f3 op rd rs1 (upper ++ shamt)) = upper := by
  unfold funct6Of encodeI
  simp (disch := omega) only [extract_high, extract_low, extract_all, Nat.sub_self, Nat.reduceSub]

@[simp] theorem shamt6Of_encodeI (f3 : BitVec 3) (op : BitVec 7) (rd rs1 : RegIdx) (upper shamt : BitVec 6) :
    shamt6Of (encodeI f3 op rd rs1 (upper ++ shamt)) = shamt := by
  unfold shamt6Of encodeI
  simp (disch := omega) only [extract_high, extract_low, extract_all, Nat.sub_self, Nat.reduceSub]

@[simp] theorem funct7Of_encodeI (f3 : BitVec 3) (op : BitVec 7) (rd rs1 : RegIdx) (upper : BitVec 7) (shamt : BitVec 5) :
    funct7Of (encodeI f3 op rd rs1 (upper ++ shamt)) = upper := by
  unfold funct7Of encodeI
  simp (disch := omega) only [extract_high, extract_low, extract_all, Nat.sub_self, Nat.reduceSub]

@[simp] theorem shamt5Of_encodeI (f3 : BitVec 3) (op : BitVec 7) (rd rs1 : RegIdx) (upper : BitVec 7) (shamt : BitVec 5) :
    shamt5Of (encodeI f3 op rd rs1 (upper ++ shamt)) = shamt := by
  unfold shamt5Of encodeI
  simp (disch := omega) only [extract_high, extract_low, extract_all, Nat.sub_self, Nat.reduceSub]

/-! ### The words of the decoder's fields: no bit is dropped -/

theorem encodeR_of_fields (w : Opcode) :
    encodeR (funct7Of w) (funct3Of w) (primaryOf w) (rdOf w) (rs1Of w) (rs2Of w) = w := by
  apply BitVec.eq_of_toNat_eq
  have := w.isLt
  simp only [encodeR, funct7Of, funct3Of, primaryOf, rdOf, rs1Of, rs2Of, append_toNat, extract_toNat]
  omega

theorem encodeI_of_fields (w : Opcode) :
    encodeI (funct3Of w) (primaryOf w) (rdOf w) (rs1Of w) (immIOf w) = w := by
  apply BitVec.eq_of_toNat_eq
  have := w.isLt
  simp only [encodeI, funct3Of, primaryOf, rdOf, rs1Of, immIOf, append_toNat, extract_toNat]
  omega

theorem encodeS_of_fields (w : Opcode) :
    encodeS (funct3Of w) (primaryOf w) (rs1Of w) (rs2Of w) (immSOf w) = w := by
  unfold immSOf encodeS
  simp (disch := omega) only [extract_high, extract_low, extract_all, Nat.sub_self, Nat.reduceSub]
  apply BitVec.eq_of_toNat_eq
  have := w.isLt
  simp only [funct3Of, primaryOf, rs1Of, rs2Of, append_toNat, extract_toNat]
  omega

theorem encodeB_of_fields (w : Opcode) :
    encodeB (funct3Of w) (primaryOf w) (rs1Of w) (rs2Of w) (immBOf w) = w := by
  unfold immBOf encodeB
  simp (disch := omega) only [extract_high, extract_low, extract_all, Nat.sub_self, Nat.reduceSub]
  apply BitVec.eq_of_toNat_eq
  have := w.isLt
  simp only [funct3Of, primaryOf, rs1Of, rs2Of, append_toNat, extract_toNat]
  omega

theorem encodeU_of_fields (w : Opcode) :
    encodeU (primaryOf w) (rdOf w) (immUOf w) = w := by
  apply BitVec.eq_of_toNat_eq
  have := w.isLt
  simp only [encodeU, primaryOf, rdOf, immUOf, append_toNat, extract_toNat]
  omega

theorem encodeJ_of_fields (w : Opcode) :
    encodeJ (primaryOf w) (rdOf w) (immJOf w) = w := by
  unfold immJOf encodeJ
  simp (disch := omega) only [extract_high, extract_low, extract_all, Nat.sub_self, Nat.reduceSub]
  apply BitVec.eq_of_toNat_eq
  have := w.isLt
  simp only [primaryOf, rdOf, append_toNat, extract_toNat]
  omega

theorem funct6_shamt6 (w : Opcode) : funct6Of w ++ shamt6Of w = immIOf w := by
  apply BitVec.eq_of_toNat_eq
  have := w.isLt
  simp only [funct6Of, shamt6Of, immIOf, append_toNat, extract_toNat]
  omega

theorem funct7_shamt5 (w : Opcode) : funct7Of w ++ shamt5Of w = immIOf w := by
  apply BitVec.eq_of_toNat_eq
  have := w.isLt
  simp only [funct7Of, shamt5Of, immIOf, append_toNat, extract_toNat]
  omega

/-! ### Words under the masks of the opcode table -/

theorem encodeR_masked (f7 : BitVec 7) (f3 : BitVec 3) (op : BitVec 7) (rd rs1 rs2 : RegIdx) :
    encodeR f7 f3 op rd rs1 rs2 &&& 0xFE00707F#32 = f7 ++ 0#5 ++ 0#5 ++ f3 ++ 0#5 ++ op := by
  have h : (0xFE00707F#32 : Opcode) = BitVec.allOnes 7 ++ 0#5 ++ 0#5 ++ BitVec.allOnes 3 ++ 0#5 ++ BitVec.allOnes 7 := by decide
  rw [h, encodeR, BitVec.and_append, BitVec.and_append, BitVec.and_append, BitVec.and_append, BitVec.and_append]
  simp only [BitVec.and_zero, BitVec.and_allOnes]

theorem encodeI_masked (f3 : BitVec 3) (op : BitVec 7) (rd rs1 : RegIdx) (imm : BitVec 12) :
    encodeI f3 op rd rs1 imm &&& 0x0000707F#32 = 0#12 ++ 0#5 ++ f3 ++ 0#5 ++ op := by
  have h : (0x0000707F#32 : Opcode) = 0#12 ++ 0#5 ++ BitVec.allOnes 3 ++ 0#5 ++ BitVec.allOnes 7 := by decide
  rw [h, encodeI, BitVec.and_append, BitVec.and_append, BitVec.and_append, BitVec.and_append]
  simp only [BitVec.and_zero, BitVec.and_allOnes]

theorem encodeS_masked (f3 : BitVec 3) (op : BitVec 7) (rs1 rs2 : RegIdx) (imm : BitVec 12) :
    encodeS f3 op rs1 rs2 imm &&& 0x0000707F#32 = 0#7 ++ 0#5 ++ 0#5 ++ f3 ++ 0#5 ++ op := by
  have h : (0x0000707F#32 : Opcode) = 0#7 ++ 0#5 ++ 0#5 ++ BitVec.allOnes 3 ++ 0#5 ++ BitVec.allOnes 7 := by decide
  rw [h, encodeS, BitVec.and_append, BitVec.and_append, BitVec.and_append, BitVec.and_append, BitVec.and_append]
  simp only [BitVec.and_zero, BitVec.and_allOnes]

theorem encodeB_masked (f3 : BitVec 3) (op : BitVec 7) (rs1 rs2 : RegIdx) (imm : BitVec 13) :
    encodeB f3 op rs1 rs2 imm &&& 0x0000707F#32 = 0#1 ++ 0#6 ++ 0#5 ++ 0#5 ++ f3 ++ 0#4 ++ 0#1 ++ op := by
  have h : (0x0000707F#32 : Opcode) = 0#1 ++ 0#6 ++ 0#5 ++ 0#5 ++ BitVec.allOnes 3 ++ 0#4 ++ 0#1 ++ BitVec.allOnes 7 := by decide
  rw [h, encodeB, BitVec.and_append, BitVec.and_append, BitVec.and_append, BitVec.and_append, BitVec.and_append, BitVec.and_append, BitVec.and_append]
  simp only [BitVec.and_zero, BitVec.and_allOnes]

theorem encodeU_masked (op : BitVec 7) (rd : RegIdx) (imm : BitVec 20) :
    encodeU op rd imm &&& 0x0000007F#32 = 0#20 ++ 0#5 ++ op := by
  have h : (0x0000007F#32 : Opcode) = 0#20 ++ 0#5 ++ BitVec.allOnes 7 := by decide
  rw [h, encodeU, BitVec.and_append, BitVec.and_append]
  simp only [BitVec.and_zero, BitVec.and_allOnes]

theorem encodeJ_masked (op : BitVec 7) (rd : RegIdx) (imm : BitVec 21) :
    encodeJ op rd imm &&& 0x0000007F#32 = 0#1 ++ 0#10 ++ 0#1 ++ 0#8 ++ 0#5 ++ op := by
  have h : (0x0000007F#32 : Opcode) = 0#1 ++ 0#10 ++ 0#1 ++ 0#8 ++ 0#5 ++ BitVec.allOnes 7 := by decide
  rw [h, encodeJ, BitVec.and_append, BitVec.and_append, BitVec.and_append, BitVec.and_append, BitVec.and_append]
  simp only [BitVec.and_zero, BitVec.and_allOnes]

theorem encodeI_masked_shamt5 (f3 : BitVec 3) (op : BitVec 7) (rd rs1 : RegIdx) (upper : BitVec 7) (shamt : BitVec 5) :
    encodeI f3 op rd rs1 (upper ++ shamt) &&& 0xFE00707F#32 = (upper ++ 0#5) ++ 0#5 ++ f3 ++ 0#5 ++ op := by
  have h : (0xFE00707F#32 : Opcode) = (BitVec.allOnes 7 ++ 0#5) ++ 0#5 ++ BitVec.allOnes 3 ++ 0#5 ++ BitVec.allOnes 7 := by decide
  rw [h, encodeI, BitVec.and_append, BitVec.and_append, BitVec.and_append, BitVec.and_append, BitVec.and_append]
  simp only [BitVec.and_zero, BitVec.and_allOnes]

theorem encodeI_masked_shamt6 (f3 : BitVec 3) (op : BitVec 7) (rd rs1 : RegIdx) (upper shamt : BitVec 6) :
    encodeI f3 op rd rs1 (upper ++ shamt) &&& 0xFC00707F#32 = (upper ++ 0#6) ++ 0#5 ++ f3 ++ 0#5 ++ op := by
  have h : (0xFC00707F#32 : Opcode) = (BitVec.allOnes 6 ++ 0#6) ++ 0#5 ++ BitVec.allOnes 3 ++ 0#5 ++ BitVec.allOnes 7 := by decide
  rw [h, encodeI, BitVec.and_append, BitVec.and_append, BitVec.and_append, BitVec.and_append, BitVec.and_append]
  simp only [BitVec.and_zero, BitVec.and_allOnes]

/-! ### The length class -/

/-- The length class is that of the primary opcode where it ends in `11` with bits 4 to 2 not all set (R61). -/
theorem opcodeLength_of_primary {w : Opcode} {p : BitVec 7} (h : primaryOf w = p)
    (hp : p.extractLsb' 0 2 = 0b11#2 ∧ p.extractLsb' 2 3 ≠ 0b111#3) : opcodeLength w = 4 := by
  subst h
  have e0 : (w.extractLsb' 0 16).extractLsb' 0 2 = (primaryOf w).extractLsb' 0 2 := by
    apply BitVec.eq_of_toNat_eq
    simp only [primaryOf, extract_toNat]
    omega
  have e1 : (w.extractLsb' 0 16).extractLsb' 2 3 = (primaryOf w).extractLsb' 2 3 := by
    apply BitVec.eq_of_toNat_eq
    simp only [primaryOf, extract_toNat]
    omega
  rw [opcodeLength, ilen, e0, e1, if_neg (by simp [hp.1]), if_pos hp.2]

end Sys2Proof
end

