-- ==== Sys2Proof/Laws/Memory.lean ====
section
/-! SUPPORT. The laws of memory: reads after writes, the canonical form, and the frame of a multi-byte access. -/

namespace Sys2Proof.Machine

/-! ### One byte -/

theorem readByte_insert (m : Memory) (a : Nat) (v : Byte) (b : Nat) :
    Memory.readByte (Memory.insert m a v) b = if b = a then v else Memory.readByte m b := by
  induction m with
  | nil => simp only [Memory.insert, Memory.readByte]; split <;> split <;> first | rfl | omega
  | cons c m ih =>
    obtain ⟨c, w⟩ := c
    simp only [Memory.insert]
    split
    · simp only [Memory.readByte]; grind
    · split
      · simp only [Memory.readByte]; grind
      · simp only [Memory.readByte, ih]; grind

theorem readByte_filter (m : Memory) (a b : Nat) :
    Memory.readByte (m.filter (fun c => c.1 != a)) b = if b = a then unlistedByte else Memory.readByte m b := by
  induction m with
  | nil => simp [Memory.readByte]
  | cons c m ih =>
    obtain ⟨c, w⟩ := c
    simp only [List.filter]
    by_cases h : c = a
    · simp only [h, bne_self_eq_false, ih, Memory.readByte]; grind
    · simp only [show (c != a) = true by simpa using h, Memory.readByte, ih]; grind

/-- Read after write, at any address and in any memory. -/
@[simp] theorem readByte_writeByte (m : Memory) (a : Nat) (v : Byte) (b : Nat) :
    Memory.readByte (Memory.writeByte m a v) b = if b = a then v else Memory.readByte m b := by
  unfold Memory.writeByte
  split
  · next h => rw [readByte_filter, h]
  · exact readByte_insert m a v b

/-! ### The canonical form -/

/-- The canonical form as a statement about the list: addresses strictly rise and no entry is what an unlisted byte reads as. -/
theorem wf_iff (m : Memory) :
    Memory.wf m = true ↔ m.Pairwise (fun c d => c.1 < d.1) ∧ ∀ c ∈ m, c.2 ≠ unlistedByte := by
  induction m with
  | nil => simp [Memory.wf]
  | cons c m ih =>
    obtain ⟨a, v⟩ := c
    cases m with
    | nil => simp [Memory.wf]
    | cons d m =>
      obtain ⟨b, w⟩ := d
      simp only [Memory.wf, Bool.and_eq_true, bne_iff_ne, ne_eq, decide_eq_true_eq, ih, List.pairwise_cons]
      constructor
      · rintro ⟨⟨hv, hab⟩, ⟨hb, hm⟩, hne⟩
        refine ⟨⟨?_, hb, hm⟩, ?_⟩
        · intro c hc
          rcases List.mem_cons.1 hc with rfl | hc
          · exact hab
          · exact Nat.lt_trans hab (hb c hc)
        · intro c hc
          rcases List.mem_cons.1 hc with rfl | hc
          · exact hv
          · exact hne c hc
      · rintro ⟨⟨ha, hb, hm⟩, hne⟩
        exact ⟨⟨hne _ List.mem_cons_self, ha _ List.mem_cons_self⟩, ⟨hb, hm⟩, fun c hc => hne c (List.mem_cons_of_mem _ hc)⟩

theorem mem_insert {m : Memory} {a : Nat} {v : Byte} {c : Host.Cell} (h : c ∈ Memory.insert m a v) :
    c = (a, v) ∨ c ∈ m := by
  induction m with
  | nil => simpa [Memory.insert] using h
  | cons d m ih =>
    obtain ⟨b, w⟩ := d
    simp only [Memory.insert] at h
    split at h
    · rcases List.mem_cons.1 h with h | h
      · exact .inl h
      · exact .inr h
    · split at h
      · rcases List.mem_cons.1 h with h | h
        · exact .inl h
        · exact .inr (List.mem_cons_of_mem _ h)
      · rcases List.mem_cons.1 h with h | h
        · exact .inr (h ▸ List.mem_cons_self)
        · rcases ih h with h | h
          · exact .inl h
          · exact .inr (List.mem_cons_of_mem _ h)

theorem pairwise_insert {m : Memory} (h : m.Pairwise (fun c d => c.1 < d.1)) (a : Nat) (v : Byte) :
    (Memory.insert m a v).Pairwise (fun c d => c.1 < d.1) := by
  induction m with
  | nil => simp [Memory.insert]
  | cons d m ih =>
    obtain ⟨b, w⟩ := d
    obtain ⟨hb, hm⟩ := List.pairwise_cons.1 h
    simp only [Memory.insert]
    split
    · next hab =>
      refine List.pairwise_cons.2 ⟨?_, h⟩
      intro c hc
      rcases List.mem_cons.1 hc with rfl | hc
      · exact hab
      · exact Nat.lt_trans hab (hb c hc)
    · split
      · next hab => exact List.pairwise_cons.2 ⟨fun c hc => hab ▸ hb c hc, hm⟩
      · next h1 h2 =>
        refine List.pairwise_cons.2 ⟨?_, ih hm⟩
        intro c hc
        rcases mem_insert hc with rfl | hc
        · exact Nat.lt_of_le_of_ne (Nat.le_of_not_lt h1) (Ne.symm h2)
        · exact hb c hc

/-- A write keeps the canonical form. -/
theorem wf_writeByte {m : Memory} (h : Memory.wf m = true) (a : Nat) (v : Byte) :
    Memory.wf (Memory.writeByte m a v) = true := by
  rw [wf_iff] at h ⊢
  unfold Memory.writeByte
  split
  · exact ⟨h.1.filter _, fun c hc => h.2 c (List.mem_of_mem_filter hc)⟩
  · next hv =>
    refine ⟨pairwise_insert h.1 a v, fun c hc => ?_⟩
    rcases mem_insert hc with rfl | hc
    · exact hv
    · exact h.2 c hc

/-- A write lists no address but its own and those listed before. -/
theorem writeByte_fits {m : Memory} {bound a : Nat} (h : ∀ c ∈ m, c.1 < bound) (ha : a < bound) (v : Byte) :
    ∀ c ∈ Memory.writeByte m a v, c.1 < bound := by
  intro c hc
  unfold Memory.writeByte at hc
  split at hc
  · exact h c (List.mem_of_mem_filter hc)
  · rcases mem_insert hc with rfl | hc
    · exact ha
    · exact h c hc

/-! ### Accesses of several bytes -/

/-- An access lies in the address space (R49). -/
theorem byteAddress_lt (xl : Xlen) (a : Word) (k : Nat) : byteAddress xl a k < 2 ^ xl.bits := by
  cases xl <;> simp only [byteAddress, Xlen.add, Xlen.trunc, Xlen.bits]
  · rw [BitVec.toNat_setWidth, BitVec.toNat_setWidth]
    exact Nat.lt_of_le_of_lt (Nat.mod_le _ _) (Nat.mod_lt _ (by decide))
  · exact BitVec.isLt _

/-- The address of byte `k` of an access, as an integer's residue (R49). -/
theorem byteAddress_eq (s : State) (a : Word) {k : Nat} (hk : k < 2 ^ 64) : byteAddress s.xlen a k = s.address (a.toNat + k) := by
  rw [byteAddress, Xlen.add_eq, Xlen.residue_toNat, State.address]
  congr 2
  rw [BitVec.toNat_ofNat, Nat.mod_eq_of_lt hk]

/-- The byte addresses of one access are pairwise different: an access is shorter than the address space. -/
theorem byteAddress_inj {xl : Xlen} {a : Word} {j k : Nat} (hj : j < 2 ^ 32) (hk : k < 2 ^ 32)
    (h : byteAddress xl a j = byteAddress xl a k) : j = k := by
  cases xl <;> simp only [byteAddress, Xlen.add, Xlen.trunc, BitVec.toNat_setWidth, BitVec.toNat_add,
    BitVec.toNat_ofNat] at h <;> omega

theorem wf_writeFrom {xl : Xlen} {m : Memory} (h : Memory.wf m = true) (a v : Word) (k n : Nat) :
    Memory.wf (Memory.writeFrom xl m a v k n) = true := by
  induction n generalizing m v k with
  | zero => exact h
  | succ n ih => exact ih (wf_writeByte h _ _) _ _

theorem writeFrom_fits {xl : Xlen} {m : Memory} (h : ∀ c ∈ m, c.1 < 2 ^ xl.bits) (a v : Word) (k n : Nat) :
    ∀ c ∈ Memory.writeFrom xl m a v k n, c.1 < 2 ^ xl.bits := by
  induction n generalizing m v k with
  | zero => exact h
  | succ n ih => exact ih (writeByte_fits h (byteAddress_lt _ _ _) _) _ _

/-- The frame of a write: a byte at none of its addresses reads as before. -/
theorem readByte_writeFrom_of_ne {xl : Xlen} {m : Memory} {a v : Word} {b : Nat} {k n : Nat}
    (h : ∀ j, k ≤ j → j < k + n → b ≠ byteAddress xl a j) :
    Memory.readByte (Memory.writeFrom xl m a v k n) b = Memory.readByte m b := by
  induction n generalizing m v k with
  | zero => rfl
  | succ n ih =>
    rw [Memory.writeFrom, ih (fun j hj hj' => h j (by omega) (by omega)), readByte_writeByte,
      if_neg (h k (Nat.le_refl k) (by omega))]

/-- What a write leaves at each of its addresses: byte `j` of the value. -/
theorem readByte_writeFrom {xl : Xlen} {m : Memory} {a v : Word} {k n j : Nat} (hj : j < n) (hb : k + n ≤ 2 ^ 32) :
    Memory.readByte (Memory.writeFrom xl m a v k n) (byteAddress xl a (k + j)) = (v >>> (8 * j)).setWidth 8 := by
  induction n generalizing m v k j with
  | zero => omega
  | succ n ih =>
    rw [Memory.writeFrom]
    cases j with
    | zero =>
      rw [readByte_writeFrom_of_ne, readByte_writeByte]
      · simp
      · intro i hi hi' e
        have := byteAddress_inj (by omega) (by omega) e
        omega
    | succ j =>
      have := ih (m := Memory.writeByte m (byteAddress xl a k) (v.setWidth 8)) (v := v >>> 8) (k := k + 1) (j := j)
        (by omega) (by omega)
      rw [show k + (j + 1) = k + 1 + j by omega, this, ← BitVec.shiftRight_add]
      congr 2
      omega

/-- The value of a read: the first byte least significant (R45), and no more bits than bytes read. -/
theorem readFrom_toNat (xl : Xlen) (m : Memory) (a : Word) (k : Nat) {n : Nat} (hn : n < 8) :
    (Memory.readFrom xl m a k (n + 1)).toNat =
        (Memory.readByte m (byteAddress xl a k)).toNat + 256 * (Memory.readFrom xl m a (k + 1) n).toNat ∧
      (Memory.readFrom xl m a k (n + 1)).toNat < 2 ^ (8 * (n + 1)) := by
  induction n generalizing k with
  | zero => simp [Memory.readFrom]; omega
  | succ n ih =>
    have h1 := (ih (k + 1) (by omega)).2
    have hb := (Memory.readByte m (byteAddress xl a k)).isLt
    have hpow : 2 ^ (8 * (n + 1 + 1)) = 256 * 2 ^ (8 * (n + 1)) := by
      rw [show 8 * (n + 1 + 1) = 8 * (n + 1) + 8 by omega, Nat.pow_add]
      omega
    have hle : 2 ^ (8 * (n + 1 + 1)) ≤ 2 ^ 64 := Nat.pow_le_pow_right (by decide) (by omega)
    have key : (Memory.readFrom xl m a k (n + 1 + 1)).toNat =
        (Memory.readByte m (byteAddress xl a k)).toNat + 256 * (Memory.readFrom xl m a (k + 1) (n + 1)).toNat := by
      rw [Memory.readFrom, BitVec.toNat_or, BitVec.toNat_setWidth, BitVec.toNat_shiftLeft, Nat.mod_eq_of_lt (by omega),
        Nat.shiftLeft_eq, Nat.mod_eq_of_lt (by omega), show 2 ^ 8 = 256 by rfl, Nat.mul_comm _ 256, Nat.or_comm,
        ← Nat.two_pow_add_eq_or_of_lt (i := 8) hb]
      omega
    exact ⟨key, by omega⟩

/-- A read inside a write returns the bytes written (R43 to R45). -/
theorem readFrom_writeFrom (xl : Xlen) (m : Memory) (a v : Word) {n : Nat} (hn : n ≤ 8) (i k : Nat) (h : k + i ≤ n) :
    (Memory.readFrom xl (Memory.writeFrom xl m a v 0 n) a k i).toNat = v.toNat / 2 ^ (8 * k) % 2 ^ (8 * i) := by
  induction i generalizing k with
  | zero => simp [Memory.readFrom, Nat.mod_one]
  | succ i ih =>
    have hb := readByte_writeFrom (xl := xl) (m := m) (a := a) (v := v) (k := 0) (n := n) (j := k) (by omega) (by omega)
    rw [Nat.zero_add] at hb
    rw [(readFrom_toNat xl _ a k (by omega)).1, ih (k + 1) (by omega), hb, BitVec.toNat_setWidth, BitVec.toNat_ushiftRight,
      Nat.shiftRight_eq_div_pow, show 8 * (k + 1) = 8 * k + 8 by omega, show 8 * (i + 1) = 8 + 8 * i by omega, Nat.pow_add,
      Nat.pow_add, ← Nat.div_div_eq_div_mul, Nat.mod_mul]

end Sys2Proof.Machine
end

