-- ==== Sys2Proof/Laws/State.lean ====
section
/-! SUPPORT. One lemma per field per state update, so that no proof unfolds a record update; and the register file's read-after-write
law. -/

namespace Sys2Proof.Machine

@[simp] theorem State.wr_config (s : State) (rd : RegIdx) (v : Word) : (s.wr rd v).config = s.config := rfl

@[simp] theorem State.wr_xlen (s : State) (rd : RegIdx) (v : Word) : (s.wr rd v).xlen = s.xlen := rfl

theorem State.wr_x (s : State) (rd : RegIdx) (v : Word) : (s.wr rd v).x = if rd = 0 then s.x else s.x.set rd.toNat v := rfl

@[simp] theorem State.wr_pc (s : State) (rd : RegIdx) (v : Word) : (s.wr rd v).pc = s.pc := rfl

@[simp] theorem State.wr_inst (s : State) (rd : RegIdx) (v : Word) : (s.wr rd v).inst = s.inst := rfl

@[simp] theorem State.wr_mem (s : State) (rd : RegIdx) (v : Word) : (s.wr rd v).mem = s.mem := rfl

@[simp] theorem State.wr_calls (s : State) (rd : RegIdx) (v : Word) : (s.wr rd v).calls = s.calls := rfl

@[simp] theorem State.setPc_config (s : State) (a : Word) : (s.setPc a).config = s.config := rfl

@[simp] theorem State.setPc_xlen (s : State) (a : Word) : (s.setPc a).xlen = s.xlen := rfl

@[simp] theorem State.setPc_x (s : State) (a : Word) : (s.setPc a).x = s.x := rfl

@[simp] theorem State.setPc_pc (s : State) (a : Word) : (s.setPc a).pc = a := rfl

@[simp] theorem State.setPc_inst (s : State) (a : Word) : (s.setPc a).inst = s.inst := rfl

@[simp] theorem State.setPc_mem (s : State) (a : Word) : (s.setPc a).mem = s.mem := rfl

@[simp] theorem State.setPc_calls (s : State) (a : Word) : (s.setPc a).calls = s.calls := rfl

@[simp] theorem State.call_config (s : State) (c : EnvCall) : (s.call c).config = s.config := rfl

@[simp] theorem State.call_xlen (s : State) (c : EnvCall) : (s.call c).xlen = s.xlen := rfl

@[simp] theorem State.call_x (s : State) (c : EnvCall) : (s.call c).x = s.x := rfl

@[simp] theorem State.call_pc (s : State) (c : EnvCall) : (s.call c).pc = s.pc := rfl

@[simp] theorem State.call_inst (s : State) (c : EnvCall) : (s.call c).inst = s.inst := rfl

@[simp] theorem State.call_mem (s : State) (c : EnvCall) : (s.call c).mem = s.mem := rfl

@[simp] theorem State.call_calls (s : State) (c : EnvCall) : (s.call c).calls = c :: s.calls := rfl

@[simp] theorem State.latch_config (s : State) (d : InstRecord) : (s.latch d).config = s.config := rfl

@[simp] theorem State.latch_xlen (s : State) (d : InstRecord) : (s.latch d).xlen = s.xlen := rfl

@[simp] theorem State.latch_x (s : State) (d : InstRecord) : (s.latch d).x = s.x := rfl

@[simp] theorem State.latch_pc (s : State) (d : InstRecord) : (s.latch d).pc = s.xlen.add d.pc 4 := rfl

@[simp] theorem State.latch_inst (s : State) (d : InstRecord) : (s.latch d).inst = d := rfl

@[simp] theorem State.latch_mem (s : State) (d : InstRecord) : (s.latch d).mem = s.mem := rfl

@[simp] theorem State.latch_calls (s : State) (d : InstRecord) : (s.latch d).calls = s.calls := rfl

@[simp] theorem State.memWrite_config (s : State) (a : Word) (n : AccessSize) (v : Word) : (s.memWrite a n v).config = s.config := rfl

@[simp] theorem State.memWrite_xlen (s : State) (a : Word) (n : AccessSize) (v : Word) : (s.memWrite a n v).xlen = s.xlen := rfl

@[simp] theorem State.memWrite_x (s : State) (a : Word) (n : AccessSize) (v : Word) : (s.memWrite a n v).x = s.x := rfl

@[simp] theorem State.memWrite_pc (s : State) (a : Word) (n : AccessSize) (v : Word) : (s.memWrite a n v).pc = s.pc := rfl

@[simp] theorem State.memWrite_inst (s : State) (a : Word) (n : AccessSize) (v : Word) : (s.memWrite a n v).inst = s.inst := rfl

@[simp] theorem State.memWrite_mem (s : State) (a : Word) (n : AccessSize) (v : Word) : (s.memWrite a n v).mem = Memory.writeFrom s.xlen s.mem a v 0 n.bytes := rfl

@[simp] theorem State.memWrite_calls (s : State) (a : Word) (n : AccessSize) (v : Word) : (s.memWrite a n v).calls = .write a n (n.data v) :: s.calls := rfl

/-! ### Registers -/

/-- Reading a register after a gated write (R104, R105). -/
@[simp] theorem State.reg_wr (s : State) (rd : RegIdx) (v : Word) (r : RegIdx) :
    (s.wr rd v).reg r = if r = rd ∧ rd ≠ 0 then v else s.reg r := by
  by_cases h : rd = 0
  · have e : (s.wr rd v).x = s.x := if_pos h
    rw [if_neg (fun hr => hr.2 h)]
    simp only [State.reg, e]
  · have e : (s.wr rd v).x = s.x.set rd.toNat v := if_neg h
    simp only [State.reg, e, Vector.getElem_set, ne_eq, h, not_false_eq_true, and_true]
    by_cases hr : r = rd
    · rw [if_pos hr, if_pos (congrArg BitVec.toNat hr).symm]
    · rw [if_neg hr, if_neg (fun he => hr (BitVec.eq_of_toNat_eq he).symm)]

@[simp] theorem State.reg_setPc (s : State) (a : Word) (r : RegIdx) : (s.setPc a).reg r = s.reg r := rfl

@[simp] theorem State.reg_call (s : State) (c : EnvCall) (r : RegIdx) : (s.call c).reg r = s.reg r := rfl

@[simp] theorem State.reg_latch (s : State) (d : InstRecord) (r : RegIdx) : (s.latch d).reg r = s.reg r := rfl

@[simp] theorem State.reg_memWrite (s : State) (a : Word) (n : AccessSize) (v : Word) (r : RegIdx) : (s.memWrite a n v).reg r = s.reg r := rfl

/-- The zero register is never written (R105). -/
theorem State.reg_zero_wr (s : State) (rd : RegIdx) (v : Word) : (s.wr rd v).reg 0 = s.reg 0 := by
  rw [State.reg_wr, if_neg]
  rintro ⟨h, h'⟩
  exact h' h.symm

/-! ### Memory seen through reads -/

@[simp] theorem State.byte_wr (s : State) (rd : RegIdx) (v : Word) (b : Nat) : (s.wr rd v).byte b = s.byte b := rfl

@[simp] theorem State.memRead_wr (s : State) (rd : RegIdx) (v : Word) (b : Word) (m : AccessSize) : (s.wr rd v).memRead b m = s.memRead b m := rfl

@[simp] theorem State.byte_setPc (s : State) (a : Word) (b : Nat) : (s.setPc a).byte b = s.byte b := rfl

@[simp] theorem State.memRead_setPc (s : State) (a : Word) (b : Word) (m : AccessSize) : (s.setPc a).memRead b m = s.memRead b m := rfl

@[simp] theorem State.byte_call (s : State) (c : EnvCall) (b : Nat) : (s.call c).byte b = s.byte b := rfl

@[simp] theorem State.memRead_call (s : State) (c : EnvCall) (b : Word) (m : AccessSize) : (s.call c).memRead b m = s.memRead b m := rfl

@[simp] theorem State.byte_latch (s : State) (d : InstRecord) (b : Nat) : (s.latch d).byte b = s.byte b := rfl

@[simp] theorem State.memRead_latch (s : State) (d : InstRecord) (b : Word) (m : AccessSize) : (s.latch d).memRead b m = s.memRead b m := rfl

end Sys2Proof.Machine
end

