-- ==== Sys2Proof/Laws/Ops.lean ====
section
/-! SUPPORT. One lemma per shared operation that says everything it can do: issuing an instruction, the executors, `exec`, `step`. -/

namespace Sys2Proof.Machine

/-! ### Registers as integers -/

theorem view_reg_toNat (s : State) (r : RegIdx) : (s.xlen.view (s.reg r)).toNat = s.u r := Xlen.view_toNat ..

theorem view_reg_toInt (s : State) (r : RegIdx) : (s.xlen.view (s.reg r)).toInt = s.sg r := Xlen.view_toInt ..

theorem coe_u (s : State) (r : RegIdx) : (s.u r : Int) = (s.reg r).toNat % 2 ^ s.xlen.bits := by simp [State.u]

/-! ### Issuing -/

/-- Issuing an instruction whose group is enabled and whose registers exist runs its executor on the latched state. -/
theorem issue_of_runs {i : Instr} {e : State → Result} {s : State} (ht : tagEnabled s.config i.tag = true)
    (hx : indicesExist s.config.nregs (recordOf s.xlen s.pc i) = true) :
    issue i e s = e (s.latch (recordOf s.xlen s.pc i)) := by
  rw [issue, if_pos ht, if_pos hx]

/-- Issuing an instruction of a disabled group takes the illegal-instruction trap with the Empty record latched (R87, R203). -/
theorem issue_of_disabled {i : Instr} {e : State → Result} {s : State} (ht : tagEnabled s.config i.tag = false) :
    issue i e s = .next ((s.latch (fmtEmpty i.tag s.pc)).call (.trap .illegalInstruction)) := by
  rw [issue, if_neg (by simp [ht]), unknownExecutor, takeTrap]

/-- Issuing an enabled instruction with a register index that does not exist is refused (R21). -/
theorem issue_of_absent {i : Instr} {e : State → Result} {s : State} (ht : tagEnabled s.config i.tag = true)
    (hx : indicesExist s.config.nregs (recordOf s.xlen s.pc i) = false) : issue i e s = .refused .regIndex := by
  rw [issue, if_pos ht, if_neg (by simp [hx])]

/-- A register index does not exist exactly when `NREGS` = 16 and a field of the record is 16 or more (R21). -/
theorem indicesExist_eq_false {n : NRegs} {d : InstRecord} :
    indicesExist n d = false ↔ n = .r16 ∧ (16 ≤ d.rd.toNat ∨ 16 ≤ d.rs1.toNat ∨ 16 ≤ d.rs2.toNat) := by
  have := d.rd.isLt
  have := d.rs1.isLt
  have := d.rs2.isLt
  simp only [indicesExist, Bool.and_eq_false_iff, decide_eq_false_iff_not]
  cases n <;> simp only [NRegs.count] <;> grind

/-- A record whose indices are 0 or among existing registers passes the index check (R21). -/
theorem indicesExist_of_hasRegisters {s : State} {d : InstRecord} {rs : List RegIdx} (h : s.hasRegisters rs)
    (hd : d.rd = 0 ∨ d.rd ∈ rs) (h1 : d.rs1 = 0 ∨ d.rs1 ∈ rs) (h2 : d.rs2 = 0 ∨ d.rs2 ∈ rs) :
    indicesExist s.config.nregs d = true := by
  have h0 : ∀ r : RegIdx, r = 0 ∨ r ∈ rs → r.toNat < s.config.nregs.count := by
    rintro r (rfl | h')
    · cases s.config.nregs <;> decide
    · exact h r h'
  simp only [indicesExist, Bool.and_eq_true, decide_eq_true_eq]
  exact ⟨⟨h0 _ hd, h0 _ h1⟩, h0 _ h2⟩

/-- The pc after the advance is the next sequential instruction's address (R102). -/
theorem latch_recordOf_pc (s : State) (i : Instr) : (s.latch (recordOf s.xlen s.pc i)).pc = s.sequential := by
  have e : (recordOf s.xlen s.pc i).pc = s.pc := by cases i <;> rfl
  rw [State.latch_pc, e, Xlen.add_eq]
  rfl

/-! ### The alignment detector -/

/-- An address the detector accepts stays one when 4 is added (R112). -/
theorem add_four_aligned {c : Bool} {a : Word} (xl : Xlen) (h : misaligned c a = false) : misaligned c (xl.add a 4) = false := by
  have iff : ∀ b : Word, misaligned c b = false ↔ if c then b.toNat % 2 = 0 else b.toNat % 4 = 0 := by
    intro b
    cases c <;> simp [misaligned, BitVec.toNat_eq]
  have e : (a.toNat : Int) + (4 : Word).toNat = ((a.toNat + 4 : Nat) : Int) := by simp
  rw [iff] at h ⊢
  rw [Xlen.add_eq, Xlen.residue_toNat, e, Xlen.unsigned_natCast]
  cases c <;> cases xl <;> simp only [Xlen.bits] <;> simp at h ⊢ <;> omega

/-! ### What an executor can do -/

/-- Everything the executor of the instruction `i` can do to the latched state `s`. -/
inductive Executed (i : Instr) (s : State) : State → Prop
  | trap (k : TrapKind) : Executed i s (s.call (.trap k))
  | nothing : Executed i s s
  | write (v : Word) (fits : v.toNat < 2 ^ s.xlen.bits) : Executed i s (s.wr s.inst.rd v)
  | jump (a v : Word) (transfer : isTransfer i = true) (aligned : misaligned s.config.extC a = false)
      (afits : a.toNat < 2 ^ s.xlen.bits) (fits : v.toNat < 2 ^ s.xlen.bits) : Executed i s ((s.setPc a).wr s.inst.rd v)
  | branch (a : Word) (transfer : isTransfer i = true) (aligned : misaligned s.config.extC a = false)
      (afits : a.toNat < 2 ^ s.xlen.bits) : Executed i s (s.setPc a)
  | load (n : AccessSize) (v : Word) (size : loadSize i = some n) (fits : v.toNat < 2 ^ s.xlen.bits) :
      Executed i s ((s.call (.read (effectiveAddress s) n)).wr s.inst.rd v)
  | store (n : AccessSize) (size : storeSize i = some n) (aligned : misaligned s.config.extC (effectiveAddress s) = false) :
      Executed i s (s.memWrite (effectiveAddress s) n (s.reg s.inst.rs2))

theorem effectiveAddress_lt (s : State) : (effectiveAddress s).toNat < 2 ^ s.xlen.bits := s.xlen.trunc_lt _

theorem pcRelative_lt (s : State) : (pcRelative s).toNat < 2 ^ s.xlen.bits := s.xlen.trunc_lt _

theorem linkValue_lt (s : State) : (linkValue s).toNat < 2 ^ s.xlen.bits := s.xlen.trunc_lt _

theorem jalrTarget_lt (s : State) : (jalrTarget s).toNat < 2 ^ s.xlen.bits := by
  refine Nat.lt_of_le_of_lt ?_ (effectiveAddress_lt s)
  rw [jalrTarget, BitVec.toNat_and]
  exact Nat.and_le_left

theorem aluImmediate_executed (i : Instr) (op : AluOp) (s : State) : ∃ t, aluImmediate op s = .next t ∧ Executed i s t :=
  ⟨_, rfl, .write _ (s.xlen.lift2_lt _ _ _)⟩

theorem aluRegister_executed (i : Instr) (op : AluOp) (s : State) : ∃ t, aluRegister op s = .next t ∧ Executed i s t :=
  ⟨_, rfl, .write _ (s.xlen.lift2_lt _ _ _)⟩

theorem mulDiv_executed (i : Instr) (op : MduOp) (s : State) : ∃ t, mulDiv op s = .next t ∧ Executed i s t :=
  ⟨_, rfl, .write _ (s.xlen.lift2_lt _ _ _)⟩

theorem mulDivW_executed (i : Instr) (op : MduOp) (s : State) : ∃ t, mulDivW op s = .next t ∧ Executed i s t :=
  ⟨_, rfl, .write _ (s.xlen.trunc_lt _)⟩

theorem loadUpper_executed (i : Instr) {s : State} (h : s.inst.imm.toNat < 2 ^ s.xlen.bits) :
    ∃ t, loadUpper s = .next t ∧ Executed i s t := ⟨_, rfl, .write _ h⟩

theorem addUpperToPc_executed (i : Instr) (s : State) : ∃ t, addUpperToPc s = .next t ∧ Executed i s t :=
  ⟨_, rfl, .write _ (pcRelative_lt s)⟩

theorem takeTrap_executed (i : Instr) (k : TrapKind) (s : State) : ∃ t, takeTrap k s = .next t ∧ Executed i s t :=
  ⟨_, rfl, .trap k⟩

theorem fenceExecutor_executed (i : Instr) (s : State) : ∃ t, fenceExecutor s = .next t ∧ Executed i s t := ⟨_, rfl, .nothing⟩

theorem jumpTo_executed {i : Instr} (hi : isTransfer i = true) {a : Word} {s : State} (ha : a.toNat < 2 ^ s.xlen.bits) :
    ∃ t, jumpTo a s = .next t ∧ Executed i s t := by
  unfold jumpTo
  split
  · exact ⟨_, rfl, .trap _⟩
  · next h => exact ⟨_, rfl, .jump _ _ hi (by simpa using h) ha (linkValue_lt s)⟩

theorem branchOn_executed {i : Instr} (hi : isTransfer i = true) (cond : Xlen → Word → Word → Bool) (s : State) :
    ∃ t, branchOn cond s = .next t ∧ Executed i s t := by
  unfold branchOn
  split
  · split
    · exact ⟨_, rfl, .trap _⟩
    · next h => exact ⟨_, rfl, .branch _ hi (by simpa using h) (pcRelative_lt s)⟩
  · exact ⟨_, rfl, .nothing⟩

theorem loadFrom_executed {i : Instr} {n : AccessSize} (hn : loadSize i = some n)
    {ext : Xlen → AccessSize → Word → Word} {s : State} (he : ∀ v, (ext s.xlen n v).toNat < 2 ^ s.xlen.bits) :
    ∃ t, loadFrom n ext s = .next t ∧ Executed i s t := by
  unfold loadFrom
  split
  · exact ⟨_, rfl, .trap _⟩
  · split
    · exact ⟨_, rfl, .trap _⟩
    · exact ⟨_, rfl, .load _ _ hn (he _)⟩

theorem storeTo_executed {i : Instr} {n : AccessSize} (hn : storeSize i = some n) (s : State) :
    ∃ t, storeTo n s = .next t ∧ Executed i s t := by
  unfold storeTo
  split
  · exact ⟨_, rfl, .trap _⟩
  · next h => exact ⟨_, rfl, .store _ hn (by simpa using h)⟩

/-! ### The latched record -/

/-- The immediate of a latched record is an `XLEN`-bit value (R24). -/
theorem recordOf_imm_lt (xl : Xlen) (pc : Word) (i : Instr) : (recordOf xl pc i).imm.toNat < 2 ^ xl.bits := by
  have h0 : (0 : Word).toNat < 2 ^ xl.bits := by cases xl <;> decide
  cases i <;> first | exact xl.trunc_lt _ | exact h0

@[simp] theorem recordOf_pc (xl : Xlen) (pc : Word) (i : Instr) : (recordOf xl pc i).pc = pc := by cases i <;> rfl

@[simp] theorem recordOf_tag (xl : Xlen) (pc : Word) (i : Instr) : (recordOf xl pc i).tag = i.tag := by cases i <;> rfl

/-! ### `exec` -/

/-- The executor an instruction issues. -/
def executorOf : Instr → State → Result
  | .lui _ _ => loadUpper
  | .auipc _ _ => addUpperToPc
  | .addi _ _ _ => aluImmediate .add
  | .slti _ _ _ => aluImmediate .slt
  | .sltiu _ _ _ => aluImmediate .sltu
  | .xori _ _ _ => aluImmediate .xor
  | .ori _ _ _ => aluImmediate .or
  | .andi _ _ _ => aluImmediate .and
  | .slli _ _ _ => aluImmediate .sll
  | .srli _ _ _ => aluImmediate .srl
  | .srai _ _ _ => aluImmediate .sra
  | .addiw _ _ _ => aluImmediate .addw
  | .slliw _ _ _ => aluImmediate .sllw
  | .srliw _ _ _ => aluImmediate .srlw
  | .sraiw _ _ _ => aluImmediate .sraw
  | .add _ _ _ => aluRegister .add
  | .sub _ _ _ => aluRegister .sub
  | .sll _ _ _ => aluRegister .sll
  | .slt _ _ _ => aluRegister .slt
  | .sltu _ _ _ => aluRegister .sltu
  | .xor _ _ _ => aluRegister .xor
  | .srl _ _ _ => aluRegister .srl
  | .sra _ _ _ => aluRegister .sra
  | .or _ _ _ => aluRegister .or
  | .and _ _ _ => aluRegister .and
  | .addw _ _ _ => aluRegister .addw
  | .subw _ _ _ => aluRegister .subw
  | .sllw _ _ _ => aluRegister .sllw
  | .srlw _ _ _ => aluRegister .srlw
  | .sraw _ _ _ => aluRegister .sraw
  | .jal _ _ => jumpAndLink
  | .jalr _ _ _ => jumpAndLinkRegister
  | .beq _ _ _ => branchOn condEq
  | .bne _ _ _ => branchOn condNe
  | .blt _ _ _ => branchOn condLt
  | .bge _ _ _ => branchOn condGe
  | .bltu _ _ _ => branchOn condLtu
  | .bgeu _ _ _ => branchOn condGeu
  | .lb _ _ _ => loadFrom .byte signExtendLoad
  | .lh _ _ _ => loadFrom .half signExtendLoad
  | .lw _ _ _ => loadFrom .word signExtendLoad
  | .lbu _ _ _ => loadFrom .byte zeroExtendLoad
  | .lhu _ _ _ => loadFrom .half zeroExtendLoad
  | .lwu _ _ _ => loadFrom .word zeroExtendLoad
  | .ld _ _ _ => loadFrom .double signExtendLoad
  | .sb _ _ _ => storeTo .byte
  | .sh _ _ _ => storeTo .half
  | .sw _ _ _ => storeTo .word
  | .sd _ _ _ => storeTo .double
  | .fence _ _ _ => fenceExecutor
  | .ecall => takeTrap .systemCall
  | .ebreak => takeTrap .breakpoint
  | .mul _ _ _ => mulDiv .mul
  | .mulh _ _ _ => mulDiv .mulh
  | .mulhsu _ _ _ => mulDiv .mulhsu
  | .mulhu _ _ _ => mulDiv .mulhu
  | .div _ _ _ => mulDiv .div
  | .divu _ _ _ => mulDiv .divu
  | .rem _ _ _ => mulDiv .rem
  | .remu _ _ _ => mulDiv .remu
  | .mulw _ _ _ => mulDivW .mul
  | .divw _ _ _ => mulDivW .div
  | .divuw _ _ _ => mulDivW .divu
  | .remw _ _ _ => mulDivW .rem
  | .remuw _ _ _ => mulDivW .remu

/-- Every meaning issues its executor. -/
theorem exec_eq_issue (i : Instr) (s : State) : exec i s = issue i (executorOf i) s := by cases i <;> rfl

/-- Every executor answers a next state, one of those `Executed` lists. -/
theorem executorOf_executed (i : Instr) (s : State) (h : s.inst.imm.toNat < 2 ^ s.xlen.bits) :
    ∃ t, executorOf i s = .next t ∧ Executed i s t := by
  cases i
  case lui => exact loadUpper_executed _ h
  case auipc => exact addUpperToPc_executed _ s
  case jal => exact jumpTo_executed rfl (pcRelative_lt s)
  case jalr => exact jumpTo_executed rfl (jalrTarget_lt s)
  case beq | bne | blt | bge | bltu | bgeu => exact branchOn_executed rfl _ s
  case lb | lh | lw | lbu | lhu | lwu | ld => exact loadFrom_executed rfl (fun _ => s.xlen.trunc_lt _)
  case sb | sh | sw | sd => exact storeTo_executed rfl s
  case addi | slti | sltiu | xori | ori | andi | slli | srli | srai | addiw | slliw | srliw | sraiw => exact aluImmediate_executed _ _ s
  case add | sub | sll | slt | sltu | xor | srl | sra | or | and => exact aluRegister_executed _ _ s
  case addw | subw | sllw | srlw | sraw => exact aluRegister_executed _ _ s
  case fence => exact fenceExecutor_executed _ s
  case ecall | ebreak => exact takeTrap_executed _ _ s
  case mul | mulh | mulhsu | mulhu | div | divu | rem | remu => exact mulDiv_executed _ _ s
  case mulw | divw | divuw | remw | remuw => exact mulDivW_executed _ _ s

/-- Everything `exec` can answer. -/
theorem exec_cases (i : Instr) (s : State) :
    (tagEnabled s.config i.tag = false ∧
      exec i s = .next ((s.latch (fmtEmpty i.tag s.pc)).call (.trap .illegalInstruction))) ∨
    (tagEnabled s.config i.tag = true ∧ indicesExist s.config.nregs (recordOf s.xlen s.pc i) = false ∧
      exec i s = .refused .regIndex) ∨
    (tagEnabled s.config i.tag = true ∧ indicesExist s.config.nregs (recordOf s.xlen s.pc i) = true ∧
      ∃ t, exec i s = .next t ∧ Executed i (s.latch (recordOf s.xlen s.pc i)) t) := by
  have he := exec_eq_issue i s
  cases ht : tagEnabled s.config i.tag with
  | false => exact .inl ⟨rfl, he.trans (issue_of_disabled ht)⟩
  | true =>
    cases hx : indicesExist s.config.nregs (recordOf s.xlen s.pc i) with
    | false => exact .inr (.inl ⟨rfl, rfl, he.trans (issue_of_absent ht hx)⟩)
    | true =>
      obtain ⟨t, h, h'⟩ := executorOf_executed i (s.latch (recordOf s.xlen s.pc i)) (recordOf_imm_lt _ _ _)
      exact .inr (.inr ⟨rfl, rfl, t, he.trans ((issue_of_runs ht hx).trans h), h'⟩)

/-- An enabled instruction whose registers exist runs its executor on the latched state. -/
theorem exec_of_runs {i : Instr} {s : State} (ht : tagEnabled s.config i.tag = true)
    (hx : indicesExist s.config.nregs (recordOf s.xlen s.pc i) = true) :
    exec i s = executorOf i (s.latch (recordOf s.xlen s.pc i)) :=
  (exec_eq_issue i s).trans (issue_of_runs ht hx)

/-- An instruction whose executor writes one register completes with that write. -/
theorem computes_of_executor {i : Instr} {s : State} {rd : RegIdx} {v : Word} (ht : tagEnabled s.config i.tag = true)
    (hx : indicesExist s.config.nregs (recordOf s.xlen s.pc i) = true)
    (he : executorOf i (s.latch (recordOf s.xlen s.pc i)) = .next ((s.latch (recordOf s.xlen s.pc i)).wr rd v)) :
    Computes i s rd v := by
  refine ⟨_, (exec_of_runs ht hx).trans he, fun r => ?_, latch_recordOf_pc s i, rfl, fun _ => rfl, rfl, rfl⟩
  rw [State.reg_wr]
  rfl

/-! ### `step` -/

/-- Everything `step` can answer. -/
theorem step_cases (s : State) :
    (∃ i, decodeWord s.xlen s.fetchOpcode = .ok i ∧ step s = exec i (s.call (.fetch s.pc))) ∨
    (∃ n, decodeWord s.xlen s.fetchOpcode = .error (.length n) ∧ step s = .refused (.unsupportedLength n)) ∨
    (decodeWord s.xlen s.fetchOpcode = .error .unknown ∧
      step s = .next (((s.call (.fetch s.pc)).latch (fmtEmpty .UNKNOWN s.pc)).call (.trap .illegalInstruction))) := by
  unfold step
  cases h : decodeWord s.xlen s.fetchOpcode with
  | ok i => exact .inl ⟨i, rfl, rfl⟩
  | error r =>
    cases r with
    | length n => exact .inr (.inl ⟨n, rfl, rfl⟩)
    | unknown => exact .inr (.inr ⟨rfl, rfl⟩)

/-! ### Runs -/

/-- A run of `k + 1` steps that ends in a next state is one step and a run of `k` steps. -/
theorem run_succ {k : Nat} {s t : State} (h : core.run (k + 1) s = .next t) :
    ∃ u, step s = .next u ∧ core.run k u = .next t := by
  have general : ∀ (M : Host.Core) (s t : M.State), M.run (k + 1) s = .next t →
      ∃ u, M.step s = .next u ∧ M.run k u = .next t := by
    intro M s t h
    rw [Host.Core.run] at h
    split at h
    · next u hu => exact ⟨u, hu, h⟩
    · cases h
    · cases h
  exact general core s t h

/-- A relation that holds from each state to itself, and that a step before a related run keeps, holds over every run. -/
theorem run_induction {P : State → State → Prop} (refl : ∀ s, P s s) (trans : ∀ s t u, step s = .next t → P t u → P s u)
    {k : Nat} {s t : State} (h : core.run k s = .next t) : P s t := by
  induction k generalizing s with
  | zero => cases h; exact refl _
  | succ k ih =>
    obtain ⟨u, hu, h⟩ := run_succ h
    exact trans s u t hu (ih h)

end Sys2Proof.Machine
end

