-- ==== Sys2Proof/Laws/PerInstr.lean ====
section
/-! SUPPORT. A statement about every instruction, one lemma per constructor: its word has the 4-byte length class (R60, R61). -/

/-- The encoding of `i` is a 4-byte word. -/
def Sys2Proof.Laws.Length.Statement (i : Sys2Proof.Instr) : Prop := Sys2Proof.opcodeLength (Sys2Proof.encode i) = 4

namespace Sys2Proof.Laws.Length

theorem lui (rd : RegIdx) (imm : BitVec 20) : Statement (.lui rd imm) :=
  opcodeLength_of_primary (primaryOf_encodeU _ _ _) (by decide)

theorem auipc (rd : RegIdx) (imm : BitVec 20) : Statement (.auipc rd imm) :=
  opcodeLength_of_primary (primaryOf_encodeU _ _ _) (by decide)

theorem jal (rd : RegIdx) (imm : BitVec 21) : Statement (.jal rd imm) :=
  opcodeLength_of_primary (primaryOf_encodeJ _ _ _) (by decide)

theorem jalr (rd rs1 : RegIdx) (imm : BitVec 12) : Statement (.jalr rd rs1 imm) :=
  opcodeLength_of_primary (primaryOf_encodeI _ _ _ _ _) (by decide)

theorem beq (rs1 rs2 : RegIdx) (imm : BitVec 13) : Statement (.beq rs1 rs2 imm) :=
  opcodeLength_of_primary (primaryOf_encodeB _ _ _ _ _) (by decide)

theorem bne (rs1 rs2 : RegIdx) (imm : BitVec 13) : Statement (.bne rs1 rs2 imm) :=
  opcodeLength_of_primary (primaryOf_encodeB _ _ _ _ _) (by decide)

theorem blt (rs1 rs2 : RegIdx) (imm : BitVec 13) : Statement (.blt rs1 rs2 imm) :=
  opcodeLength_of_primary (primaryOf_encodeB _ _ _ _ _) (by decide)

theorem bge (rs1 rs2 : RegIdx) (imm : BitVec 13) : Statement (.bge rs1 rs2 imm) :=
  opcodeLength_of_primary (primaryOf_encodeB _ _ _ _ _) (by decide)

theorem bltu (rs1 rs2 : RegIdx) (imm : BitVec 13) : Statement (.bltu rs1 rs2 imm) :=
  opcodeLength_of_primary (primaryOf_encodeB _ _ _ _ _) (by decide)

theorem bgeu (rs1 rs2 : RegIdx) (imm : BitVec 13) : Statement (.bgeu rs1 rs2 imm) :=
  opcodeLength_of_primary (primaryOf_encodeB _ _ _ _ _) (by decide)

theorem lb (rd rs1 : RegIdx) (imm : BitVec 12) : Statement (.lb rd rs1 imm) :=
  opcodeLength_of_primary (primaryOf_encodeI _ _ _ _ _) (by decide)

theorem lh (rd rs1 : RegIdx) (imm : BitVec 12) : Statement (.lh rd rs1 imm) :=
  opcodeLength_of_primary (primaryOf_encodeI _ _ _ _ _) (by decide)

theorem lw (rd rs1 : RegIdx) (imm : BitVec 12) : Statement (.lw rd rs1 imm) :=
  opcodeLength_of_primary (primaryOf_encodeI _ _ _ _ _) (by decide)

theorem lbu (rd rs1 : RegIdx) (imm : BitVec 12) : Statement (.lbu rd rs1 imm) :=
  opcodeLength_of_primary (primaryOf_encodeI _ _ _ _ _) (by decide)

theorem lhu (rd rs1 : RegIdx) (imm : BitVec 12) : Statement (.lhu rd rs1 imm) :=
  opcodeLength_of_primary (primaryOf_encodeI _ _ _ _ _) (by decide)

theorem sb (rs1 rs2 : RegIdx) (imm : BitVec 12) : Statement (.sb rs1 rs2 imm) :=
  opcodeLength_of_primary (primaryOf_encodeS _ _ _ _ _) (by decide)

theorem sh (rs1 rs2 : RegIdx) (imm : BitVec 12) : Statement (.sh rs1 rs2 imm) :=
  opcodeLength_of_primary (primaryOf_encodeS _ _ _ _ _) (by decide)

theorem sw (rs1 rs2 : RegIdx) (imm : BitVec 12) : Statement (.sw rs1 rs2 imm) :=
  opcodeLength_of_primary (primaryOf_encodeS _ _ _ _ _) (by decide)

theorem addi (rd rs1 : RegIdx) (imm : BitVec 12) : Statement (.addi rd rs1 imm) :=
  opcodeLength_of_primary (primaryOf_encodeI _ _ _ _ _) (by decide)

theorem slti (rd rs1 : RegIdx) (imm : BitVec 12) : Statement (.slti rd rs1 imm) :=
  opcodeLength_of_primary (primaryOf_encodeI _ _ _ _ _) (by decide)

theorem sltiu (rd rs1 : RegIdx) (imm : BitVec 12) : Statement (.sltiu rd rs1 imm) :=
  opcodeLength_of_primary (primaryOf_encodeI _ _ _ _ _) (by decide)

theorem xori (rd rs1 : RegIdx) (imm : BitVec 12) : Statement (.xori rd rs1 imm) :=
  opcodeLength_of_primary (primaryOf_encodeI _ _ _ _ _) (by decide)

theorem ori (rd rs1 : RegIdx) (imm : BitVec 12) : Statement (.ori rd rs1 imm) :=
  opcodeLength_of_primary (primaryOf_encodeI _ _ _ _ _) (by decide)

theorem andi (rd rs1 : RegIdx) (imm : BitVec 12) : Statement (.andi rd rs1 imm) :=
  opcodeLength_of_primary (primaryOf_encodeI _ _ _ _ _) (by decide)

theorem slli (rd rs1 : RegIdx) (shamt : BitVec 6) : Statement (.slli rd rs1 shamt) :=
  opcodeLength_of_primary (primaryOf_encodeI _ _ _ _ _) (by decide)

theorem srli (rd rs1 : RegIdx) (shamt : BitVec 6) : Statement (.srli rd rs1 shamt) :=
  opcodeLength_of_primary (primaryOf_encodeI _ _ _ _ _) (by decide)

theorem srai (rd rs1 : RegIdx) (shamt : BitVec 6) : Statement (.srai rd rs1 shamt) :=
  opcodeLength_of_primary (primaryOf_encodeI _ _ _ _ _) (by decide)

theorem add (rd rs1 rs2 : RegIdx) : Statement (.add rd rs1 rs2) :=
  opcodeLength_of_primary (primaryOf_encodeR _ _ _ _ _ _) (by decide)

theorem sub (rd rs1 rs2 : RegIdx) : Statement (.sub rd rs1 rs2) :=
  opcodeLength_of_primary (primaryOf_encodeR _ _ _ _ _ _) (by decide)

theorem sll (rd rs1 rs2 : RegIdx) : Statement (.sll rd rs1 rs2) :=
  opcodeLength_of_primary (primaryOf_encodeR _ _ _ _ _ _) (by decide)

theorem slt (rd rs1 rs2 : RegIdx) : Statement (.slt rd rs1 rs2) :=
  opcodeLength_of_primary (primaryOf_encodeR _ _ _ _ _ _) (by decide)

theorem sltu (rd rs1 rs2 : RegIdx) : Statement (.sltu rd rs1 rs2) :=
  opcodeLength_of_primary (primaryOf_encodeR _ _ _ _ _ _) (by decide)

theorem xor (rd rs1 rs2 : RegIdx) : Statement (.xor rd rs1 rs2) :=
  opcodeLength_of_primary (primaryOf_encodeR _ _ _ _ _ _) (by decide)

theorem srl (rd rs1 rs2 : RegIdx) : Statement (.srl rd rs1 rs2) :=
  opcodeLength_of_primary (primaryOf_encodeR _ _ _ _ _ _) (by decide)

theorem sra (rd rs1 rs2 : RegIdx) : Statement (.sra rd rs1 rs2) :=
  opcodeLength_of_primary (primaryOf_encodeR _ _ _ _ _ _) (by decide)

theorem or (rd rs1 rs2 : RegIdx) : Statement (.or rd rs1 rs2) :=
  opcodeLength_of_primary (primaryOf_encodeR _ _ _ _ _ _) (by decide)

theorem and (rd rs1 rs2 : RegIdx) : Statement (.and rd rs1 rs2) :=
  opcodeLength_of_primary (primaryOf_encodeR _ _ _ _ _ _) (by decide)

theorem fence (rd rs1 : RegIdx) (fields : BitVec 12) : Statement (.fence rd rs1 fields) :=
  opcodeLength_of_primary (primaryOf_encodeI _ _ _ _ _) (by decide)

theorem ecall : Statement (.ecall) := rfl

theorem ebreak : Statement (.ebreak) := rfl

theorem lwu (rd rs1 : RegIdx) (imm : BitVec 12) : Statement (.lwu rd rs1 imm) :=
  opcodeLength_of_primary (primaryOf_encodeI _ _ _ _ _) (by decide)

theorem ld (rd rs1 : RegIdx) (imm : BitVec 12) : Statement (.ld rd rs1 imm) :=
  opcodeLength_of_primary (primaryOf_encodeI _ _ _ _ _) (by decide)

theorem sd (rs1 rs2 : RegIdx) (imm : BitVec 12) : Statement (.sd rs1 rs2 imm) :=
  opcodeLength_of_primary (primaryOf_encodeS _ _ _ _ _) (by decide)

theorem addiw (rd rs1 : RegIdx) (imm : BitVec 12) : Statement (.addiw rd rs1 imm) :=
  opcodeLength_of_primary (primaryOf_encodeI _ _ _ _ _) (by decide)

theorem slliw (rd rs1 : RegIdx) (shamt : BitVec 5) : Statement (.slliw rd rs1 shamt) :=
  opcodeLength_of_primary (primaryOf_encodeI _ _ _ _ _) (by decide)

theorem srliw (rd rs1 : RegIdx) (shamt : BitVec 5) : Statement (.srliw rd rs1 shamt) :=
  opcodeLength_of_primary (primaryOf_encodeI _ _ _ _ _) (by decide)

theorem sraiw (rd rs1 : RegIdx) (shamt : BitVec 5) : Statement (.sraiw rd rs1 shamt) :=
  opcodeLength_of_primary (primaryOf_encodeI _ _ _ _ _) (by decide)

theorem addw (rd rs1 rs2 : RegIdx) : Statement (.addw rd rs1 rs2) :=
  opcodeLength_of_primary (primaryOf_encodeR _ _ _ _ _ _) (by decide)

theorem subw (rd rs1 rs2 : RegIdx) : Statement (.subw rd rs1 rs2) :=
  opcodeLength_of_primary (primaryOf_encodeR _ _ _ _ _ _) (by decide)

theorem sllw (rd rs1 rs2 : RegIdx) : Statement (.sllw rd rs1 rs2) :=
  opcodeLength_of_primary (primaryOf_encodeR _ _ _ _ _ _) (by decide)

theorem srlw (rd rs1 rs2 : RegIdx) : Statement (.srlw rd rs1 rs2) :=
  opcodeLength_of_primary (primaryOf_encodeR _ _ _ _ _ _) (by decide)

theorem sraw (rd rs1 rs2 : RegIdx) : Statement (.sraw rd rs1 rs2) :=
  opcodeLength_of_primary (primaryOf_encodeR _ _ _ _ _ _) (by decide)

theorem mul (rd rs1 rs2 : RegIdx) : Statement (.mul rd rs1 rs2) :=
  opcodeLength_of_primary (primaryOf_encodeR _ _ _ _ _ _) (by decide)

theorem mulh (rd rs1 rs2 : RegIdx) : Statement (.mulh rd rs1 rs2) :=
  opcodeLength_of_primary (primaryOf_encodeR _ _ _ _ _ _) (by decide)

theorem mulhsu (rd rs1 rs2 : RegIdx) : Statement (.mulhsu rd rs1 rs2) :=
  opcodeLength_of_primary (primaryOf_encodeR _ _ _ _ _ _) (by decide)

theorem mulhu (rd rs1 rs2 : RegIdx) : Statement (.mulhu rd rs1 rs2) :=
  opcodeLength_of_primary (primaryOf_encodeR _ _ _ _ _ _) (by decide)

theorem div (rd rs1 rs2 : RegIdx) : Statement (.div rd rs1 rs2) :=
  opcodeLength_of_primary (primaryOf_encodeR _ _ _ _ _ _) (by decide)

theorem divu (rd rs1 rs2 : RegIdx) : Statement (.divu rd rs1 rs2) :=
  opcodeLength_of_primary (primaryOf_encodeR _ _ _ _ _ _) (by decide)

theorem rem (rd rs1 rs2 : RegIdx) : Statement (.rem rd rs1 rs2) :=
  opcodeLength_of_primary (primaryOf_encodeR _ _ _ _ _ _) (by decide)

theorem remu (rd rs1 rs2 : RegIdx) : Statement (.remu rd rs1 rs2) :=
  opcodeLength_of_primary (primaryOf_encodeR _ _ _ _ _ _) (by decide)

theorem mulw (rd rs1 rs2 : RegIdx) : Statement (.mulw rd rs1 rs2) :=
  opcodeLength_of_primary (primaryOf_encodeR _ _ _ _ _ _) (by decide)

theorem divw (rd rs1 rs2 : RegIdx) : Statement (.divw rd rs1 rs2) :=
  opcodeLength_of_primary (primaryOf_encodeR _ _ _ _ _ _) (by decide)

theorem divuw (rd rs1 rs2 : RegIdx) : Statement (.divuw rd rs1 rs2) :=
  opcodeLength_of_primary (primaryOf_encodeR _ _ _ _ _ _) (by decide)

theorem remw (rd rs1 rs2 : RegIdx) : Statement (.remw rd rs1 rs2) :=
  opcodeLength_of_primary (primaryOf_encodeR _ _ _ _ _ _) (by decide)

theorem remuw (rd rs1 rs2 : RegIdx) : Statement (.remuw rd rs1 rs2) :=
  opcodeLength_of_primary (primaryOf_encodeR _ _ _ _ _ _) (by decide)

end Sys2Proof.Laws.Length
end

