-- ==== Sys2Proof/Tests/Slice0.lean ====
section
/-! SUPPORT. Tests: well-formedness, decoding of words written out from the encoding tables, one step per instruction on the vectors of
spec/95_test_vectors.md, and a witness for the hypotheses of every obligation that has any. -/

namespace Sys2Proof.Tests

open Sys2Proof.Machine

/-! ### Well-formedness: each check refuses an ill-formed term -/

theorem test_wellFormed_refuses :
    (Instr.beq 1 2 3).wellFormed .rv64 = false ∧ (Instr.bne 1 2 1).wellFormed .rv64 = false ∧
    (Instr.blt 1 2 5).wellFormed .rv64 = false ∧ (Instr.bge 1 2 7).wellFormed .rv64 = false ∧
    (Instr.bltu 1 2 9).wellFormed .rv32 = false ∧ (Instr.bgeu 1 2 0x1FFF).wellFormed .rv32 = false ∧
    (Instr.jal 1 1).wellFormed .rv64 = false ∧ (Instr.slli 1 2 32).wellFormed .rv32 = false ∧
    (Instr.srli 1 2 33).wellFormed .rv32 = false ∧ (Instr.srai 1 2 63).wellFormed .rv32 = false := by decide

theorem test_wellFormed_accepts :
    (Instr.beq 1 2 2).wellFormed .rv64 = true ∧ (Instr.jal 1 0x1FFFFE).wellFormed .rv32 = true ∧
    (Instr.slli 1 2 31).wellFormed .rv32 = true ∧ (Instr.slli 1 2 63).wellFormed .rv64 = true := by decide

/-! ### Decoding: words written out from the encoding tables (R63 to R84) -/

theorem test_decode_load :
    decodeWord .rv64 (0b101100101100#12 ++ 0b10101#5 ++ 0b000#3 ++ 0b00110#5 ++ 0b0000011#7) = .ok (.lb 6 21 0xB2C) ∧
    decodeWord .rv64 (0b101100101100#12 ++ 0b10101#5 ++ 0b001#3 ++ 0b00110#5 ++ 0b0000011#7) = .ok (.lh 6 21 0xB2C) ∧
    decodeWord .rv64 (0b101100101100#12 ++ 0b10101#5 ++ 0b010#3 ++ 0b00110#5 ++ 0b0000011#7) = .ok (.lw 6 21 0xB2C) ∧
    decodeWord .rv64 (0b101100101100#12 ++ 0b10101#5 ++ 0b011#3 ++ 0b00110#5 ++ 0b0000011#7) = .ok (.ld 6 21 0xB2C) ∧
    decodeWord .rv64 (0b101100101100#12 ++ 0b10101#5 ++ 0b100#3 ++ 0b00110#5 ++ 0b0000011#7) = .ok (.lbu 6 21 0xB2C) ∧
    decodeWord .rv64 (0b101100101100#12 ++ 0b10101#5 ++ 0b101#3 ++ 0b00110#5 ++ 0b0000011#7) = .ok (.lhu 6 21 0xB2C) ∧
    decodeWord .rv64 (0b101100101100#12 ++ 0b10101#5 ++ 0b110#3 ++ 0b00110#5 ++ 0b0000011#7) = .ok (.lwu 6 21 0xB2C) := by decide

theorem test_decode_fence :
    decodeWord .rv64 (0b100000110011#12 ++ 0b10101#5 ++ 0b000#3 ++ 0b00110#5 ++ 0b0001111#7) = .ok (.fence 6 21 0x833) := by decide

theorem test_decode_op_imm :
    decodeWord .rv64 (0b101100101100#12 ++ 0b10101#5 ++ 0b000#3 ++ 0b00110#5 ++ 0b0010011#7) = .ok (.addi 6 21 0xB2C) ∧
    decodeWord .rv64 (0b101100101100#12 ++ 0b10101#5 ++ 0b010#3 ++ 0b00110#5 ++ 0b0010011#7) = .ok (.slti 6 21 0xB2C) ∧
    decodeWord .rv64 (0b101100101100#12 ++ 0b10101#5 ++ 0b011#3 ++ 0b00110#5 ++ 0b0010011#7) = .ok (.sltiu 6 21 0xB2C) ∧
    decodeWord .rv64 (0b101100101100#12 ++ 0b10101#5 ++ 0b100#3 ++ 0b00110#5 ++ 0b0010011#7) = .ok (.xori 6 21 0xB2C) ∧
    decodeWord .rv64 (0b101100101100#12 ++ 0b10101#5 ++ 0b110#3 ++ 0b00110#5 ++ 0b0010011#7) = .ok (.ori 6 21 0xB2C) ∧
    decodeWord .rv64 (0b101100101100#12 ++ 0b10101#5 ++ 0b111#3 ++ 0b00110#5 ++ 0b0010011#7) = .ok (.andi 6 21 0xB2C) := by decide

theorem test_decode_shift_imm_rv32 :
    decodeWord .rv32 (0b0000000#7 ++ 0b10011#5 ++ 0b10101#5 ++ 0b001#3 ++ 0b00110#5 ++ 0b0010011#7) = .ok (.slli 6 21 19) ∧
    decodeWord .rv32 (0b0000000#7 ++ 0b10011#5 ++ 0b10101#5 ++ 0b101#3 ++ 0b00110#5 ++ 0b0010011#7) = .ok (.srli 6 21 19) ∧
    decodeWord .rv32 (0b0100000#7 ++ 0b10011#5 ++ 0b10101#5 ++ 0b101#3 ++ 0b00110#5 ++ 0b0010011#7) = .ok (.srai 6 21 19) := by decide

theorem test_decode_shift_imm_rv64 :
    decodeWord .rv64 (0b000000#6 ++ 0b110011#6 ++ 0b10101#5 ++ 0b001#3 ++ 0b00110#5 ++ 0b0010011#7) = .ok (.slli 6 21 51) ∧
    decodeWord .rv64 (0b000000#6 ++ 0b110011#6 ++ 0b10101#5 ++ 0b101#3 ++ 0b00110#5 ++ 0b0010011#7) = .ok (.srli 6 21 51) ∧
    decodeWord .rv64 (0b010000#6 ++ 0b110011#6 ++ 0b10101#5 ++ 0b101#3 ++ 0b00110#5 ++ 0b0010011#7) = .ok (.srai 6 21 51) := by decide

theorem test_decode_upper :
    decodeWord .rv64 (0b10100101110000111110#20 ++ 0b00110#5 ++ 0b0010111#7) = .ok (.auipc 6 0xA5C3E) ∧
    decodeWord .rv64 (0b10100101110000111110#20 ++ 0b00110#5 ++ 0b0110111#7) = .ok (.lui 6 0xA5C3E) := by decide

theorem test_decode_op_imm_32 :
    decodeWord .rv64 (0b101100101100#12 ++ 0b10101#5 ++ 0b000#3 ++ 0b00110#5 ++ 0b0011011#7) = .ok (.addiw 6 21 0xB2C) ∧
    decodeWord .rv64 (0b0000000#7 ++ 0b10011#5 ++ 0b10101#5 ++ 0b001#3 ++ 0b00110#5 ++ 0b0011011#7) = .ok (.slliw 6 21 19) ∧
    decodeWord .rv64 (0b0000000#7 ++ 0b10011#5 ++ 0b10101#5 ++ 0b101#3 ++ 0b00110#5 ++ 0b0011011#7) = .ok (.srliw 6 21 19) ∧
    decodeWord .rv64 (0b0100000#7 ++ 0b10011#5 ++ 0b10101#5 ++ 0b101#3 ++ 0b00110#5 ++ 0b0011011#7) = .ok (.sraiw 6 21 19) := by decide

theorem test_decode_store :
    decodeWord .rv64 (0b1011001#7 ++ 0b01011#5 ++ 0b10101#5 ++ 0b000#3 ++ 0b01100#5 ++ 0b0100011#7) = .ok (.sb 21 11 0xB2C) ∧
    decodeWord .rv64 (0b1011001#7 ++ 0b01011#5 ++ 0b10101#5 ++ 0b001#3 ++ 0b01100#5 ++ 0b0100011#7) = .ok (.sh 21 11 0xB2C) ∧
    decodeWord .rv64 (0b1011001#7 ++ 0b01011#5 ++ 0b10101#5 ++ 0b010#3 ++ 0b01100#5 ++ 0b0100011#7) = .ok (.sw 21 11 0xB2C) ∧
    decodeWord .rv64 (0b1011001#7 ++ 0b01011#5 ++ 0b10101#5 ++ 0b011#3 ++ 0b01100#5 ++ 0b0100011#7) = .ok (.sd 21 11 0xB2C) := by decide

theorem test_decode_op :
    decodeWord .rv64 (0b0000000#7 ++ 0b01011#5 ++ 0b10101#5 ++ 0b000#3 ++ 0b00110#5 ++ 0b0110011#7) = .ok (.add 6 21 11) ∧
    decodeWord .rv64 (0b0000000#7 ++ 0b01011#5 ++ 0b10101#5 ++ 0b001#3 ++ 0b00110#5 ++ 0b0110011#7) = .ok (.sll 6 21 11) ∧
    decodeWord .rv64 (0b0000000#7 ++ 0b01011#5 ++ 0b10101#5 ++ 0b010#3 ++ 0b00110#5 ++ 0b0110011#7) = .ok (.slt 6 21 11) ∧
    decodeWord .rv64 (0b0000000#7 ++ 0b01011#5 ++ 0b10101#5 ++ 0b011#3 ++ 0b00110#5 ++ 0b0110011#7) = .ok (.sltu 6 21 11) ∧
    decodeWord .rv64 (0b0000000#7 ++ 0b01011#5 ++ 0b10101#5 ++ 0b100#3 ++ 0b00110#5 ++ 0b0110011#7) = .ok (.xor 6 21 11) ∧
    decodeWord .rv64 (0b0000000#7 ++ 0b01011#5 ++ 0b10101#5 ++ 0b101#3 ++ 0b00110#5 ++ 0b0110011#7) = .ok (.srl 6 21 11) ∧
    decodeWord .rv64 (0b0000000#7 ++ 0b01011#5 ++ 0b10101#5 ++ 0b110#3 ++ 0b00110#5 ++ 0b0110011#7) = .ok (.or 6 21 11) ∧
    decodeWord .rv64 (0b0000000#7 ++ 0b01011#5 ++ 0b10101#5 ++ 0b111#3 ++ 0b00110#5 ++ 0b0110011#7) = .ok (.and 6 21 11) ∧
    decodeWord .rv64 (0b0100000#7 ++ 0b01011#5 ++ 0b10101#5 ++ 0b000#3 ++ 0b00110#5 ++ 0b0110011#7) = .ok (.sub 6 21 11) ∧
    decodeWord .rv64 (0b0100000#7 ++ 0b01011#5 ++ 0b10101#5 ++ 0b101#3 ++ 0b00110#5 ++ 0b0110011#7) = .ok (.sra 6 21 11) := by decide

theorem test_decode_mul_div :
    decodeWord .rv64 (0b0000001#7 ++ 0b01011#5 ++ 0b10101#5 ++ 0b000#3 ++ 0b00110#5 ++ 0b0110011#7) = .ok (.mul 6 21 11) ∧
    decodeWord .rv64 (0b0000001#7 ++ 0b01011#5 ++ 0b10101#5 ++ 0b001#3 ++ 0b00110#5 ++ 0b0110011#7) = .ok (.mulh 6 21 11) ∧
    decodeWord .rv64 (0b0000001#7 ++ 0b01011#5 ++ 0b10101#5 ++ 0b010#3 ++ 0b00110#5 ++ 0b0110011#7) = .ok (.mulhsu 6 21 11) ∧
    decodeWord .rv64 (0b0000001#7 ++ 0b01011#5 ++ 0b10101#5 ++ 0b011#3 ++ 0b00110#5 ++ 0b0110011#7) = .ok (.mulhu 6 21 11) ∧
    decodeWord .rv64 (0b0000001#7 ++ 0b01011#5 ++ 0b10101#5 ++ 0b100#3 ++ 0b00110#5 ++ 0b0110011#7) = .ok (.div 6 21 11) ∧
    decodeWord .rv64 (0b0000001#7 ++ 0b01011#5 ++ 0b10101#5 ++ 0b101#3 ++ 0b00110#5 ++ 0b0110011#7) = .ok (.divu 6 21 11) ∧
    decodeWord .rv64 (0b0000001#7 ++ 0b01011#5 ++ 0b10101#5 ++ 0b110#3 ++ 0b00110#5 ++ 0b0110011#7) = .ok (.rem 6 21 11) ∧
    decodeWord .rv64 (0b0000001#7 ++ 0b01011#5 ++ 0b10101#5 ++ 0b111#3 ++ 0b00110#5 ++ 0b0110011#7) = .ok (.remu 6 21 11) := by decide

theorem test_decode_op_32 :
    decodeWord .rv64 (0b0000000#7 ++ 0b01011#5 ++ 0b10101#5 ++ 0b000#3 ++ 0b00110#5 ++ 0b0111011#7) = .ok (.addw 6 21 11) ∧
    decodeWord .rv64 (0b0000000#7 ++ 0b01011#5 ++ 0b10101#5 ++ 0b001#3 ++ 0b00110#5 ++ 0b0111011#7) = .ok (.sllw 6 21 11) ∧
    decodeWord .rv64 (0b0000000#7 ++ 0b01011#5 ++ 0b10101#5 ++ 0b101#3 ++ 0b00110#5 ++ 0b0111011#7) = .ok (.srlw 6 21 11) ∧
    decodeWord .rv64 (0b0100000#7 ++ 0b01011#5 ++ 0b10101#5 ++ 0b000#3 ++ 0b00110#5 ++ 0b0111011#7) = .ok (.subw 6 21 11) ∧
    decodeWord .rv64 (0b0100000#7 ++ 0b01011#5 ++ 0b10101#5 ++ 0b101#3 ++ 0b00110#5 ++ 0b0111011#7) = .ok (.sraw 6 21 11) := by decide

theorem test_decode_mul_div_32 :
    decodeWord .rv64 (0b0000001#7 ++ 0b01011#5 ++ 0b10101#5 ++ 0b000#3 ++ 0b00110#5 ++ 0b0111011#7) = .ok (.mulw 6 21 11) ∧
    decodeWord .rv64 (0b0000001#7 ++ 0b01011#5 ++ 0b10101#5 ++ 0b100#3 ++ 0b00110#5 ++ 0b0111011#7) = .ok (.divw 6 21 11) ∧
    decodeWord .rv64 (0b0000001#7 ++ 0b01011#5 ++ 0b10101#5 ++ 0b101#3 ++ 0b00110#5 ++ 0b0111011#7) = .ok (.divuw 6 21 11) ∧
    decodeWord .rv64 (0b0000001#7 ++ 0b01011#5 ++ 0b10101#5 ++ 0b110#3 ++ 0b00110#5 ++ 0b0111011#7) = .ok (.remw 6 21 11) ∧
    decodeWord .rv64 (0b0000001#7 ++ 0b01011#5 ++ 0b10101#5 ++ 0b111#3 ++ 0b00110#5 ++ 0b0111011#7) = .ok (.remuw 6 21 11) := by decide

theorem test_decode_branch :
    decodeWord .rv64 (0b1#1 ++ 0b010100#6 ++ 0b01011#5 ++ 0b10101#5 ++ 0b000#3 ++ 0b1011#4 ++ 0b1#1 ++ 0b1100011#7) = .ok (.beq 21 11 0x1A96) ∧
    decodeWord .rv64 (0b1#1 ++ 0b010100#6 ++ 0b01011#5 ++ 0b10101#5 ++ 0b001#3 ++ 0b1011#4 ++ 0b1#1 ++ 0b1100011#7) = .ok (.bne 21 11 0x1A96) ∧
    decodeWord .rv64 (0b1#1 ++ 0b010100#6 ++ 0b01011#5 ++ 0b10101#5 ++ 0b100#3 ++ 0b1011#4 ++ 0b1#1 ++ 0b1100011#7) = .ok (.blt 21 11 0x1A96) ∧
    decodeWord .rv64 (0b1#1 ++ 0b010100#6 ++ 0b01011#5 ++ 0b10101#5 ++ 0b101#3 ++ 0b1011#4 ++ 0b1#1 ++ 0b1100011#7) = .ok (.bge 21 11 0x1A96) ∧
    decodeWord .rv64 (0b1#1 ++ 0b010100#6 ++ 0b01011#5 ++ 0b10101#5 ++ 0b110#3 ++ 0b1011#4 ++ 0b1#1 ++ 0b1100011#7) = .ok (.bltu 21 11 0x1A96) ∧
    decodeWord .rv64 (0b1#1 ++ 0b010100#6 ++ 0b01011#5 ++ 0b10101#5 ++ 0b111#3 ++ 0b1011#4 ++ 0b1#1 ++ 0b1100011#7) = .ok (.bgeu 21 11 0x1A96) := by decide

theorem test_decode_jump :
    decodeWord .rv64 (0b101100101100#12 ++ 0b10101#5 ++ 0b000#3 ++ 0b00110#5 ++ 0b1100111#7) = .ok (.jalr 6 21 0xB2C) ∧
    decodeWord .rv64 (0b1#1 ++ 0b0101100011#10 ++ 0b0#1 ++ 0b10100101#8 ++ 0b00110#5 ++ 0b1101111#7) = .ok (.jal 6 0x1A52C6) := by decide

theorem test_decode_system :
    decodeWord .rv64 (0b00000000000000000000000001110011#32) = .ok (.ecall) ∧
    decodeWord .rv64 (0b00000000000100000000000001110011#32) = .ok (.ebreak) := by decide

/-- Words the decoder rejects: a reserved funct3, a reserved funct7, `SLLI` with bit 25 set when `XLEN` = 32, a system word, a
2-byte and a 6-byte class. -/
theorem test_decode_rejects :
    decodeWord .rv64 0x00734423 = .error .unknown ∧ decodeWord .rv64 0x042081B3 = .error .unknown ∧
    decodeWord .rv32 0x02011093 = .error .unknown ∧ decodeWord .rv64 0x30200073 = .error .unknown ∧
    decodeWord .rv64 0x00000000 = .error (.length 2) ∧ decodeWord .rv64 0x0000001F = .error (.length 6) := by decide

/-- Bytes: little-endian, the rest left over, too few refused. -/
theorem test_decode_bytes :
    decodeBytes .rv64 [0x93, 0x82, 0x12, 0x00, 0xAA] = .ok (.addi 5 5 1, [0xAA]) ∧
    decodeBytes .rv64 [0x93, 0x82, 0x12] = .error .truncated := by decide

/-- The host's two entry points on a row's word. -/
theorem test_table_word :
    decodeTableWord 32 0x02004033 = some (.div 0 0 0) ∧ decodeTableWord 32 0x00001013 = some (.slli 0 0 0) ∧
    (State.reset.withFetchWord 32 0x02004033).fetchOpcode = 0x02004033 := by decide

/-! ### One step -/

/-- A hart with a configuration, a pc, some registers and bytes of memory, and the word placed at the pc. -/
def launch (config : HartConfig) (pc : Word) (regs : List (RegIdx × Word)) (mem : Memory) (w : Nat) : State :=
  (regs.foldl (fun (s : State) p => s.wr p.1 p.2) { State.reset with config := config, pc := pc, mem := mem }).withFetchWord 32 w

/-- A register, the pc and the environment calls after one step. -/
def ran (s : State) (r : RegIdx) : Option (Word × Word × List EnvCall) :=
  (nextState (step s)).map fun t => (t.reg r, t.pc, t.calls)

/-- The 8 bytes at 0x1008 of the load vectors. -/
def loadData : Memory :=
  [(0x1008, 0x80), (0x1009, 0xFF), (0x100A, 0x34), (0x100B, 0x92), (0x100C, 0x78), (0x100D, 0x56), (0x100E, 0x34), (0x100F, 0x12)]

/-- Vector A2: ADDI. -/
theorem test_addi_a2 : ran (launch ⟨.rv32, .r32, [], false⟩ 0x100 [(13, 0x000003E8)] [] 0xE3868713) 14 =
    some (0x00000220, 0x104, [.fetch 0x100]) := by decide

/-- Vector E13: ADDI. -/
theorem test_addi_e13 : ran (launch ⟨.rv32, .r16, [], false⟩ 0x100 [] [] 0x00100793) 15 =
    some (0x00000001, 0x104, [.fetch 0x100]) := by decide

/-- Vector A7: SLTI. -/
theorem test_slti_a7 : ran (launch ⟨.rv32, .r32, [], false⟩ 0x100 [(2, 0xFFFFFFFE)] [] 0xFFF12093) 1 =
    some (0x00000001, 0x104, [.fetch 0x100]) := by decide

/-- Vector A8: SLTI. -/
theorem test_slti_a8 : ran (launch ⟨.rv32, .r32, [], false⟩ 0x100 [(2, 0x00000005)] [] 0xFFF12093) 1 =
    some (0x00000000, 0x104, [.fetch 0x100]) := by decide

/-- Vector A9: SLTIU. -/
theorem test_sltiu_a9 : ran (launch ⟨.rv32, .r32, [], false⟩ 0x100 [(2, 0x00000005)] [] 0xFFF13093) 1 =
    some (0x00000001, 0x104, [.fetch 0x100]) := by decide

/-- Vector A11: SLTIU. -/
theorem test_sltiu_a11 : ran (launch ⟨.rv32, .r32, [], false⟩ 0x100 [(2, 0x00000000)] [] 0x00013093) 1 =
    some (0x00000000, 0x104, [.fetch 0x100]) := by decide

/-- Vector A12: XORI. -/
theorem test_xori_a12 : ran (launch ⟨.rv32, .r32, [], false⟩ 0x100 [(2, 0x00000F0F)] [] 0xFFF14093) 1 =
    some (0xFFFFF0F0, 0x104, [.fetch 0x100]) := by decide

/-- Vector A13: ORI. -/
theorem test_ori_a13 : ran (launch ⟨.rv32, .r32, [], false⟩ 0x100 [(2, 0x0000000F)] [] 0xF0016093) 1 =
    some (0xFFFFFF0F, 0x104, [.fetch 0x100]) := by decide

/-- Vector A14: ANDI. -/
theorem test_andi_a14 : ran (launch ⟨.rv32, .r32, [], false⟩ 0x100 [(2, 0x12345678)] [] 0x0FF17093) 1 =
    some (0x00000078, 0x104, [.fetch 0x100]) := by decide

/-- Vector A15: SLLI. -/
theorem test_slli_a15 : ran (launch ⟨.rv32, .r32, [], false⟩ 0x100 [(2, 0x12345678)] [] 0x00011093) 1 =
    some (0x12345678, 0x104, [.fetch 0x100]) := by decide

/-- Vector A19: SLLI. -/
theorem test_slli_a19 : ran (launch ⟨.rv32, .r32, [], false⟩ 0x100 [(2, 0x00000001)] [] 0x03F11093) 2 =
    some (0x00000001, 0x104, [.trap .illegalInstruction, .fetch 0x100]) := by decide

/-- Vector A20: SRLI. -/
theorem test_srli_a20 : ran (launch ⟨.rv32, .r32, [], false⟩ 0x100 [(2, 0x80000000)] [] 0x01F15093) 1 =
    some (0x00000001, 0x104, [.fetch 0x100]) := by decide

/-- Vector A22: SRLI. -/
theorem test_srli_a22 : ran (launch ⟨.rv32, .r32, [], false⟩ 0x100 [(2, 0x80000000)] [] 0x02015093) 2 =
    some (0x80000000, 0x104, [.trap .illegalInstruction, .fetch 0x100]) := by decide

/-- Vector A23: SRAI. -/
theorem test_srai_a23 : ran (launch ⟨.rv32, .r32, [], false⟩ 0x100 [(2, 0x80000000)] [] 0x41F15093) 1 =
    some (0xFFFFFFFF, 0x104, [.fetch 0x100]) := by decide

/-- Vector A25: SRAI. -/
theorem test_srai_a25 : ran (launch ⟨.rv64, .r32, [], false⟩ 0x100 [(2, 0x8000000000000000)] [] 0x43F15093) 1 =
    some (0xFFFFFFFFFFFFFFFF, 0x104, [.fetch 0x100]) := by decide

/-- Vector A26: LUI. -/
theorem test_lui_a26 : ran (launch ⟨.rv32, .r32, [], false⟩ 0x100 [] [] 0x800002B7) 5 =
    some (0x80000000, 0x104, [.fetch 0x100]) := by decide

/-- Vector E19: LUI. -/
theorem test_lui_e19 : ran (launch ⟨.rv32, .r16, [], false⟩ 0x100 [] [] 0xFFFFF0B7) 1 =
    some (0xFFFFF000, 0x104, [.fetch 0x100]) := by decide

/-- Vector A30: AUIPC. -/
theorem test_auipc_a30 : ran (launch ⟨.rv32, .r32, [], false⟩ 0x100 [] [] 0xFFFFF317) 6 =
    some (0xFFFFF100, 0x104, [.fetch 0x100]) := by decide

/-- Vector A32: AUIPC. -/
theorem test_auipc_a32 : ran (launch ⟨.rv32, .r32, [], false⟩ 0x100 [] [] 0x00000317) 6 =
    some (0x00000100, 0x104, [.fetch 0x100]) := by decide

/-- Vector A33: ADDIW. -/
theorem test_addiw_a33 : ran (launch ⟨.rv64, .r32, [], false⟩ 0x100 [(2, 0x000000007FFFFFFF)] [] 0x0011009B) 1 =
    some (0xFFFFFFFF80000000, 0x104, [.fetch 0x100]) := by decide

/-- Vector A35: ADDIW. -/
theorem test_addiw_a35 : ran (launch ⟨.rv32, .r32, [], false⟩ 0x100 [(2, 0x00000001)] [] 0x0011009B) 2 =
    some (0x00000001, 0x104, [.trap .illegalInstruction, .fetch 0x100]) := by decide

/-- Vector A36: SLLIW. -/
theorem test_slliw_a36 : ran (launch ⟨.rv64, .r32, [], false⟩ 0x100 [(2, 0x0000000000000001)] [] 0x01F1109B) 1 =
    some (0xFFFFFFFF80000000, 0x104, [.fetch 0x100]) := by decide

/-- Vector A37: SRLIW. -/
theorem test_srliw_a37 : ran (launch ⟨.rv64, .r32, [], false⟩ 0x100 [(2, 0x0000000080000000)] [] 0x0001509B) 1 =
    some (0xFFFFFFFF80000000, 0x104, [.fetch 0x100]) := by decide

/-- Vector A38: SRLIW. -/
theorem test_srliw_a38 : ran (launch ⟨.rv64, .r32, [], false⟩ 0x100 [(2, 0xFFFFFFFF80000000)] [] 0x0041509B) 1 =
    some (0x0000000008000000, 0x104, [.fetch 0x100]) := by decide

/-- Vector A39: SRAIW. -/
theorem test_sraiw_a39 : ran (launch ⟨.rv64, .r32, [], false⟩ 0x100 [(2, 0x0000000080000000)] [] 0x4041509B) 1 =
    some (0xFFFFFFFFF8000000, 0x104, [.fetch 0x100]) := by decide

/-- Vector A40: SRAIW. -/
theorem test_sraiw_a40 : ran (launch ⟨.rv64, .r32, [], false⟩ 0x100 [(2, 0x000000007FFFFFFF)] [] 0x41F1509B) 1 =
    some (0x0000000000000000, 0x104, [.fetch 0x100]) := by decide

/-- Vector B1: ADD. -/
theorem test_add_b1 : ran (launch ⟨.rv32, .r32, [], false⟩ 0x100 [(1, 0x7FFFFFFF), (2, 0x00000001)] [] 0x002081B3) 3 =
    some (0x80000000, 0x104, [.fetch 0x100]) := by decide

/-- Vector B5: ADD. -/
theorem test_add_b5 : ran (launch ⟨.rv32, .r32, [], false⟩ 0x100 [(1, 0x00000001), (2, 0x00000002)] [] 0x00208033) 0 =
    some (0, 0x104, [.fetch 0x100]) := by decide

/-- Vector B6: SUB. -/
theorem test_sub_b6 : ran (launch ⟨.rv32, .r32, [], false⟩ 0x100 [(1, 0x00000000), (2, 0x00000001)] [] 0x402081B3) 3 =
    some (0xFFFFFFFF, 0x104, [.fetch 0x100]) := by decide

/-- Vector B8: SUB. -/
theorem test_sub_b8 : ran (launch ⟨.rv32, .r32, [], false⟩ 0x100 [(1, 0x00001234)] [] 0x401081B3) 3 =
    some (0x00000000, 0x104, [.fetch 0x100]) := by decide

/-- Vector B9: SLL. -/
theorem test_sll_b9 : ran (launch ⟨.rv32, .r32, [], false⟩ 0x100 [(1, 0x00000001), (2, 0x00000021)] [] 0x002091B3) 3 =
    some (0x00000002, 0x104, [.fetch 0x100]) := by decide

/-- Vector B12: SLL. -/
theorem test_sll_b12 : ran (launch ⟨.rv32, .r32, [], false⟩ 0x100 [(1, 0x00000001), (2, 0x00000020)] [] 0x002091B3) 3 =
    some (0x00000001, 0x104, [.fetch 0x100]) := by decide

/-- Vector B13: SLT. -/
theorem test_slt_b13 : ran (launch ⟨.rv32, .r32, [], false⟩ 0x100 [(1, 0x80000000), (2, 0x7FFFFFFF)] [] 0x0020A1B3) 3 =
    some (0x00000001, 0x104, [.fetch 0x100]) := by decide

/-- Vector B14: SLT. -/
theorem test_slt_b14 : ran (launch ⟨.rv32, .r32, [], false⟩ 0x100 [(1, 0x00000005), (2, 0x00000005)] [] 0x0020A1B3) 3 =
    some (0x00000000, 0x104, [.fetch 0x100]) := by decide

/-- Vector B15: SLTU. -/
theorem test_sltu_b15 : ran (launch ⟨.rv32, .r32, [], false⟩ 0x100 [(1, 0x7FFFFFFF), (2, 0x80000000)] [] 0x0020B1B3) 3 =
    some (0x00000001, 0x104, [.fetch 0x100]) := by decide

/-- Vector B16: SLTU. -/
theorem test_sltu_b16 : ran (launch ⟨.rv32, .r32, [], false⟩ 0x100 [(2, 0x00000009)] [] 0x002031B3) 3 =
    some (0x00000001, 0x104, [.fetch 0x100]) := by decide

/-- Vector B17: XOR. -/
theorem test_xor_b17 : ran (launch ⟨.rv32, .r32, [], false⟩ 0x100 [(1, 0xFF00FF00), (2, 0x0FF00FF0)] [] 0x0020C1B3) 3 =
    some (0xF0F0F0F0, 0x104, [.fetch 0x100]) := by decide

/-- Vector B18: OR. -/
theorem test_or_b18 : ran (launch ⟨.rv32, .r32, [], false⟩ 0x100 [(1, 0xFF00FF00), (2, 0x0FF00FF0)] [] 0x0020E1B3) 3 =
    some (0xFFF0FFF0, 0x104, [.fetch 0x100]) := by decide

/-- Vector B19: AND. -/
theorem test_and_b19 : ran (launch ⟨.rv32, .r32, [], false⟩ 0x100 [(1, 0xFF00FF00), (2, 0x0FF00FF0)] [] 0x0020F1B3) 3 =
    some (0x0F000F00, 0x104, [.fetch 0x100]) := by decide

/-- Vector B20: SRL. -/
theorem test_srl_b20 : ran (launch ⟨.rv32, .r32, [], false⟩ 0x100 [(1, 0x80000000), (2, 0x00000024)] [] 0x0020D1B3) 3 =
    some (0x08000000, 0x104, [.fetch 0x100]) := by decide

/-- Vector B23: SRL. -/
theorem test_srl_b23 : ran (launch ⟨.rv64, .r32, [], false⟩ 0x100 [(1, 0x8000000000000000), (2, 0x000000000000007F)] [] 0x0020D1B3) 3 =
    some (0x0000000000000001, 0x104, [.fetch 0x100]) := by decide

/-- Vector B21: SRA. -/
theorem test_sra_b21 : ran (launch ⟨.rv32, .r32, [], false⟩ 0x100 [(1, 0x80000000), (2, 0x00000024)] [] 0x4020D1B3) 3 =
    some (0xF8000000, 0x104, [.fetch 0x100]) := by decide

/-- Vector B22: SRA. -/
theorem test_sra_b22 : ran (launch ⟨.rv64, .r32, [], false⟩ 0x100 [(1, 0x8000000000000000), (2, 0x000000000000003F)] [] 0x4020D1B3) 3 =
    some (0xFFFFFFFFFFFFFFFF, 0x104, [.fetch 0x100]) := by decide

/-- Vector B24: ADDW. -/
theorem test_addw_b24 : ran (launch ⟨.rv64, .r32, [], false⟩ 0x100 [(1, 0x000000007FFFFFFF), (2, 0x0000000000000001)] [] 0x002081BB) 3 =
    some (0xFFFFFFFF80000000, 0x104, [.fetch 0x100]) := by decide

/-- Vector B33: ADDW. -/
theorem test_addw_b33 : ran (launch ⟨.rv32, .r32, [], false⟩ 0x100 [(1, 0x00000001), (2, 0x00000002)] [] 0x002081BB) 1 =
    some (0x00000001, 0x104, [.trap .illegalInstruction, .fetch 0x100]) := by decide

/-- Vector B26: SUBW. -/
theorem test_subw_b26 : ran (launch ⟨.rv64, .r32, [], false⟩ 0x100 [(1, 0x0000000000000000), (2, 0x0000000000000001)] [] 0x402081BB) 3 =
    some (0xFFFFFFFFFFFFFFFF, 0x104, [.fetch 0x100]) := by decide

/-- Vector B27: SUBW. -/
theorem test_subw_b27 : ran (launch ⟨.rv64, .r32, [], false⟩ 0x100 [(1, 0x0000000080000000), (2, 0x0000000000000001)] [] 0x402081BB) 3 =
    some (0x000000007FFFFFFF, 0x104, [.fetch 0x100]) := by decide

/-- Vector B28: SLLW. -/
theorem test_sllw_b28 : ran (launch ⟨.rv64, .r32, [], false⟩ 0x100 [(1, 0x0000000000000001), (2, 0x000000000000001F)] [] 0x002091BB) 3 =
    some (0xFFFFFFFF80000000, 0x104, [.fetch 0x100]) := by decide

/-- Vector B29: SLLW. -/
theorem test_sllw_b29 : ran (launch ⟨.rv64, .r32, [], false⟩ 0x100 [(1, 0x0000000000000001), (2, 0x0000000000000020)] [] 0x002091BB) 3 =
    some (0x0000000000000001, 0x104, [.fetch 0x100]) := by decide

/-- Vector B30: SRLW. -/
theorem test_srlw_b30 : ran (launch ⟨.rv64, .r32, [], false⟩ 0x100 [(1, 0xFFFFFFFF80000000), (2, 0x000000000000001F)] [] 0x0020D1BB) 3 =
    some (0x0000000000000001, 0x104, [.fetch 0x100]) := by decide

/-- Vector B31: SRAW. -/
theorem test_sraw_b31 : ran (launch ⟨.rv64, .r32, [], false⟩ 0x100 [(1, 0x0000000080000000), (2, 0x000000000000001F)] [] 0x4020D1BB) 3 =
    some (0xFFFFFFFFFFFFFFFF, 0x104, [.fetch 0x100]) := by decide

/-- Vector B32: SRAW. -/
theorem test_sraw_b32 : ran (launch ⟨.rv64, .r32, [], false⟩ 0x100 [(1, 0x0000000080000000), (2, 0x000000000000003F)] [] 0x4020D1BB) 3 =
    some (0xFFFFFFFFFFFFFFFF, 0x104, [.fetch 0x100]) := by decide

/-- Vector CT2: JAL. -/
theorem test_jal_ct2 : ran (launch ⟨.rv32, .r32, [], false⟩ 0x100 [] [] 0x008000EF) 1 =
    some (0x00000104, 0x108, [.fetch 0x100]) := by decide

/-- Vector CT3: JAL. -/
theorem test_jal_ct3 : ran (launch ⟨.rv32, .r32, [], false⟩ 0x100 [(1, 0x00000055)] [] 0x002000EF) 1 =
    some (0x00000055, 0x104, [.trap .instructionAddressMisaligned, .fetch 0x100]) := by decide

/-- Vector CT9: JALR. -/
theorem test_jalr_ct9 : ran (launch ⟨.rv32, .r32, [], false⟩ 0x200 [(1, 0x00000400)] [] 0x000080E7) 1 =
    some (0x00000204, 0x400, [.fetch 0x200]) := by decide

/-- Vector CT10: JALR. -/
theorem test_jalr_ct10 : ran (launch ⟨.rv32, .r32, [], false⟩ 0x200 [(6, 0x00001000), (5, 0x00000077)] [] 0x003302E7) 6 =
    some (0x00001000, 0x204, [.trap .instructionAddressMisaligned, .fetch 0x200]) := by decide

/-- Vector CT16: BEQ. -/
theorem test_beq_ct16 : ran (launch ⟨.rv32, .r32, [], false⟩ 0x100 [(1, 0x00000005), (2, 0x00000005)] [] 0x00208463) 0 =
    some (0, 0x108, [.fetch 0x100]) := by decide

/-- Vector CT18: BEQ. -/
theorem test_beq_ct18 : ran (launch ⟨.rv32, .r32, [], false⟩ 0x100 [(1, 0x00000005), (2, 0x00000005)] [] 0x00208363) 1 =
    some (0x00000005, 0x104, [.trap .instructionAddressMisaligned, .fetch 0x100]) := by decide

/-- Vector CT22: BNE. -/
theorem test_bne_ct22 : ran (launch ⟨.rv32, .r32, [], false⟩ 0x100 [(1, 0x00000001), (2, 0x00000000)] [] 0xFE209CE3) 0 =
    some (0, 0xF8, [.fetch 0x100]) := by decide

/-- Vector CT23: BNE. -/
theorem test_bne_ct23 : ran (launch ⟨.rv32, .r32, [], false⟩ 0x100 [(1, 0x00000001)] [] 0xFE109CE3) 0 =
    some (0, 0x104, [.fetch 0x100]) := by decide

/-- Vector CT24: BLT. -/
theorem test_blt_ct24 : ran (launch ⟨.rv32, .r32, [], false⟩ 0x100 [(1, 0xFFFFFFFF), (2, 0x00000000)] [] 0x0020C463) 0 =
    some (0, 0x108, [.fetch 0x100]) := by decide

/-- Vector CT26: BLT. -/
theorem test_blt_ct26 : ran (launch ⟨.rv64, .r32, [], false⟩ 0x100 [(1, 0x00000000FFFFFFFF), (2, 0x0000000000000000)] [] 0x0020C463) 0 =
    some (0, 0x104, [.fetch 0x100]) := by decide

/-- Vector CT27: BGE. -/
theorem test_bge_ct27 : ran (launch ⟨.rv32, .r32, [], false⟩ 0x100 [(1, 0x00000005), (2, 0x00000005)] [] 0x0020D463) 0 =
    some (0, 0x108, [.fetch 0x100]) := by decide

/-- Vector CT28: BGE. -/
theorem test_bge_ct28 : ran (launch ⟨.rv32, .r32, [], false⟩ 0x100 [(1, 0x80000000), (2, 0x00000000)] [] 0x0020D463) 0 =
    some (0, 0x104, [.fetch 0x100]) := by decide

/-- Vector CT29: BLTU. -/
theorem test_bltu_ct29 : ran (launch ⟨.rv32, .r32, [], false⟩ 0x100 [(1, 0x00000000), (2, 0xFFFFFFFF)] [] 0x0020E463) 0 =
    some (0, 0x108, [.fetch 0x100]) := by decide

/-- Vector CT30: BLTU. -/
theorem test_bltu_ct30 : ran (launch ⟨.rv32, .r32, [], false⟩ 0x100 [(1, 0x00000000)] [] 0x0000E463) 0 =
    some (0, 0x104, [.fetch 0x100]) := by decide

/-- Vector CT31: BGEU. -/
theorem test_bgeu_ct31 : ran (launch ⟨.rv32, .r32, [], false⟩ 0x100 [(1, 0xFFFFFFFF), (2, 0x00000001)] [] 0xFE20FCE3) 0 =
    some (0, 0xF8, [.fetch 0x100]) := by decide

/-- Vector CT32: BGEU. -/
theorem test_bgeu_ct32 : ran (launch ⟨.rv32, .r32, [], false⟩ 0x100 [(1, 0x00000000), (2, 0x00000001)] [] 0xFE20FCE3) 0 =
    some (0, 0x104, [.fetch 0x100]) := by decide

/-- Vector LS1: LB. -/
theorem test_lb_ls1 : ran (launch ⟨.rv32, .r32, [], false⟩ 0x100 [(6, 0x00001000)] loadData 0x00830283) 5 =
    some (0xFFFFFF80, 0x104, [.read 0x1008 .byte, .fetch 0x100]) := by decide

/-- Vector LS12: LB. -/
theorem test_lb_ls12 : ran (launch ⟨.rv32, .r32, [], false⟩ 0x100 [(6, 0x00001000)] [] 0x00830003) 6 =
    some (0x00001000, 0x104, [.trap .illegalInstruction, .fetch 0x100]) := by decide

/-- Vector LS3: LBU. -/
theorem test_lbu_ls3 : ran (launch ⟨.rv32, .r32, [], false⟩ 0x100 [(6, 0x00001000)] loadData 0x00834283) 5 =
    some (0x00000080, 0x104, [.read 0x1008 .byte, .fetch 0x100]) := by decide

/-- Vector LS4: LH. -/
theorem test_lh_ls4 : ran (launch ⟨.rv32, .r32, [], false⟩ 0x100 [(6, 0x00001000)] loadData 0x00831283) 5 =
    some (0xFFFFFF80, 0x104, [.read 0x1008 .half, .fetch 0x100]) := by decide

/-- Vector LS18: LH. -/
theorem test_lh_ls18 : ran (launch ⟨.rv32, .r32, ['C'], false⟩ 0x100 [(6, 0x00001000)] loadData 0x00A31283) 5 =
    some (0xFFFF9234, 0x104, [.read 0x100A .half, .fetch 0x100]) := by decide

/-- Vector LS5: LHU. -/
theorem test_lhu_ls5 : ran (launch ⟨.rv32, .r32, [], false⟩ 0x100 [(6, 0x00001000)] loadData 0x00835283) 5 =
    some (0x0000FF80, 0x104, [.read 0x1008 .half, .fetch 0x100]) := by decide

/-- Vector LS6: LW. -/
theorem test_lw_ls6 : ran (launch ⟨.rv32, .r32, [], false⟩ 0x100 [(6, 0x00001000)] loadData 0x00832283) 5 =
    some (0x9234FF80, 0x104, [.read 0x1008 .word, .fetch 0x100]) := by decide

/-- Vector LS13: LW. -/
theorem test_lw_ls13 : ran (launch ⟨.rv32, .r32, [], false⟩ 0x100 [(6, 0x00001000)] [] 0x00132003) 6 =
    some (0x00001000, 0x104, [.trap .illegalInstruction, .fetch 0x100]) := by decide

/-- Vector LS8: LWU. -/
theorem test_lwu_ls8 : ran (launch ⟨.rv64, .r32, [], false⟩ 0x100 [(6, 0x0000000000001000)] loadData 0x00836283) 5 =
    some (0x000000009234FF80, 0x104, [.read 0x1008 .word, .fetch 0x100]) := by decide

/-- Vector LS11: LWU. -/
theorem test_lwu_ls11 : ran (launch ⟨.rv32, .r32, [], false⟩ 0x100 [(6, 0x00001000)] [] 0x00836283) 6 =
    some (0x00001000, 0x104, [.trap .illegalInstruction, .fetch 0x100]) := by decide

/-- Vector LS9: LD. -/
theorem test_ld_ls9 : ran (launch ⟨.rv64, .r32, [], false⟩ 0x100 [(6, 0x0000000000001000)] loadData 0x00833283) 5 =
    some (0x123456789234FF80, 0x104, [.read 0x1008 .double, .fetch 0x100]) := by decide

/-- Vector LS10: LD. -/
theorem test_ld_ls10 : ran (launch ⟨.rv32, .r32, [], false⟩ 0x100 [(6, 0x00001000)] [] 0x00833283) 6 =
    some (0x00001000, 0x104, [.trap .illegalInstruction, .fetch 0x100]) := by decide

/-- Vector LS24: SB. -/
theorem test_sb_ls24 : ran (launch ⟨.rv32, .r32, [], false⟩ 0x100 [(6, 0x00001000), (7, 0x12345678)] [] 0x00730423) 0 =
    some (0, 0x104, [.write 0x1008 .byte 0x78, .fetch 0x100]) := by decide

/-- Vector LS31: SB. -/
theorem test_sb_ls31 : ran (launch ⟨.rv32, .r32, [], false⟩ 0x100 [(6, 0x00001000), (7, 0x000000AB)] [] 0x007304A3) 6 =
    some (0x00001000, 0x104, [.trap .instructionAddressMisaligned, .fetch 0x100]) := by decide

/-- Vector LS25: SH. -/
theorem test_sh_ls25 : ran (launch ⟨.rv32, .r32, [], false⟩ 0x100 [(6, 0x00001000), (7, 0x12345678)] [] 0x00731423) 0 =
    some (0, 0x104, [.write 0x1008 .half 0x5678, .fetch 0x100]) := by decide

/-- Vector LS32: SH. -/
theorem test_sh_ls32 : ran (launch ⟨.rv32, .r32, [], false⟩ 0x100 [(6, 0x00001000), (7, 0x0000ABCD)] [] 0x00731523) 6 =
    some (0x00001000, 0x104, [.trap .instructionAddressMisaligned, .fetch 0x100]) := by decide

/-- Vector LS26: SW. -/
theorem test_sw_ls26 : ran (launch ⟨.rv32, .r32, [], false⟩ 0x100 [(6, 0x00001000), (7, 0x12345678)] [] 0x00732423) 0 =
    some (0, 0x104, [.write 0x1008 .word 0x12345678, .fetch 0x100]) := by decide

/-- Vector LS34: SW. -/
theorem test_sw_ls34 : ran (launch ⟨.rv32, .r32, [], false⟩ 0x100 [(6, 0x00001000)] [] 0x00032423) 0 =
    some (0, 0x104, [.write 0x1008 .word 0x00000000, .fetch 0x100]) := by decide

/-- Vector LS28: SD. -/
theorem test_sd_ls28 : ran (launch ⟨.rv64, .r32, [], false⟩ 0x100 [(6, 0x0000000000001000), (7, 0x1122334455667788)] [] 0x00733423) 0 =
    some (0, 0x104, [.write 0x1008 .double 0x1122334455667788, .fetch 0x100]) := by decide

/-- Vector LS29: SD. -/
theorem test_sd_ls29 : ran (launch ⟨.rv32, .r32, [], false⟩ 0x100 [(6, 0x00001000), (7, 0x00000001)] [] 0x00733423) 6 =
    some (0x00001000, 0x104, [.trap .illegalInstruction, .fetch 0x100]) := by decide

/-- Vector E1: FENCE. -/
theorem test_fence_e1 : ran (launch ⟨.rv32, .r32, [], false⟩ 0x100 [] [] 0x0FF0000F) 0 =
    some (0, 0x104, [.fetch 0x100]) := by decide

/-- Vector E18: FENCE. -/
theorem test_fence_e18 : ran (launch ⟨.rv32, .r16, [], false⟩ 0x100 [] [] 0x0FF0000F) 0 =
    some (0, 0x104, [.fetch 0x100]) := by decide

/-- Vector E3: UNKNOWN. -/
theorem test_unknown_e3 : ran (launch ⟨.rv32, .r32, [], false⟩ 0x100 [] [] 0x0000100F) 0 =
    some (0, 0x104, [.trap .illegalInstruction, .fetch 0x100]) := by decide

/-- Vector E6: UNKNOWN. -/
theorem test_unknown_e6 : ran (launch ⟨.rv32, .r32, [], false⟩ 0x100 [] [] 0x30200073) 0 =
    some (0, 0x104, [.trap .illegalInstruction, .fetch 0x100]) := by decide

/-- Vector E4: ECALL. -/
theorem test_ecall_e4 : ran (launch ⟨.rv32, .r32, [], false⟩ 0x100 [(10, 0x0000005D)] [] 0x00000073) 10 =
    some (0x0000005D, 0x104, [.trap .systemCall, .fetch 0x100]) := by decide

/-- Vector E5: EBREAK. -/
theorem test_ebreak_e5 : ran (launch ⟨.rv32, .r32, [], false⟩ 0x100 [] [] 0x00100073) 0 =
    some (0, 0x104, [.trap .breakpoint, .fetch 0x100]) := by decide

/-- Vector M1: MUL. -/
theorem test_mul_m1 : ran (launch ⟨.rv32, .r32, ['M'], false⟩ 0x100 [(1, 0xFFFFFFFF), (2, 0xFFFFFFFF)] [] 0x022081B3) 3 =
    some (0x00000001, 0x104, [.fetch 0x100]) := by decide

/-- Vector E8: MUL. -/
theorem test_mul_e8 : ran (launch ⟨.rv32, .r32, [], false⟩ 0x100 [(1, 0x00000003), (2, 0x00000004)] [] 0x022081B3) 1 =
    some (0x00000003, 0x104, [.trap .illegalInstruction, .fetch 0x100]) := by decide

/-- Vector M3: MULH. -/
theorem test_mulh_m3 : ran (launch ⟨.rv32, .r32, ['M'], false⟩ 0x100 [(1, 0x80000000), (2, 0x80000000)] [] 0x022091B3) 3 =
    some (0x40000000, 0x104, [.fetch 0x100]) := by decide

/-- Vector M4: MULH. -/
theorem test_mulh_m4 : ran (launch ⟨.rv32, .r32, ['M'], false⟩ 0x100 [(1, 0xFFFFFFFF), (2, 0xFFFFFFFF)] [] 0x022091B3) 3 =
    some (0x00000000, 0x104, [.fetch 0x100]) := by decide

/-- Vector M5: MULHSU. -/
theorem test_mulhsu_m5 : ran (launch ⟨.rv32, .r32, ['M'], false⟩ 0x100 [(1, 0xFFFFFFFF), (2, 0xFFFFFFFF)] [] 0x0220A1B3) 3 =
    some (0xFFFFFFFF, 0x104, [.fetch 0x100]) := by decide

/-- Vector M6: MULHU. -/
theorem test_mulhu_m6 : ran (launch ⟨.rv32, .r32, ['M'], false⟩ 0x100 [(1, 0xFFFFFFFF), (2, 0xFFFFFFFF)] [] 0x0220B1B3) 3 =
    some (0xFFFFFFFE, 0x104, [.fetch 0x100]) := by decide

/-- Vector M7: DIV. -/
theorem test_div_m7 : ran (launch ⟨.rv32, .r32, ['M'], false⟩ 0x100 [(1, 0xFFFFFFF9), (2, 0x00000002)] [] 0x0220C1B3) 3 =
    some (0xFFFFFFFD, 0x104, [.fetch 0x100]) := by decide

/-- Vector M32: DIV. -/
theorem test_div_m32 : ran (launch ⟨.rv32, .r32, ['M'], false⟩ 0x100 [(1, 0x00000008), (2, 0x00000002)] [] 0x0220C033) 0 =
    some (0, 0x104, [.fetch 0x100]) := by decide

/-- Vector M12: DIVU. -/
theorem test_divu_m12 : ran (launch ⟨.rv32, .r32, ['M'], false⟩ 0x100 [(1, 0xFFFFFFF9), (2, 0x00000002)] [] 0x0220D1B3) 3 =
    some (0x7FFFFFFC, 0x104, [.fetch 0x100]) := by decide

/-- Vector M13: DIVU. -/
theorem test_divu_m13 : ran (launch ⟨.rv32, .r32, ['M'], false⟩ 0x100 [(1, 0x00000007), (2, 0x00000000)] [] 0x0220D1B3) 3 =
    some (0xFFFFFFFF, 0x104, [.fetch 0x100]) := by decide

/-- Vector M14: REM. -/
theorem test_rem_m14 : ran (launch ⟨.rv32, .r32, ['M'], false⟩ 0x100 [(1, 0xFFFFFFF9), (2, 0x00000002)] [] 0x0220E1B3) 3 =
    some (0xFFFFFFFF, 0x104, [.fetch 0x100]) := by decide

/-- Vector M17: REM. -/
theorem test_rem_m17 : ran (launch ⟨.rv32, .r32, ['M'], false⟩ 0x100 [(1, 0x80000000), (2, 0xFFFFFFFF)] [] 0x0220E1B3) 3 =
    some (0x00000000, 0x104, [.fetch 0x100]) := by decide

/-- Vector M18: REMU. -/
theorem test_remu_m18 : ran (launch ⟨.rv32, .r32, ['M'], false⟩ 0x100 [(1, 0x00000007), (2, 0xFFFFFFFE)] [] 0x0220F1B3) 3 =
    some (0x00000007, 0x104, [.fetch 0x100]) := by decide

/-- Vector M19: REMU. -/
theorem test_remu_m19 : ran (launch ⟨.rv32, .r32, ['M'], false⟩ 0x100 [(1, 0x00000007), (2, 0x00000000)] [] 0x0220F1B3) 3 =
    some (0x00000007, 0x104, [.fetch 0x100]) := by decide

/-- Vector M20: MULW. -/
theorem test_mulw_m20 : ran (launch ⟨.rv64, .r32, ['M'], false⟩ 0x100 [(1, 0x0000000000010000), (2, 0x0000000000008000)] [] 0x022081BB) 3 =
    some (0xFFFFFFFF80000000, 0x104, [.fetch 0x100]) := by decide

/-- Vector M31: MULW. -/
theorem test_mulw_m31 : ran (launch ⟨.rv32, .r32, ['M'], false⟩ 0x100 [(1, 0x00000003), (2, 0x00000004)] [] 0x022081BB) 1 =
    some (0x00000003, 0x104, [.trap .illegalInstruction, .fetch 0x100]) := by decide

/-- Vector M21: DIVW. -/
theorem test_divw_m21 : ran (launch ⟨.rv64, .r32, ['M'], false⟩ 0x100 [(1, 0xFFFFFFFFFFFFFFF9), (2, 0x0000000000000002)] [] 0x0220C1BB) 3 =
    some (0xFFFFFFFFFFFFFFFD, 0x104, [.fetch 0x100]) := by decide

/-- Vector M23: DIVW. -/
theorem test_divw_m23 : ran (launch ⟨.rv64, .r32, ['M'], false⟩ 0x100 [(1, 0x0000000100000007), (2, 0x0000000100000000)] [] 0x0220C1BB) 3 =
    some (0xFFFFFFFFFFFFFFFF, 0x104, [.fetch 0x100]) := by decide

/-- Vector M24: DIVUW. -/
theorem test_divuw_m24 : ran (launch ⟨.rv64, .r32, ['M'], false⟩ 0x100 [(1, 0xFFFFFFFFFFFFFFF9), (2, 0x0000000000000002)] [] 0x0220D1BB) 3 =
    some (0x000000007FFFFFFC, 0x104, [.fetch 0x100]) := by decide

/-- Vector M25: DIVUW. -/
theorem test_divuw_m25 : ran (launch ⟨.rv64, .r32, ['M'], false⟩ 0x100 [(1, 0x0000000000000007), (2, 0x0000000000000000)] [] 0x0220D1BB) 3 =
    some (0xFFFFFFFFFFFFFFFF, 0x104, [.fetch 0x100]) := by decide

/-- Vector M26: REMW. -/
theorem test_remw_m26 : ran (launch ⟨.rv64, .r32, ['M'], false⟩ 0x100 [(1, 0xFFFFFFFFFFFFFFF9), (2, 0x0000000000000002)] [] 0x0220E1BB) 3 =
    some (0xFFFFFFFFFFFFFFFF, 0x104, [.fetch 0x100]) := by decide

/-- Vector M28: REMW. -/
theorem test_remw_m28 : ran (launch ⟨.rv64, .r32, ['M'], false⟩ 0x100 [(1, 0x0000000080000000), (2, 0x00000000FFFFFFFF)] [] 0x0220E1BB) 3 =
    some (0x0000000000000000, 0x104, [.fetch 0x100]) := by decide

/-- Vector M29: REMUW. -/
theorem test_remuw_m29 : ran (launch ⟨.rv64, .r32, ['M'], false⟩ 0x100 [(1, 0x0000000100000007), (2, 0x0000000100000002)] [] 0x0220F1BB) 3 =
    some (0x0000000000000001, 0x104, [.fetch 0x100]) := by decide

/-- Vector M30: REMUW. -/
theorem test_remuw_m30 : ran (launch ⟨.rv64, .r32, ['M'], false⟩ 0x100 [(1, 0x0000000080000000), (2, 0x0000000000000000)] [] 0x0220F1BB) 3 =
    some (0xFFFFFFFF80000000, 0x104, [.fetch 0x100]) := by decide

/-- A word store leaves its four bytes, least significant first. -/
theorem test_store_bytes :
    (nextState (step (launch ⟨.rv32, .r32, [], false⟩ 0x100 [(6, 0x1000), (7, 0x1234CDEE)] [] 0x00732423))).map
      (fun t => (t.byte 0x1008, t.byte 0x1009, t.byte 0x100A, t.byte 0x100B, t.byte 0x100C)) =
      some (0xEE, 0xCD, 0x34, 0x12, 0) := by decide

/-- Refused steps: a 2-byte and a 24-byte class, and `x16` when `NREGS` = 16 (vectors E10, E11, E17). -/
theorem test_refused :
    refusalOf (step (launch ⟨.rv32, .r32, [], false⟩ 0x100 [] [] 0x00000000)) = some (.unsupportedLength 2) ∧
    refusalOf (step (launch ⟨.rv32, .r32, [], false⟩ 0x100 [] [] 0xFFFFFFFF)) = some (.unsupportedLength 24) ∧
    refusalOf (step (launch ⟨.rv32, .r16, [], false⟩ 0x100 [] [] 0x01000023)) = some .regIndex := by decide

/-- The launch premise. -/
theorem test_construct_refused :
    refusalOf (State.construct ⟨.rv32, .r32, [], false⟩ (1 :: List.replicate 31 0) 0 []) = some .launchPremise := by decide

/-! ### Witnesses: the hypotheses of every obligation that has any are met together -/

/-- A result that holds a next state answers one. -/
theorem next_of_isSome {r : Result} (h : (nextState r).isSome = true) : ∃ t, r = .next t := by
  cases r with
  | next t => exact ⟨t, rfl⟩
  | fault f => exact nomatch f
  | refused _ => cases h

/-- A run of one step. -/
theorem run_one {s t : State} (h : step s = .next t) : core.run 1 s = .next t := by
  have general : ∀ (M : Host.Core) (s t : M.State), M.step s = .next t → M.run 1 s = .next t := by
    intro M s t h
    rw [Host.Core.run, h]
    rfl
  exact general core s t h

/-- A 64-bit hart with `M`: `x1` = 16, `x2` = -3. -/
def hart64 (w : Nat) : State := launch ⟨.rv64, .r32, ['M'], false⟩ 0x100 [(1, 16), (2, 0xFFFFFFFFFFFFFFFD)] [] w

/-- A 32-bit hart of 16 registers with `C`: `x1` = 18, `x15` = -3. -/
def hart32 (w : Nat) : State := launch ⟨.rv32, .r16, ['C'], false⟩ 0x102 [(1, 18), (15, 0xFFFFFFFD)] [] w

/-- `ADDI x5, x5, 1`, `EBREAK`, `JAL x0, 0`. -/
def addiWord : Nat := 0x00128293

theorem hart64_inv : (hart64 addiWord).Inv := by constructor <;> decide

theorem hart32_inv : (hart32 addiWord).Inv := by constructor <;> decide

/-- `initial_registers` of 16 entries, the largest 32-bit value among them. -/
def registers16 : List Word := [0, 0xFFFFFFFF, 1, 2, 3, 4, 5, 6, 7, 8, 9, 10, 11, 12, 13, 0xFFFFFFFF]

theorem witness_ConstructionLeavesHostArguments :
    registers16.length = NRegs.r16.count ∧ (∀ v ∈ registers16, v.toNat < 2 ^ Xlen.rv32.bits) ∧ registers16.head? = some 0 ∧
      (0xFFFFFFFC : Word).toNat < 2 ^ Xlen.rv32.bits := by
  refine ⟨by decide, ?_, by decide, by decide⟩
  simp [registers16, Xlen.bits]

theorem witness_ConstructionRefusesBrokenPremises :
    ([1] : List Word).head? ≠ some 0 ∧ (List.replicate 31 (0 : Word)).length ≠ NRegs.r32.count := by decide

theorem witness_StepKeepsInvariant :
    ((hart64 addiWord).Inv ∧ ∃ t, step (hart64 addiWord) = .next t) ∧
    ((hart32 addiWord).Inv ∧ ∃ t, step (hart32 addiWord) = .next t) :=
  ⟨⟨hart64_inv, next_of_isSome (by decide)⟩, ⟨hart32_inv, next_of_isSome (by decide)⟩⟩

/-- A launch with `ADDI x5, x5, 1` at the pc, and its first step. -/
theorem witness_RunsFromLaunchMeetInvariant :
    ∃ s t, State.construct ⟨.rv32, .r16, [], false⟩ (List.replicate 16 0) 0x100 [(0x100, 0x93), (0x101, 0x82), (0x102, 0x12)] =
        .next s ∧
      misaligned false 0x100 = false ∧ Memory.wf [(0x100, 0x93), (0x101, 0x82), (0x102, 0x12)] = true ∧
      (∀ c ∈ ([(0x100, 0x93), (0x101, 0x82), (0x102, 0x12)] : Memory), c.1 < 2 ^ Xlen.rv32.bits) ∧ core.run 1 s = .next t := by
  obtain ⟨s, hs⟩ := next_of_isSome (r := State.construct ⟨.rv32, .r16, [], false⟩ (List.replicate 16 0) 0x100
    [(0x100, 0x93), (0x101, 0x82), (0x102, 0x12)]) (by decide)
  have hn : ((nextState (State.construct ⟨.rv32, .r16, [], false⟩ (List.replicate 16 0) 0x100
    [(0x100, 0x93), (0x101, 0x82), (0x102, 0x12)])).bind fun s => nextState (step s)).isSome = true := by decide
  rw [hs] at hn
  obtain ⟨t, ht⟩ := next_of_isSome (r := step s) hn
  exact ⟨s, t, hs, by decide, by decide, by decide, run_one ht⟩

/-- A run, from a state with `x[0]` = 0. -/
theorem witness_ZeroRegisterKeepsItsValue :
    (∃ t, core.run 1 (hart64 addiWord) = .next t) ∧ (hart64 addiWord).reg 0 = 0 := by
  obtain ⟨t, ht⟩ := next_of_isSome (r := step (hart64 addiWord)) (by decide)
  exact ⟨⟨t, run_one ht⟩, by decide⟩

theorem witness_ConfigurationNeverChanges : ∃ t, core.run 1 (hart64 addiWord) = .next t := witness_ZeroRegisterKeepsItsValue.1

theorem witness_OtherLettersAndAbiNameHaveNoEffect :
    ['Q', 'M'].contains 'M' = (hart64 addiWord).config.extM ∧ ['Q', 'M'].contains 'C' = (hart64 addiWord).config.extC ∧
    ∃ t, step (hart64 addiWord) = .next t := ⟨by decide, by decide, next_of_isSome (by decide)⟩

/-- Four bytes at the pc that decode. -/
theorem witness_StepRunsDecodedInstruction :
    let s := hart64 addiWord
    decodeBytes s.xlen [s.byte (s.address s.pc.toNat), s.byte (s.address (s.pc.toNat + 1)), s.byte (s.address (s.pc.toNat + 2)),
      s.byte (s.address (s.pc.toNat + 3))] = .ok (.addi 5 5 1, []) := by decide

theorem witness_DecodeOfEncode : (Instr.jal 1 0x1FFFFE).wellFormed .rv32 = true ∧ (Instr.srai 1 2 31).wellFormed .rv32 = true := by
  decide

theorem witness_EncodeOfDecode : decodeWord .rv64 0x43F75713 = .ok (.srai 14 14 63) := by decide

/-- Both sides of the equivalence, true and false. -/
theorem witness_DecoderAgreesWithOpcodeTable :
    (decodeWord .rv32 0x0220C1B3 = .ok (.div 3 1 2) ∧
      ∃ row ∈ opcodeRows .rv32, row.tag = .DIV ∧ (0x0220C1B3 : Opcode) &&& row.mask = row.value) ∧
    (decodeWord .rv32 0x02011093 = .error .unknown ∧
      ∀ row ∈ opcodeRows .rv32, (0x02011093 : Opcode) &&& row.mask ≠ row.value) := by decide

theorem witness_OpcodeRowsExclusive :
    (⟨.ADDI, 0x0000707F, 0x00000013⟩ : OpcodeRow) ∈ opcodeRows .rv64 ∧ (0x00128293 : Opcode) &&& 0x0000707F = 0x00000013 := by
  decide

theorem witness_LatchHoldsFormatRecord :
    decodeWord (hart64 addiWord).xlen (hart64 addiWord).fetchOpcode = .ok (.addi 5 5 1) ∧
    tagEnabled (hart64 addiWord).config (Instr.addi 5 5 1).tag = true ∧ ∃ t, step (hart64 addiWord) = .next t :=
  ⟨by decide, by decide, next_of_isSome (by decide)⟩

/-- Each clause, at the first and last value of its class: 0x0002, 0x0003 and 0x001B, 0x001F, 0x003F, 0x007F and 0x6FFF, 0x7FFF
(spec/30_encoding.md R61). -/
theorem witness_LengthClasses :
    2 % 4 ≠ 3 ∧ (3 % 4 = 3 ∧ 3 / 4 % 8 ≠ 7) ∧ (0x1B % 4 = 3 ∧ 0x1B / 4 % 8 ≠ 7) ∧ 0x1F % 64 = 31 ∧ 0x3F % 128 = 63 ∧
    (0x7F % 128 = 127 ∧ 0x7F / 4096 % 8 ≠ 7) ∧ (0x6FFF % 128 = 127 ∧ 0x6FFF / 4096 % 8 = 6) ∧
    (0x7FFF % 128 = 127 ∧ 0x7FFF / 4096 % 8 = 7) := by decide

/-- A word no row matches; a word of each group that is not enabled (I64, M32, M64 on a 32-bit hart without `M`; M64 without `M` on
a 64-bit one). -/
theorem witness_UnrecognisedWordsTrap :
    (opcodeLength (hart64 0x0000100F).fetchOpcode = 4 ∧
      ∀ row ∈ opcodeRows (hart64 0x0000100F).xlen, (hart64 0x0000100F).fetchOpcode &&& row.mask ≠ row.value) ∧
    (decodeWord (hart32 0x0011009B).xlen (hart32 0x0011009B).fetchOpcode = .ok (.addiw 1 2 1) ∧ groupOf .ADDIW = .i64 ∧
      (hart32 0x0011009B).xlen = .rv32) ∧
    (decodeWord (hart32 0x022081B3).xlen (hart32 0x022081B3).fetchOpcode = .ok (.mul 3 1 2) ∧ groupOf .MUL = .m32 ∧
      (hart32 0x022081B3).config.extM = false) ∧
    (decodeWord (hart32 0x022081BB).xlen (hart32 0x022081BB).fetchOpcode = .ok (.mulw 3 1 2) ∧ groupOf .MULW = .m64 ∧
      (hart32 0x022081BB).xlen = .rv32) := by decide

theorem witness_DisabledTagsTrap :
    ((Instr.sd 1 2 0).tag = .SD ∧ (hart32 0).xlen = .rv32) ∧ ((Instr.remu 1 2 31).tag = .REMU ∧ (hart32 0).config.extM = false) ∧
    ((Instr.remuw 1 2 3).tag = .REMUW ∧ (hart32 0).config.extM = false ∧ (hart32 0).xlen = .rv32) := by decide

/-- The first absent index in each field. -/
theorem witness_AbsentRegistersRefused :
    (hart32 0).config.nregs = .r16 ∧ tagEnabled (hart32 0).config .ADD = true ∧
    16 ≤ (recordOf .rv32 0 (.add 16 1 2)).rd.toNat ∧ 16 ≤ (recordOf .rv32 0 (.add 1 16 2)).rs1.toNat ∧
    16 ≤ (recordOf .rv32 0 (.add 1 2 16)).rs2.toNat := by decide

/-- A step of each kind: refused for its length, refused for a register index, and answered. -/
theorem witness_StepRefusedExactly :
    refusalOf (step (hart32 0x00000001)) = some (.unsupportedLength 2) ∧ refusalOf (step (hart32 0x01000023)) = some .regIndex ∧
    (nextState (step (hart32 addiWord))).isSome = true := by decide

/-- Registers that exist: the last one of each register-file size. -/
theorem witness_hasRegisters : (hart64 0).hasRegisters [31, 1, 2] ∧ (hart32 0).hasRegisters [15, 1, 0] := by
  unfold State.hasRegisters
  decide

theorem witness_UpperImmediateResults : (hart64 0).hasRegisters [31] ∧ (hart32 0).hasRegisters [15] := by
  unfold State.hasRegisters
  decide

theorem witness_ImmediateArithmeticResults : (hart64 0).hasRegisters [31, 1] ∧ (hart32 0).hasRegisters [15, 15] := by
  unfold State.hasRegisters
  decide

theorem witness_ShiftImmediateResults :
    ((hart64 0).hasRegisters [31, 1] ∧ (63 : BitVec 6).toNat < (hart64 0).xlen.bits) ∧
    ((hart32 0).hasRegisters [15, 1] ∧ (31 : BitVec 6).toNat < (hart32 0).xlen.bits) := by
  unfold State.hasRegisters
  decide

theorem witness_WordImmediateResults : (hart64 0).xlen = .rv64 ∧ (hart64 0).hasRegisters [31, 1] := by
  unfold State.hasRegisters
  decide

theorem witness_RegisterArithmeticResults : (hart64 0).hasRegisters [31, 1, 2] ∧ (hart32 0).hasRegisters [15, 1, 0] :=
  witness_hasRegisters

theorem witness_RegisterShiftResults : (hart64 0).hasRegisters [31, 1, 2] ∧ (hart32 0).hasRegisters [15, 1, 0] := witness_hasRegisters

theorem witness_WordRegisterResults : (hart64 0).xlen = .rv64 ∧ (hart64 0).hasRegisters [31, 1, 2] := by
  unfold State.hasRegisters
  decide

theorem witness_MultiplyResults : (hart64 0).config.extM = true ∧ (hart64 0).hasRegisters [31, 1, 2] := by
  unfold State.hasRegisters
  decide

/-- A 32-bit hart with the operands of a signed division overflow. -/
def overflow32 : State := launch ⟨.rv32, .r32, ['M'], false⟩ 0 [(1, 0x80000000), (2, 0xFFFFFFFF)] [] 0

/-- A division by a nonzero value, by zero (`x0`), and the signed overflow, on a 32-bit hart. -/
theorem witness_DivideResults :
    ((hart64 0).config.extM = true ∧ (hart64 0).hasRegisters [31, 1, 2] ∧ (hart64 0).u 2 ≠ 0 ∧ (hart64 0).u 0 = 0) ∧
    (overflow32.config.extM = true ∧ overflow32.hasRegisters [3, 1, 2] ∧ overflow32.u 2 ≠ 0 ∧
      overflow32.sg 1 = -2 ^ (overflow32.xlen.bits - 1) ∧ overflow32.sg 2 = -1) := by
  unfold State.hasRegisters
  decide

/-- As for the 64-bit forms, on the low words. -/
theorem witness_MulDivWordResults :
    let s := launch ⟨.rv64, .r32, ['M'], false⟩ 0 [(1, 0x180000000), (2, 0xFFFFFFFF), (4, 0x100000000)] [] 0
    s.xlen = .rv64 ∧ s.config.extM = true ∧ s.hasRegisters [3, 1, 2] ∧ s.sg32 1 = -2 ^ 31 ∧ s.sg32 2 = -1 ∧ s.u32 4 = 0 := by
  unfold State.hasRegisters
  decide

/-- The canonical `NOP`, a multiply into `x0`, and a `FENCE`. -/
theorem witness_ComputationWithoutDestination :
    (isComputational (.addi 0 0 0) = true ∧ destination (.addi 0 0 0) = some 0 ∧ tagEnabled (hart64 0).config .ADDI = true) ∧
    (isComputational (.mul 0 1 31) = true ∧ destination (.mul 0 1 31) = some 0 ∧ tagEnabled (hart64 0).config .MUL = true) ∧
    tagEnabled (hart64 0).config .FENCE = true ∧ (hart64 0).hasRegisters [1, 31] := by
  unfold State.hasRegisters
  decide

/-- An aligned and a misaligned target: without `C` at 2 modulo 4, with `C` at an odd address. -/
theorem witness_JalResults :
    (hart64 0).hasRegisters [31] ∧ (hart64 0).aligned ((hart64 0).pc.toNat + (-4 : BitVec 21).toInt) ∧
    ¬ (hart64 0).aligned ((hart64 0).pc.toNat + (2 : BitVec 21).toInt) ∧
    (hart32 0).aligned ((hart32 0).pc.toNat + (2 : BitVec 21).toInt) ∧
    ¬ (hart32 0).aligned ((hart32 0).pc.toNat + (1 : BitVec 21).toInt) := by
  unfold State.hasRegisters State.aligned
  decide

/-- An aligned and a misaligned `JALR` target (bit 0 is cleared first). -/
theorem witness_JalrResults :
    (hart64 0).hasRegisters [1, 1] ∧ (hart64 0).aligned (2 * (((hart64 0).u 1 + (1 : BitVec 12).toInt) / 2)) ∧
    ¬ (hart64 0).aligned (2 * (((hart64 0).u 1 + (2 : BitVec 12).toInt) / 2)) := by
  unfold State.hasRegisters State.aligned
  decide

/-- Both outcomes of each condition, and an aligned and a misaligned target. -/
theorem witness_BranchResults :
    (hart64 0).hasRegisters [1, 2] ∧ (hart64 0).u 1 = (hart64 0).u 1 ∧ (hart64 0).u 1 ≠ (hart64 0).u 2 ∧
    (hart64 0).sg 2 < (hart64 0).sg 1 ∧ ¬ (hart64 0).sg 1 < (hart64 0).sg 2 ∧ (hart64 0).u 1 < (hart64 0).u 2 ∧
    ¬ (hart64 0).u 2 < (hart64 0).u 1 ∧ (hart64 0).aligned ((hart64 0).pc.toNat + (-8 : BitVec 13).toInt) ∧
    ¬ (hart64 0).aligned ((hart64 0).pc.toNat + (2 : BitVec 13).toInt) := by
  unfold State.hasRegisters State.aligned
  decide

theorem witness_JumpToItselfParks :
    (hart64 0x6F).fetchOpcode = 0x0000006F#32 ∧ (hart64 0x6F).pc.toNat < 2 ^ (hart64 0x6F).xlen.bits ∧
    misaligned (hart64 0x6F).config.extC (hart64 0x6F).pc = false := by decide

/-- An effective address at a multiple of 4 without `C`, at 2 modulo 4 with `C`, and one that wraps. -/
theorem witness_LoadResults :
    ((hart64 0).hasRegisters [31, 1] ∧ (31 : RegIdx) ≠ 0 ∧ (hart64 0).aligned ((hart64 0).u 1 + (-4 : BitVec 12).toInt) ∧
      (hart64 0).xlen = .rv64) ∧
    ((hart32 0).hasRegisters [15, 1] ∧ (15 : RegIdx) ≠ 0 ∧ (hart32 0).aligned ((hart32 0).u 1 + (0 : BitVec 12).toInt)) ∧
    (hart64 0).aligned ((hart64 0).u 0 + (-4 : BitVec 12).toInt) := by
  unfold State.hasRegisters State.aligned
  decide

theorem witness_LoadWithoutDestinationTraps :
    loadSize (.ld 0 1 0) = some .double ∧ destination (.ld 0 1 0) = some 0 ∧ tagEnabled (hart64 0).config .LD = true ∧
    (hart64 0).hasRegisters [1] := by
  unfold State.hasRegisters
  decide

/-- An address at 2 modulo 4 without `C`; an odd one with `C`. -/
theorem witness_MisalignedAccessTraps :
    (¬ (hart64 0).aligned ((hart64 0).u 1 + (2 : BitVec 12).toInt) ∧ (31 : RegIdx) ≠ 0 ∧ (hart64 0).hasRegisters [31, 1, 2] ∧
      tagEnabled (hart64 0).config .SD = true ∧ tagEnabled (hart64 0).config .LB = true) ∧
    (¬ (hart32 0).aligned ((hart32 0).u 1 + (1 : BitVec 12).toInt) ∧ (hart32 0).hasRegisters [15, 1, 0]) := by
  unfold State.hasRegisters State.aligned
  decide

theorem witness_StoreResults :
    ((hart64 0).hasRegisters [1, 31] ∧ (hart64 0).aligned ((hart64 0).u 1 + (-4 : BitVec 12).toInt) ∧ (hart64 0).xlen = .rv64) ∧
    ((hart32 0).hasRegisters [1, 15] ∧ (hart32 0).aligned ((hart32 0).u 1 + (0 : BitVec 12).toInt)) := by
  unfold State.hasRegisters State.aligned
  decide

theorem witness_ReadAfterWrite : AccessSize.half.bytes ≤ AccessSize.word.bytes ∧ AccessSize.double.bytes ≤ AccessSize.double.bytes := by
  decide

theorem witness_StoredWordIsFetched : 0xFFFFFFFF < 2 ^ 32 := by decide

/-- A step that takes a trap: `EBREAK`. -/
theorem trapped_ebreak : ∃ t, stepOutcome (hart64 0x00100073) = .trapped .breakpoint t := ⟨_, rfl⟩

theorem witness_TrappedStepChangesNothingElse : ∃ t, stepOutcome (hart64 0x00100073) = .trapped .breakpoint t := trapped_ebreak

theorem witness_EnvironmentCallsOfAStep :
    (∃ t, step (hart64 addiWord) = .next t) ∧ (∃ t, step (hart64 0x00100073) = .next t) ∧ (∃ t, step (hart64 0x0000A283) = .next t) ∧
    ∃ t, step (hart64 0x0020A023) = .next t :=
  ⟨next_of_isSome (by decide), next_of_isSome (by decide), next_of_isSome (by decide), next_of_isSome (by decide)⟩

/-- A run of one step that takes no trap. -/
theorem witness_HaltedRunsRecordNoTrap : ∃ t, hostRun .halts 1 (hart64 addiWord) = .ran t := ⟨_, rfl⟩

/-- A trapping step, and a step after it (the word after the `EBREAK` is `ADDI x5, x5, 1`). -/
theorem witness_ContinuedRunsFetchAfterTheTrap :
    let s := launch ⟨.rv64, .r32, [], false⟩ 0x100 [] [(0x104, 0x93), (0x105, 0x82), (0x106, 0x12)] 0x00100073
    ∃ t, stepOutcome s = .trapped .breakpoint t ∧ ∃ t', step t = .next t' := ⟨_, rfl, _, rfl⟩

theorem witness_RegisterFrame : (∃ t, exec (.add 3 1 2) (hart64 0) = .next t) ∧ destination (.add 3 1 2) ≠ some 4 :=
  ⟨next_of_isSome (by decide), by decide⟩

theorem witness_MemoryFrameWithoutStore : storeSize (.lw 3 1 0) = none ∧ ∃ t, exec (.lw 3 1 0) (hart64 0) = .next t :=
  ⟨rfl, next_of_isSome (by decide)⟩

/-- A store, and an address outside its bytes. -/
theorem witness_StoreFrame :
    storeSize (.sw 1 2 0) = some .word ∧ (∃ t, exec (.sw 1 2 0) (hart64 0) = .next t) ∧
    ∀ k, k < AccessSize.word.bytes →
      20 ≠ byteAddress (hart64 0).xlen (effectiveAddress ((hart64 0).latch (recordOf .rv64 (hart64 0).pc (.sw 1 2 0)))) k :=
  ⟨rfl, next_of_isSome (by decide), by decide⟩

theorem witness_PcAfterAnInstruction :
    (∃ t, exec (.add 3 1 2) (hart64 0) = .next t) ∧ ∃ t, exec (.jal 1 0x1FFFFC) (hart64 0) = .next t :=
  ⟨next_of_isSome (by decide), next_of_isSome (by decide)⟩

end Sys2Proof.Tests
end

section
/-! PROOFS. The zero register keeps its value (R22): the rule of an executor, of `exec`, of `step`, then of a run. -/

namespace Sys2Proof.Machine

/-- No executor changes the zero register: register writes go through the gated port (R105). -/
theorem Executed.reg_zero {i : Instr} {s t : State} (h : Executed i s t) : t.reg 0 = s.reg 0 := by
  cases h with
  | trap | nothing | branch | store => rfl
  | write => exact State.reg_zero_wr ..
  | jump a => exact State.reg_zero_wr (s.setPc a) ..
  | load n => exact State.reg_zero_wr (s.call (.read (effectiveAddress s) n)) ..

/-- Executing an instruction keeps the zero register, whether it traps as disabled or runs its executor. -/
theorem exec_reg_zero {i : Instr} {s t : State} (h : exec i s = .next t) : t.reg 0 = s.reg 0 := by
  obtain ⟨-, he⟩ | ⟨-, -, he⟩ | ⟨-, -, u, he, hu⟩ := exec_cases i s <;> rw [he] at h <;> cases h
  · rfl
  · exact hu.reg_zero

/-- A step keeps the zero register, whether the fetched word decodes or takes the trap of an unknown word. -/
theorem step_reg_zero {s t : State} (h : step s = .next t) : t.reg 0 = s.reg 0 := by
  obtain ⟨i, -, he⟩ | ⟨n, -, he⟩ | ⟨-, he⟩ := step_cases s <;> rw [he] at h
  · exact (exec_reg_zero h).trans (State.reg_call ..)
  · cases h
  · cases h; rfl

/-- A run of any number of steps keeps the zero register. -/
theorem run_reg_zero {k : Nat} {s t : State} (h : core.run k s = .next t) : State.reg t 0 = s.reg 0 :=
  run_induction (P := fun s t => t.reg 0 = s.reg 0) (fun _ => rfl)
    (fun _ _ _ hstep hrun => hrun.trans (step_reg_zero hstep)) h

/-- Settles O8: no step writes the zero register, so no run does. -/
theorem zeroRegisterKeepsItsValue : Obligations.ZeroRegisterKeepsItsValue :=
  fun _ _ _ hrun => ⟨run_reg_zero hrun, fun h0 => (run_reg_zero hrun).trans h0⟩

end Sys2Proof.Machine
end

section
/-! PROOFS. The latch after a step (R65 to R71): the executors keep the latched record, the record of a decoded instruction is the one
its format decoder makes of the fetched word, and the fields of that record as numbers. -/

namespace Sys2Proof

/-! ### The immediates of a word as integers (R66 to R70) -/

/-- Sign-extension to `XLEN` bits of a field known as an integer (R10). -/
theorem Xlen.sext_of_toInt (xl : Xlen) {n : Nat} {v : BitVec n} {z : Int} (hn : n ≤ 64) (h : v.toInt = z) :
    xl.sext v = xl.residue z := by
  rw [xl.sext_eq hn, h]

theorem Xlen.residue_zero (xl : Xlen) : xl.residue 0 = 0 := by
  rw [Xlen.residue, Int.zero_emod]; rfl

theorem immIOf_toInt (w : Opcode) :
    (immIOf w).toInt = (w.toNat / 2 ^ 20 % 2 ^ 11 : Nat) - (w.toNat / 2 ^ 31 % 2 ^ 1 : Nat) * 2 ^ 11 := by
  rw [BitVec.toInt_eq_toNat_cond, immIOf, extract_toNat]
  omega

theorem immSOf_toInt (w : Opcode) :
    (immSOf w).toInt = (w.toNat / 2 ^ 25 % 2 ^ 6 : Nat) * 2 ^ 5 + (w.toNat / 2 ^ 7 % 2 ^ 5 : Nat) -
      (w.toNat / 2 ^ 31 % 2 ^ 1 : Nat) * 2 ^ 11 := by
  have sign : w.toNat / 2 ^ 31 = w.toNat / 2 ^ 25 / 2 ^ 6 := by rw [Nat.div_div_eq_div_mul, ← pow_add]
  rw [BitVec.toInt_eq_toNat_cond, immSOf, sign]
  simp only [append_toNat, extract_toNat]
  omega

theorem immBOf_toInt (w : Opcode) :
    (immBOf w).toInt = (w.toNat / 2 ^ 7 % 2 ^ 1 : Nat) * 2 ^ 11 + (w.toNat / 2 ^ 25 % 2 ^ 6 : Nat) * 2 ^ 5 +
      (w.toNat / 2 ^ 8 % 2 ^ 4 : Nat) * 2 - (w.toNat / 2 ^ 31 % 2 ^ 1 : Nat) * 2 ^ 12 := by
  rw [BitVec.toInt_eq_toNat_cond, immBOf]
  simp only [append_toNat, extract_toNat, BitVec.toNat_ofNat]
  omega

theorem immUOf_append_toInt (w : Opcode) :
    (immUOf w ++ 0#12).toInt = (w.toNat / 2 ^ 12 % 2 ^ 19 : Nat) * 2 ^ 12 - (w.toNat / 2 ^ 31 % 2 ^ 1 : Nat) * 2 ^ 31 := by
  rw [BitVec.toInt_eq_toNat_cond, immUOf]
  simp only [append_toNat, extract_toNat, BitVec.toNat_ofNat]
  omega

theorem immJOf_toInt (w : Opcode) :
    (immJOf w).toInt = (w.toNat / 2 ^ 12 % 2 ^ 8 : Nat) * 2 ^ 12 + (w.toNat / 2 ^ 20 % 2 ^ 1 : Nat) * 2 ^ 11 +
      (w.toNat / 2 ^ 21 % 2 ^ 10 : Nat) * 2 - (w.toNat / 2 ^ 31 % 2 ^ 1 : Nat) * 2 ^ 20 := by
  rw [BitVec.toInt_eq_toNat_cond, immJOf]
  simp only [append_toNat, extract_toNat, BitVec.toNat_ofNat]
  omega

/-! ### The upper field of a classified shift-immediate (R79, R82) -/

/-- The bits above the shift amount of `w` are the ones the tag `t` demands, where `t` is a shift-immediate. -/
def UpperFieldFixed (w : Opcode) : Tag → Prop
  | .SLLI | .SRLI => funct6Of w = 0b000000#6
  | .SRAI => funct6Of w = 0b010000#6
  | .SLLIW | .SRLIW => funct7Of w = 0b0000000#7
  | .SRAIW => funct7Of w = 0b0100000#7
  | _ => True

/-- The XLEN-wide compare fixes the 6-bit field at both widths: the 7 bits of a 32-bit hart include it. -/
theorem funct6Of_of_upperFieldIs {xl : Xlen} {u : BitVec 6} {w : Opcode} (h : upperFieldIs xl u w = true) : funct6Of w = u := by
  cases xl with
  | rv32 =>
    have h7 : funct7Of w = u ++ 0#1 := by simpa [upperFieldIs] using h
    have hn := congrArg BitVec.toNat h7
    apply BitVec.eq_of_toNat_eq
    simp only [funct6Of, funct7Of, append_toNat, extract_toNat, BitVec.toNat_ofNat] at hn ⊢
    omega
  | rv64 => simpa [upperFieldIs] using h

theorem upperFieldFixed_classifyOpImm (xl : Xlen) (w : Opcode) : UpperFieldFixed w (classifyOpImm xl w) := by
  unfold classifyOpImm
  split
  case h_7 =>
    split
    · next h0 => exact funct6Of_of_upperFieldIs h0
    · trivial
  case h_8 =>
    split
    · next h0 => exact funct6Of_of_upperFieldIs h0
    · split
      · next h1 => exact funct6Of_of_upperFieldIs h1
      · trivial
  all_goals trivial

theorem upperFieldFixed_classifyOpImm32 (w : Opcode) : UpperFieldFixed w (classifyOpImm32 (funct7Of w) (funct3Of w)) := by
  unfold classifyOpImm32
  split
  case h_2 =>
    split
    · next h0 => exact h0
    · trivial
  case h_3 =>
    split
    · next h0 => exact h0
    · split
      · next h1 => exact h1
      · trivial
  all_goals trivial

theorem upperFieldFixed_classifyOp (w : Opcode) (f7 : BitVec 7) (f3 : BitVec 3) : UpperFieldFixed w (classifyOp f7 f3) := by
  unfold classifyOp classifyMulDiv classifyOpBase classifyOpAlt
  split
  case h_4 => trivial
  all_goals split <;> trivial

theorem upperFieldFixed_classifyOp32 (w : Opcode) (f7 : BitVec 7) (f3 : BitVec 3) : UpperFieldFixed w (classifyOp32 f7 f3) := by
  unfold classifyOp32 classifyMulDiv32 classifyOp32Base classifyOp32Alt
  split
  case h_4 => trivial
  all_goals split <;> trivial

theorem upperFieldFixed_classifySystem (w : Opcode) : UpperFieldFixed w (classifySystem w) := by
  unfold classifySystem
  split
  · trivial
  · split <;> trivial

/-- CLS gives a shift-immediate tag only to a word with that tag's upper field. -/
theorem upperFieldFixed_classify (xl : Xlen) (w : Opcode) : UpperFieldFixed w (classify xl w) := by
  unfold classify
  split
  case h_1 => unfold classifyLoad; split <;> trivial
  case h_2 | h_11 => split <;> trivial
  case h_3 => exact upperFieldFixed_classifyOpImm xl w
  case h_5 => exact upperFieldFixed_classifyOpImm32 w
  case h_6 => unfold classifyStore; split <;> trivial
  case h_7 => exact upperFieldFixed_classifyOp w _ _
  case h_9 => exact upperFieldFixed_classifyOp32 w _ _
  case h_10 => unfold classifyBranch; split <;> trivial
  case h_13 => exact upperFieldFixed_classifySystem w
  all_goals trivial

end Sys2Proof

namespace Sys2Proof.Machine

/-! ### The record of a decoded instruction -/

theorem recordI_shamt6 (xl : Xlen) (t : Tag) (pc : Word) {w : Opcode} {u : BitVec 6} (h : funct6Of w = u) :
    recordI xl t pc (rdOf w) (rs1Of w) (u ++ shamt6Of w) = fmtI xl t pc w := by
  rw [← h, funct6_shamt6]; rfl

theorem recordI_shamt5 (xl : Xlen) (t : Tag) (pc : Word) {w : Opcode} {u : BitVec 7} (h : funct7Of w = u) :
    recordI xl t pc (rdOf w) (rs1Of w) (u ++ shamt5Of w) = fmtI xl t pc w := by
  rw [← h, funct7_shamt5]; rfl

/-- The record of the instruction that the tag `t` makes of `w` is the record of `t`'s format decoder (R74 for the shifts). -/
theorem recordOf_of_instrOf (xl : Xlen) (pc : Word) {t : Tag} {w : Opcode} {i : Instr} (h : instrOf t w = .ok i)
    (hu : UpperFieldFixed w t) : recordOf xl pc i = formatRecord (formatOf t) xl t pc w := by
  cases t <;> cases h
  case SLLI | SRLI | SRAI => exact recordI_shamt6 xl _ pc hu
  case SLLIW | SRLIW | SRAIW => exact recordI_shamt5 xl _ pc hu
  all_goals rfl

theorem tag_of_instrOf {t : Tag} {w : Opcode} {i : Instr} (h : instrOf t w = .ok i) : i.tag = t := by
  cases t <;> cases h <;> rfl

/-- A word the decoder accepts was classified. -/
theorem instrOf_classify_of_decodeWord {xl : Xlen} {w : Opcode} {i : Instr} (h : decodeWord xl w = .ok i) :
    instrOf (classify xl w) w = .ok i := by
  unfold decodeWord at h
  split at h
  · exact h
  · cases h

/-- The record of a decoded instruction is the one FMT makes of the word (R63, R89). -/
theorem recordOf_of_decodeWord {xl : Xlen} (pc : Word) {w : Opcode} {i : Instr} (h : decodeWord xl w = .ok i) :
    recordOf xl pc i = formatRecord (formatOf i.tag) xl i.tag pc w := by
  have hi := instrOf_classify_of_decodeWord h
  rw [tag_of_instrOf hi]
  exact recordOf_of_instrOf xl pc hi (upperFieldFixed_classify xl w)

/-! ### The latch after a step -/

/-- No executor changes the latched record. -/
theorem Executed.inst {i : Instr} {s t : State} (h : Executed i s t) : t.inst = s.inst := by cases h <;> rfl

/-- Executing an enabled instruction leaves its record in the latch. -/
theorem exec_inst {i : Instr} {s t : State} (ht : tagEnabled s.config i.tag = true) (h : exec i s = .next t) :
    t.inst = recordOf s.xlen s.pc i := by
  obtain ⟨hd, -⟩ | ⟨-, -, he⟩ | ⟨-, -, u, he, hu⟩ := exec_cases i s
  · rw [ht] at hd; cases hd
  · rw [he] at h; cases h
  · rw [he] at h; cases h; exact hu.inst

/-- A step on a word that decodes executes the instruction. -/
theorem step_of_decodeWord {s : State} {i : Instr} (h : decodeWord s.xlen s.fetchOpcode = .ok i) :
    step s = exec i (s.call (.fetch s.pc)) := by
  rw [step, h]

/-- A step that runs an enabled instruction leaves the format decoder's record of the fetched word in the latch. -/
theorem step_inst {s t : State} {i : Instr} (hi : decodeWord s.xlen s.fetchOpcode = .ok i)
    (ht : tagEnabled s.config i.tag = true) (h : step s = .next t) :
    t.inst = formatRecord (formatOf i.tag) s.xlen i.tag s.pc s.fetchOpcode := by
  rw [step_of_decodeWord hi] at h
  exact (exec_inst (s := s.call (.fetch s.pc)) ht h).trans (recordOf_of_decodeWord s.pc hi)

/-- Settles O17: the latch holds FMT's record, whose register fields are bit fields of the word and whose immediate is the
sign-extension of an assembled field, format by format. -/
theorem latchHoldsFormatRecord : Obligations.LatchHoldsFormatRecord := by
  intro s t i hi ht h
  rw [step_inst hi ht h]
  cases formatOf i.tag with
  | R => exact ⟨rfl, rfl, extract_toNat .., extract_toNat .., extract_toNat .., s.xlen.residue_zero.symm⟩
  | I => exact ⟨rfl, rfl, extract_toNat .., extract_toNat .., rfl, s.xlen.sext_of_toInt (by decide) (immIOf_toInt _)⟩
  | S => exact ⟨rfl, rfl, rfl, extract_toNat .., extract_toNat .., s.xlen.sext_of_toInt (by decide) (immSOf_toInt _)⟩
  | B => exact ⟨rfl, rfl, rfl, extract_toNat .., extract_toNat .., s.xlen.sext_of_toInt (by decide) (immBOf_toInt _)⟩
  | U => exact ⟨rfl, rfl, extract_toNat .., rfl, rfl, s.xlen.sext_of_toInt (by decide) (immUOf_append_toInt _)⟩
  | J => exact ⟨rfl, rfl, extract_toNat .., rfl, rfl, s.xlen.sext_of_toInt (by decide) (immJOf_toInt _)⟩
  | Empty | Fail => exact ⟨rfl, rfl, rfl, rfl, rfl, s.xlen.residue_zero.symm⟩

end Sys2Proof.Machine
end

section
/-! PROOFS. The alignment detector (R112). -/

namespace Sys2Proof.Machine

/-- The low `k` bits of an address are not all 0 exactly when the address is no multiple of `2 ^ k`. -/
theorem lowBits_ne_zero_iff (a : Word) (k : Nat) : (a.extractLsb' 0 k != 0#k) = true ↔ a.toNat % 2 ^ k ≠ 0 := by
  have low : (a.extractLsb' 0 k).toNat = a.toNat % 2 ^ k := by rw [extract_toNat, pow_zero, Nat.div_one]
  rw [bne_iff_ne, ne_eq, BitVec.toNat_eq, low, BitVec.toNat_ofNat, Nat.zero_mod]

/-- Settles O34: the detector looks at bit 0 with C and at bits 1:0 without, and at nothing else of the address. -/
theorem alignmentDetector : Obligations.AlignmentDetector := by
  intro extC a
  cases extC with
  | true => exact lowBits_ne_zero_iff a 1
  | false => exact lowBits_ne_zero_iff a 2

end Sys2Proof.Machine
end

section
/-! PROOFS. The state invariant: each state update keeps it where the value written fits, so each executor, `exec`, `step` and every
run from a launch keep it. -/

namespace Sys2Proof.Machine

/-! ### The state updates -/

/-- Recording an environment call keeps the invariant (R41). -/
theorem State.Inv.call {s : State} (h : s.Inv) (c : EnvCall) : (s.call c).Inv :=
  ⟨h.zero, h.regs, h.pc, h.instPc, h.instImm, h.pcAligned, h.absent, h.memWf, h.memFits⟩

/-- Writing an existing register with an `XLEN`-bit value keeps the invariant (R105). -/
theorem State.Inv.wr {s : State} (h : s.Inv) {rd : RegIdx} {v : Word} (hrd : rd.toNat < s.config.nregs.count)
    (hv : v.toNat < 2 ^ s.xlen.bits) : (s.wr rd v).Inv where
  zero := (State.reg_zero_wr s rd v).trans h.zero
  regs r := by
    rw [State.reg_wr]
    split
    · exact hv
    · exact h.regs r
  pc := h.pc
  instPc := h.instPc
  instImm := h.instImm
  pcAligned := h.pcAligned
  absent r hr := by
    rw [State.reg_wr, if_neg]
    · exact h.absent r hr
    · rintro ⟨rfl, -⟩
      exact absurd hrd (Nat.not_lt.2 hr)
  memWf := h.memWf
  memFits := h.memFits

/-- Taking an aligned `XLEN`-bit pc keeps the invariant. -/
theorem State.Inv.setPc {s : State} (h : s.Inv) {a : Word} (ha : misaligned s.config.extC a = false)
    (hfits : a.toNat < 2 ^ s.xlen.bits) : (s.setPc a).Inv :=
  ⟨h.zero, h.regs, hfits, h.instPc, h.instImm, ha, h.absent, h.memWf, h.memFits⟩

/-- A write of memory keeps it canonical and inside the address space (R49). -/
theorem State.Inv.memWrite {s : State} (h : s.Inv) (a : Word) (n : AccessSize) (v : Word) : (s.memWrite a n v).Inv :=
  ⟨h.zero, h.regs, h.pc, h.instPc, h.instImm, h.pcAligned, h.absent, wf_writeFrom h.memWf a v 0 n.bytes,
    writeFrom_fits h.memFits a v 0 n.bytes⟩

/-- Latching a record of the instruction at the pc, with the advance by 4, keeps the invariant (R102, R112). -/
theorem State.Inv.latch {s : State} (h : s.Inv) {d : InstRecord} (hpc : d.pc = s.pc) (himm : d.imm.toNat < 2 ^ s.xlen.bits) :
    (s.latch d).Inv where
  zero := h.zero
  regs := h.regs
  pc := s.xlen.trunc_lt _
  instPc := (congrArg BitVec.toNat hpc).trans_lt h.pc
  instImm := himm
  pcAligned := add_four_aligned s.xlen (hpc ▸ h.pcAligned)
  absent := h.absent
  memWf := h.memWf
  memFits := h.memFits

/-! ### Executors, instructions, steps -/

/-- Every executor keeps the invariant, where the destination register exists. -/
theorem Executed.inv {i : Instr} {s t : State} (ht : Executed i s t) (h : s.Inv)
    (hrd : s.inst.rd.toNat < s.config.nregs.count) : t.Inv := by
  cases ht with
  | trap => exact h.call _
  | nothing => exact h
  | write v fits => exact h.wr hrd fits
  | jump a v _ aligned afits fits => exact (h.setPc aligned afits).wr hrd fits
  | branch a _ aligned afits => exact h.setPc aligned afits
  | load n v _ fits => exact (h.call _).wr hrd fits
  | store => exact h.memWrite ..

/-- A record that passes the index check has an existing destination (R21). -/
theorem rd_lt_of_indicesExist {n : NRegs} {d : InstRecord} (h : indicesExist n d = true) : d.rd.toNat < n.count := by
  simp only [indicesExist, Bool.and_eq_true, decide_eq_true_eq] at h
  exact h.1.1

/-- The Empty record has an `XLEN`-bit immediate (R71). -/
theorem fmtEmpty_imm_lt (xl : Xlen) (t : Tag) (pc : Word) : (fmtEmpty t pc).imm.toNat < 2 ^ xl.bits :=
  Nat.two_pow_pos xl.bits

/-- Executing an instruction keeps the invariant. -/
theorem exec_inv {i : Instr} {s t : State} (h : s.Inv) (hexec : exec i s = .next t) : t.Inv := by
  obtain ⟨-, he⟩ | ⟨-, -, he⟩ | ⟨-, hidx, u, he, hu⟩ := exec_cases i s <;> rw [he] at hexec <;> cases hexec
  · exact (h.latch rfl (fmtEmpty_imm_lt ..)).call _
  · exact hu.inv (h.latch (recordOf_pc ..) (recordOf_imm_lt ..)) (rd_lt_of_indicesExist hidx)

/-- Settles O5: the fetch only records a call, and each way a step can go on keeps the invariant. -/
theorem stepKeepsInvariant : Obligations.StepKeepsInvariant := by
  intro s t h hstep
  have hf := h.call (.fetch s.pc)
  obtain ⟨i, -, he⟩ | ⟨n, -, he⟩ | ⟨-, he⟩ := step_cases s <;> rw [he] at hstep
  · exact exec_inv hf hstep
  · cases hstep
  · cases hstep
    exact (hf.latch rfl (fmtEmpty_imm_lt ..)).call _

end Sys2Proof.Machine
end

section
/-! PROOFS. Construction and runs from a launch (R30, R250 to R253). -/

namespace Sys2Proof.Machine

/-- The state construction answers for arguments that meet the premises (R30, R251). -/
def State.launched (config : HartConfig) (regs : List Word) (pc : Word) (mem : Memory) : State :=
  { config := config, x := Vector.ofFn (fun r : Fin 32 => regs.getD r.val 0), pc := pc, inst := InstRecord.atReset, mem := mem,
    calls := [] }

/-- The launch premises, one by one (R6, R30, R253). -/
theorem launchPremises_iff {config : HartConfig} {regs : List Word} {pc : Word} :
    launchPremises config regs pc = true ↔ regs.length = config.nregs.count ∧ (∀ v ∈ regs, v.toNat < 2 ^ config.xlen.bits) ∧
      regs.head? = some 0 ∧ pc.toNat < 2 ^ config.xlen.bits := by
  simp only [launchPremises, Bool.and_eq_true, beq_iff_eq, List.all_eq_true, decide_eq_true_eq, and_assoc]

theorem construct_of_premises {config : HartConfig} {regs : List Word} {pc : Word} (mem : Memory)
    (h : launchPremises config regs pc = true) :
    State.construct config regs pc mem = .next (State.launched config regs pc mem) := if_pos h

/-- Construction answers a next state only under the premises, and then the launched state. -/
theorem construct_eq_next {config : HartConfig} {regs : List Word} {pc : Word} {mem : Memory} {s : State}
    (h : State.construct config regs pc mem = .next s) :
    launchPremises config regs pc = true ∧ s = State.launched config regs pc mem := by
  unfold State.construct at h
  split at h
  · next hp => cases h; exact ⟨hp, rfl⟩
  · cases h

theorem launched_reg (config : HartConfig) (regs : List Word) (pc : Word) (mem : Memory) (r : RegIdx) :
    (State.launched config regs pc mem).reg r = regs.getD r.toNat 0 := by
  rw [State.reg, State.launched, Vector.getElem_ofFn]

theorem launched_reg_zero {config : HartConfig} {regs : List Word} (pc : Word) (mem : Memory) (h : regs.head? = some 0) :
    (State.launched config regs pc mem).reg 0 = 0 := by
  rw [launched_reg]
  change regs.getD 0 0 = 0
  rw [List.getD_eq_getElem?_getD, ← List.head?_eq_getElem?, h]
  rfl

/-- A cell of the register list, or the 0 past its end, has `XLEN` bits where the list's entries have. -/
theorem getD_lt {regs : List Word} {bound : Nat} (h : ∀ v ∈ regs, v.toNat < bound) (hb : 0 < bound) (k : Nat) :
    (regs.getD k 0).toNat < bound := by
  by_cases hk : k < regs.length
  · rw [List.getD_eq_getElem _ _ hk]
    exact h _ (List.getElem_mem hk)
  · rw [List.getD_eq_default _ _ (Nat.le_of_not_lt hk)]
    exact hb

/-- A launch that meets the premises, with an aligned pc and canonical memory inside the address space, meets the invariant. -/
theorem launched_inv {config : HartConfig} {regs : List Word} {pc : Word} {mem : Memory}
    (h : launchPremises config regs pc = true) (hpc : misaligned config.extC pc = false) (hwf : Memory.wf mem = true)
    (hfits : ∀ c ∈ mem, c.1 < 2 ^ config.xlen.bits) : (State.launched config regs pc mem).Inv := by
  obtain ⟨hlen, hregs, hhead, hpcFits⟩ := launchPremises_iff.1 h
  have hpos : 0 < 2 ^ config.xlen.bits := Nat.two_pow_pos _
  exact {
    zero := launched_reg_zero pc mem hhead
    regs := fun r => (congrArg BitVec.toNat (launched_reg ..)).trans_lt (getD_lt hregs hpos _)
    pc := hpcFits
    instPc := hpos
    instImm := hpos
    pcAligned := hpc
    absent := fun r hr => (launched_reg ..).trans (List.getD_eq_default _ _ (hlen.trans_le hr))
    memWf := hwf
    memFits := hfits }

/-- Settles O1: the premises hold, and the launched state holds the host's arguments. -/
theorem constructionLeavesHostArguments : Obligations.ConstructionLeavesHostArguments := by
  intro config regs pc mem hlen hregs hhead hpc
  refine ⟨_, construct_of_premises mem (launchPremises_iff.2 ⟨hlen, hregs, hhead, hpc⟩), fun r hr => ?_,
    launched_reg_zero pc mem hhead, rfl, rfl, rfl, rfl⟩
  rw [launched_reg, List.getD_eq_getElem _ _ (hlen ▸ hr)]
  exact List.getElem?_eq_getElem _

/-- Settles O2: either broken clause makes the premises false. -/
theorem constructionRefusesBrokenPremises : Obligations.ConstructionRefusesBrokenPremises := by
  intro config regs pc mem h
  refine if_neg fun hp => ?_
  obtain ⟨hlen, -, hhead, -⟩ := launchPremises_iff.1 hp
  exact h.elim (· hhead) (· hlen)

/-- The reset state is the launched state of an RV64IM hart with zeros (log 2 to 5). -/
theorem launched_eq_reset : State.launched HartConfig.atReset (List.replicate 32 0) 0 [] = State.reset := by decide

/-- Settles O3: the zeros meet the premises, and what construction leaves of them is the reset state. -/
theorem resetIsConstructionWithZeros : Obligations.ResetIsConstructionWithZeros :=
  (construct_of_premises [] (by decide)).trans (congrArg Host.Outcome.next launched_eq_reset)

/-- Settles O4: the reset state is a launch that meets the premises. -/
theorem resetMeetsInvariant : Obligations.ResetMeetsInvariant := by
  rw [Obligations.ResetMeetsInvariant, ← launched_eq_reset]
  exact launched_inv (by decide) (by decide) (by decide) (by decide)

/-- Settles O6: the invariant holds at the launch and every step keeps it. -/
theorem runsFromLaunchMeetInvariant : Obligations.RunsFromLaunchMeetInvariant := by
  intro config regs pc mem s t k hc hpc hwf hfits hrun
  obtain ⟨hp, rfl⟩ := construct_eq_next hc
  exact run_induction (P := fun s t => s.Inv → t.Inv) (fun _ h => h)
    (fun s u _ hstep hrest h => hrest (stepKeepsInvariant s u h hstep)) hrun (launched_inv hp hpc hwf hfits)

/-- Settles O7: the gated port, read by read; with `rd` = 0 the register file is the old one. -/
theorem writePortIsGated : Obligations.WritePortIsGated := by
  intro s rd r v
  refine ⟨?_, fun h => ?_⟩
  · rw [State.reg_wr]
    simp only [and_comm]
  · rw [State.wr, if_pos h]

end Sys2Proof.Machine
end

section
/-! PROOFS. What `exec` and `step` leave unchanged: configuration, registers, memory, pc and the environment calls of a step, each first
for the executors; then the host's runs under either trap policy (R231 to R239). -/

namespace Sys2Proof.Machine

/-! ### `exec` by its next state -/

/-- A next state of `exec` is the illegal-instruction trap of a disabled tag, or what the executor makes of the latched state. -/
theorem exec_next_cases {i : Instr} {s t : State} (h : exec i s = .next t) :
    t = (s.latch (fmtEmpty i.tag s.pc)).call (.trap .illegalInstruction) ∨
      Executed i (s.latch (recordOf s.xlen s.pc i)) t := by
  obtain ⟨-, he⟩ | ⟨-, -, he⟩ | ⟨-, -, u, he, hu⟩ := exec_cases i s <;> rw [he] at h <;> cases h
  · exact .inl rfl
  · exact .inr hu

/-- Latching a record of the instruction at the pc leaves the pc at the next sequential address (R102). -/
theorem latch_pc_sequential {s : State} {d : InstRecord} (h : d.pc = s.pc) : (s.latch d).pc = s.sequential := by
  rw [State.latch_pc, h, Xlen.add_eq]
  rfl

/-! ### Configuration (R25) -/

theorem Executed.config {i : Instr} {s t : State} (h : Executed i s t) : t.config = s.config := by cases h <;> rfl

theorem exec_config {i : Instr} {s t : State} (h : exec i s = .next t) : t.config = s.config := by
  obtain rfl | hu := exec_next_cases h
  · rfl
  · exact hu.config

theorem step_config {s t : State} (h : step s = .next t) : t.config = s.config := by
  obtain ⟨i, -, he⟩ | ⟨n, -, he⟩ | ⟨-, he⟩ := step_cases s <;> rw [he] at h
  · exact exec_config (s := s.call (.fetch s.pc)) h
  · cases h
  · cases h; rfl

/-- Settles O9: no step writes the configuration, so no run does. -/
theorem configurationNeverChanges : Obligations.ConfigurationNeverChanges := fun _ _ _ hrun =>
  run_induction (P := fun s t => t.config = s.config) (fun _ => rfl)
    (fun _ _ _ hstep hrest => hrest.trans (step_config hstep)) hrun

/-! ### Registers (R105) -/

/-- The latched destination is the instruction's, or 0 where its format has none (R89). -/
theorem recordOf_rd (xl : Xlen) (pc : Word) (i : Instr) : (recordOf xl pc i).rd = (destination i).getD 0 := by cases i <;> rfl

/-- An executor writes no register but the latched destination. -/
theorem Executed.reg_of_ne {i : Instr} {s t : State} (h : Executed i s t) {r : RegIdx} (hr : r ≠ s.inst.rd) :
    t.reg r = s.reg r := by
  have unwritten : ∀ (u : State) (v : Word), (u.wr s.inst.rd v).reg r = u.reg r := fun u v =>
    (State.reg_wr ..).trans (if_neg fun ⟨e, _⟩ => hr e)
  cases h with
  | trap | nothing | branch | store => rfl
  | write => exact unwritten ..
  | jump a => exact unwritten (s.setPc a) _
  | load n => exact unwritten (s.call _) _

/-- Settles O51: a register that is not the destination, and `x[0]` always, is kept. -/
theorem registerFrame : Obligations.RegisterFrame := by
  intro i s t h
  refine ⟨fun r hr => ?_, exec_config h⟩
  by_cases h0 : r = 0
  · rw [h0]
    exact exec_reg_zero h
  · have hd : destination i ≠ some r := hr.resolve_right h0
    obtain rfl | hu := exec_next_cases h
    · rfl
    · refine (hu.reg_of_ne (r := r) ?_).trans (State.reg_latch ..)
      rw [State.latch_inst, recordOf_rd]
      cases hi : destination i with
      | none => exact h0
      | some rd => exact fun e => hd (hi.trans (congrArg some e.symm))

/-! ### Memory (R40, R44) -/

/-- The executor of an instruction that is no store changes no memory. -/
theorem Executed.mem_of_no_store {i : Instr} {s t : State} (h : Executed i s t) (hi : storeSize i = none) : t.mem = s.mem := by
  cases h with
  | store n size => rw [hi] at size; cases size
  | trap | nothing | write | jump | branch | load => rfl

/-- Settles O52: a disabled tag's trap touches no memory, and no executor but a store's does. -/
theorem memoryFrameWithoutStore : Obligations.MemoryFrameWithoutStore := by
  intro i s t hi h a
  obtain rfl | hu := exec_next_cases h
  · rfl
  · exact congrArg (Memory.readByte · a) (hu.mem_of_no_store hi)

/-- The frame of a write: a byte at none of its addresses reads as before (R44). -/
theorem State.byte_memWrite_of_ne {s : State} {a v : Word} {n : AccessSize} {b : Nat}
    (h : ∀ k, k < n.bytes → b ≠ byteAddress s.xlen a k) : (s.memWrite a n v).byte b = s.byte b :=
  readByte_writeFrom_of_ne fun k _ hk => h k (by omega)

/-- Settles O53: a store writes at its effective address and nowhere else. -/
theorem storeFrame : Obligations.StoreFrame := by
  intro i n s t hi h a ha
  obtain rfl | hu := exec_next_cases h
  · rfl
  · cases hu with
    | store m size =>
      obtain rfl : n = m := Option.some.inj (hi.symm.trans size)
      exact State.byte_memWrite_of_ne ha
    | trap | nothing | write | jump | branch | load => rfl

/-! ### The pc (R23, R102) -/

/-- An executor leaves the pc, or it is a transfer's and sets one that the detector accepts. -/
theorem Executed.pc_cases {i : Instr} {s t : State} (h : Executed i s t) :
    t.pc = s.pc ∨ isTransfer i = true ∧ misaligned s.config.extC t.pc = false := by
  cases h with
  | jump a v transfer aligned | branch a transfer aligned => exact .inr ⟨transfer, aligned⟩
  | trap | nothing | write | load | store => exact .inl rfl

/-- Settles O54: the latch has advanced the pc, which only the executor of a transfer sets again. -/
theorem pcAfterAnInstruction : Obligations.PcAfterAnInstruction := by
  intro i s t h
  obtain rfl | hu := exec_next_cases h
  · exact .inl (latch_pc_sequential rfl)
  · exact hu.pc_cases.imp_left (·.trans (latch_recordOf_pc s i))

/-! ### The environment calls of a step (R50, R103) -/

/-- What an executor can add to the environment calls: nothing, a trap and then nothing else changed, one read of a load, or one write
of a store. -/
theorem Executed.calls_cases {i : Instr} {s t : State} (h : Executed i s t) :
    t.calls = s.calls ∨ (∃ k, t = s.call (.trap k)) ∨ ∃ n,
      (loadSize i = some n ∧ ∃ a, t.calls = .read a n :: s.calls) ∨
      (storeSize i = some n ∧ ∃ a v, t.calls = .write a n v :: s.calls) := by
  cases h with
  | nothing | write | jump | branch => exact .inl rfl
  | trap k => exact .inr (.inl ⟨k, rfl⟩)
  | load n v size => exact .inr (.inr ⟨n, .inl ⟨size, _, rfl⟩⟩)
  | store n size => exact .inr (.inr ⟨n, .inr ⟨size, _, _, rfl⟩⟩)

/-- What a step can add to the environment calls: the fetch; the fetch and a trap, and then nothing but pc and latch changed; the fetch
and the one access of the decoded load or store. -/
theorem step_calls_cases {s t : State} (h : step s = .next t) :
    t.calls = .fetch s.pc :: s.calls ∨
    (∃ k d, d.pc = s.pc ∧ t = ((s.call (.fetch s.pc)).latch d).call (.trap k)) ∨
    ∃ i n, decodeWord s.xlen s.fetchOpcode = .ok i ∧
      ((loadSize i = some n ∧ ∃ a, t.calls = .read a n :: .fetch s.pc :: s.calls) ∨
       (storeSize i = some n ∧ ∃ a v, t.calls = .write a n v :: .fetch s.pc :: s.calls)) := by
  obtain ⟨i, hi, he⟩ | ⟨n, -, he⟩ | ⟨-, he⟩ := step_cases s <;> rw [he] at h
  · obtain rfl | hu := exec_next_cases h
    · exact .inr (.inl ⟨_, _, rfl, rfl⟩)
    · obtain hc | ⟨k, hk⟩ | ⟨n, hn⟩ := hu.calls_cases
      · exact .inl hc
      · exact .inr (.inl ⟨k, _, recordOf_pc .., hk⟩)
      · exact .inr (.inr ⟨i, n, hi, hn⟩)
  · cases h
  · cases h
    exact .inr (.inl ⟨_, _, rfl, rfl⟩)

/-- Settles O48: the cases of a step's calls, of a trap only its notification. -/
theorem environmentCallsOfAStep : Obligations.EnvironmentCallsOfAStep := by
  intro s t h
  refine (step_calls_cases h).imp_right (Or.imp_left ?_)
  rintro ⟨k, d, -, rfl⟩
  exact ⟨k, rfl⟩

/-- A step makes at most one call after its fetch. -/
theorem step_calls {s t : State} (h : step s = .next t) :
    ∃ new, t.calls = new ++ .fetch s.pc :: s.calls ∧ new.length ≤ 1 := by
  obtain hc | ⟨k, d, -, rfl⟩ | ⟨i, n, -, ⟨-, a, hc⟩ | ⟨-, a, v, hc⟩⟩ := step_calls_cases h
  · exact ⟨[], hc, by decide⟩
  · exact ⟨[.trap k], rfl, by simp⟩
  · exact ⟨[.read a n], hc, by simp⟩
  · exact ⟨[.write a n v], hc, by simp⟩

/-! ### Step outcomes (R13) -/

/-- A trapped outcome is a next state whose last environment call is the trap. -/
theorem stepOutcome_trapped {s t : State} {k : TrapKind} (h : stepOutcome s = .trapped k t) :
    step s = .next t ∧ ∃ cs, t.calls = .trap k :: cs := by
  unfold stepOutcome at h
  split at h
  · next u hu =>
    split at h
    · next cs hc => cases h; exact ⟨hu, cs, hc⟩
    · cases h
  · cases h
  · next f _ => exact nomatch f

/-- A completed outcome is a next state whose last environment call is no trap. -/
theorem stepOutcome_ok {s t : State} (h : stepOutcome s = .ok t) :
    step s = .next t ∧ ∀ k cs, t.calls ≠ .trap k :: cs := by
  unfold stepOutcome at h
  split at h
  · next u hu =>
    split at h
    · cases h
    · next hc => cases h; exact ⟨hu, hc⟩
  · cases h
  · next f _ => exact nomatch f

/-- The state after a step that trapped: the latch loaded, the pc advanced, the fetch and the trap recorded, nothing else changed. -/
theorem eq_of_trapped {s t : State} {k : TrapKind} (h : stepOutcome s = .trapped k t) :
    ∃ d, d.pc = s.pc ∧ t = ((s.call (.fetch s.pc)).latch d).call (.trap k) := by
  obtain ⟨hstep, cs, hk⟩ := stepOutcome_trapped h
  obtain hc | ⟨k', d, hd, rfl⟩ | ⟨i, n, -, ⟨-, a, hc⟩ | ⟨-, a, v, hc⟩⟩ := step_calls_cases hstep
  · rw [hc] at hk; cases hk
  · cases hk; exact ⟨d, hd, rfl⟩
  · rw [hc] at hk; cases hk
  · rw [hc] at hk; cases hk

/-- Settles O47: the state after a trapped step is the latched one with the notification recorded. -/
theorem trappedStepChangesNothingElse : Obligations.TrappedStepChangesNothingElse := by
  intro s t k h
  obtain ⟨d, hd, rfl⟩ := eq_of_trapped h
  exact ⟨latch_pc_sequential (s := s.call (.fetch s.pc)) hd, rfl, rfl, rfl, rfl⟩

/-- A step that took no trap adds no trap notification. -/
theorem calls_of_ok {s t : State} (h : stepOutcome s = .ok t) :
    ∃ new, t.calls = new ++ s.calls ∧ ∀ c ∈ new, ∀ kind, c ≠ .trap kind := by
  obtain ⟨hstep, hok⟩ := stepOutcome_ok h
  obtain ⟨new, hnew, hlen⟩ := step_calls hstep
  refine ⟨new ++ [.fetch s.pc], by simp [hnew], fun c hc kind e => ?_⟩
  obtain hc | hc := List.mem_append.1 hc
  · match new, hlen, hc with
    | [d], _, hc =>
      obtain rfl := List.mem_singleton.1 hc
      exact hok kind _ (hnew.trans (by rw [e]; rfl))
  · rw [List.mem_singleton.1 hc] at e
    cases e

/-! ### The host's run (R239) -/

/-- Settles O49: each step of a run that halts at traps took none. -/
theorem haltedRunsRecordNoTrap : Obligations.HaltedRunsRecordNoTrap := by
  intro k
  induction k with
  | zero =>
    intro s t h
    cases h
    exact ⟨[], rfl, nofun⟩
  | succ k ih =>
    intro s t h
    rw [hostRun] at h
    split at h
    · next u hu =>
      obtain ⟨new, hnew, hno⟩ := calls_of_ok hu
      obtain ⟨later, hlater, hnone⟩ := ih u t h
      refine ⟨later ++ new, by rw [hlater, hnew, List.append_assoc], fun c hc => ?_⟩
      exact (List.mem_append.1 hc).elim (hnone c) (hno c)
    · cases h
    · cases h

/-- Settles O50: the run goes on from the trapped state, whose pc is the trapping instruction's address plus 4. -/
theorem continuedRunsFetchAfterTheTrap : Obligations.ContinuedRunsFetchAfterTheTrap := by
  intro k s t kind h
  obtain ⟨hpc, -, -, -, hcalls⟩ := trappedStepChangesNothingElse s t kind h
  refine ⟨by rw [hostRun, h], fun t' ht' => ?_, by rw [hostRun, h]⟩
  obtain ⟨new, hnew, -⟩ := step_calls ht'
  exact ⟨new, by rw [hnew, hpc, hcalls]⟩

end Sys2Proof.Machine
end

section
/-! PROOFS. The decoder and the encoder are inverse: the classifier gives an encoded instruction its tag and the tag its fields back;
and a classified word has the fixed fields of its tag's row in the opcode table, so that encoding its fields gives the word back. -/

namespace Sys2Proof

/-! ### Decoding an encoded instruction -/

/-- The length class of every encoded instruction is 4 bytes (R61). -/
theorem opcodeLength_encode (i : Instr) : opcodeLength (encode i) = 4 := by
  cases i
  case ecall | ebreak => rfl
  case lui | auipc => exact opcodeLength_of_primary (primaryOf_encodeU ..) (by decide)
  case jal => exact opcodeLength_of_primary (primaryOf_encodeJ ..) (by decide)
  case beq | bne | blt | bge | bltu | bgeu => exact opcodeLength_of_primary (primaryOf_encodeB ..) (by decide)
  case sb | sh | sw | sd => exact opcodeLength_of_primary (primaryOf_encodeS ..) (by decide)
  case add | sub | sll | slt | sltu | xor | srl | sra | or | and | addw | subw | sllw | srlw | sraw | mul | mulh | mulhsu | mulhu | div
      | divu | rem | remu | mulw | divw | divuw | remw | remuw =>
    exact opcodeLength_of_primary (primaryOf_encodeR ..) (by decide)
  all_goals exact opcodeLength_of_primary (primaryOf_encodeI ..) (by decide)

/-- The upper field of an encoded XLEN-wide shift-immediate is the one encoded: all 6 bits on a 64-bit hart, and the 7 bits of a 32-bit
hart where the amount is below 32 (R79). -/
theorem upperFieldIs_encodeI {xl : Xlen} {f3 : BitVec 3} {op : BitVec 7} {rd rs1 : RegIdx} {shamt : BitVec 6} (u v : BitVec 6)
    (h : (xl == .rv64 || !shamt.getLsbD 5) = true) :
    upperFieldIs xl v (encodeI f3 op rd rs1 (u ++ shamt)) = decide (u = v) := by
  cases xl with
  | rv64 => simp only [upperFieldIs, funct6Of_encodeI]; rfl
  | rv32 =>
    have hbit : shamt.extractLsb' 5 1 = 0#1 := by
      apply BitVec.eq_of_getLsbD_eq
      intro k hk
      obtain rfl : k = 0 := by omega
      simpa using h
    have hfield : funct7Of (encodeI f3 op rd rs1 (u ++ shamt)) = u ++ 0#1 := by
      rw [← hbit]
      apply BitVec.eq_of_toNat_eq
      have := shamt.isLt
      have := u.isLt
      simp only [funct7Of, encodeI, append_toNat, extract_toNat]
      omega
    rw [upperFieldIs, hfield, Bool.eq_iff_iff, beq_iff_eq, decide_eq_true_iff]
    constructor
    · intro e
      have := congrArg (·.extractLsb' 1 6) e
      simpa (disch := omega) only [extract_high, Nat.sub_self, extract_all] using this
    · rintro rfl; rfl

/-- CLS gives the word of a well-formed instruction the instruction's tag (R75 to R84). -/
theorem classify_encode {xl : Xlen} {i : Instr} (h : i.wellFormed xl = true) : classify xl (encode i) = i.tag := by
  cases i
  case ecall | ebreak => cases xl <;> rfl
  case slli | srli | srai =>
    simp only [encode, classify, classifyOpImm, primaryOf_encodeI, funct3Of_encodeI, upperFieldIs_encodeI _ _ h]
    rfl
  case lui | auipc => simp only [encode, classify, primaryOf_encodeU]; rfl
  case jal => simp only [encode, classify, primaryOf_encodeJ]; rfl
  case beq | bne | blt | bge | bltu | bgeu => simp only [encode, classify, primaryOf_encodeB, funct3Of_encodeB]; rfl
  case sb | sh | sw | sd => simp only [encode, classify, primaryOf_encodeS, funct3Of_encodeS]; rfl
  case add | sub | sll | slt | sltu | xor | srl | sra | or | and | addw | subw | sllw | srlw | sraw | mul | mulh | mulhsu | mulhu | div
      | divu | rem | remu | mulw | divw | divuw | remw | remuw =>
    simp only [encode, classify, primaryOf_encodeR, funct3Of_encodeR, funct7Of_encodeR]; rfl
  case slliw | srliw | sraiw => simp only [encode, classify, primaryOf_encodeI, funct3Of_encodeI, funct7Of_encodeI]; rfl
  all_goals simp only [encode, classify, classifyOpImm, primaryOf_encodeI, funct3Of_encodeI]; rfl

/-- A B or J offset that is well-formed has bit 0 clear (R68, R70). -/
theorem bit_zero_of_not {w : Nat} {imm : BitVec w} (h : (!imm.getLsbD 0) = true) : imm.getLsbD 0 = false := by simpa using h

/-- The fields of the word of a well-formed instruction are the instruction's (R63 to R70). -/
theorem instrOf_encode {xl : Xlen} {i : Instr} (h : i.wellFormed xl = true) : instrOf i.tag (encode i) = .ok i := by
  cases i
  case ecall | ebreak => rfl
  case lui | auipc => simp only [Instr.tag, encode, instrOf, rdOf_encodeU, immUOf_encodeU]
  case jal => simp only [Instr.tag, encode, instrOf, rdOf_encodeJ, immJOf_encodeJ _ _ (bit_zero_of_not h)]
  case beq | bne | blt | bge | bltu | bgeu =>
    simp only [Instr.tag, encode, instrOf, rs1Of_encodeB, rs2Of_encodeB, immBOf_encodeB _ _ _ _ (bit_zero_of_not h)]
  case sb | sh | sw | sd => simp only [Instr.tag, encode, instrOf, rs1Of_encodeS, rs2Of_encodeS, immSOf_encodeS]
  case add | sub | sll | slt | sltu | xor | srl | sra | or | and | addw | subw | sllw | srlw | sraw | mul | mulh | mulhsu | mulhu | div
      | divu | rem | remu | mulw | divw | divuw | remw | remuw =>
    simp only [Instr.tag, encode, instrOf, rdOf_encodeR, rs1Of_encodeR, rs2Of_encodeR]
  case slli | srli | srai => simp only [Instr.tag, encode, instrOf, rdOf_encodeI, rs1Of_encodeI, shamt6Of_encodeI]
  case slliw | srliw | sraiw => simp only [Instr.tag, encode, instrOf, rdOf_encodeI, rs1Of_encodeI, shamt5Of_encodeI]
  all_goals simp only [Instr.tag, encode, instrOf, rdOf_encodeI, rs1Of_encodeI, immIOf_encodeI]

theorem decodeWord_encode {xl : Xlen} {i : Instr} (h : i.wellFormed xl = true) : decodeWord xl (encode i) = .ok i := by
  rw [decodeWord, if_pos (opcodeLength_encode i), classify_encode h, instrOf_encode h]

/-- The four bytes of a word make the word (R45). -/
theorem wordOfBytes_bytesOfWord (w : Opcode) :
    wordOfBytes (w.extractLsb' 0 8) (w.extractLsb' 8 8) (w.extractLsb' 16 8) (w.extractLsb' 24 8) = w := by
  apply BitVec.eq_of_toNat_eq
  have := w.isLt
  simp only [wordOfBytes, append_toNat, extract_toNat]
  omega

/-- Settles O13: the encoded word has the 4-byte class, the classifier gives it the instruction's tag, and the fields come back; its
four bytes make the word again. -/
theorem decodeOfEncode : Obligations.DecodeOfEncode := by
  intro xl i h
  refine ⟨decodeWord_encode h, fun rest => ?_⟩
  simp only [bytesOfWord, List.cons_append, List.nil_append, decodeBytes, wordOfBytes_bytesOfWord, decodeWord_encode h]

end Sys2Proof
end

section
/-! PROOFS. The decoder and the opcode table: a classified word matches the row of its tag, and a word that matches a row is the encoding
of its fields under the row's tag. -/

namespace Sys2Proof

/-! ### A word under a mask of the table, as its fixed fields (R63) -/

theorem masked_opcode_iff {w : Opcode} {p : BitVec 7} : w &&& 0x0000007F#32 = encodeU p 0 0 ↔ primaryOf w = p := by
  have hw : w &&& 0x0000007F#32 = encodeU (primaryOf w) 0 0 := by
    conv_lhs => rw [← encodeU_of_fields w, encodeU_masked]
    rfl
  rw [hw]
  exact ⟨fun h => by simpa using congrArg primaryOf h, fun h => by rw [h]⟩

theorem masked_funct3_iff {w : Opcode} {f3 : BitVec 3} {p : BitVec 7} :
    w &&& 0x0000707F#32 = encodeI f3 p 0 0 0 ↔ primaryOf w = p ∧ funct3Of w = f3 := by
  have hw : w &&& 0x0000707F#32 = encodeI (funct3Of w) (primaryOf w) 0 0 0 := by
    conv_lhs => rw [← encodeI_of_fields w, encodeI_masked]
    rfl
  rw [hw]
  exact ⟨fun h => ⟨by simpa using congrArg primaryOf h, by simpa using congrArg funct3Of h⟩, fun ⟨hp, hf⟩ => by rw [hp, hf]⟩

theorem masked_funct7_iff {w : Opcode} {f7 : BitVec 7} {f3 : BitVec 3} {p : BitVec 7} :
    w &&& 0xFE00707F#32 = encodeR f7 f3 p 0 0 0 ↔ primaryOf w = p ∧ funct3Of w = f3 ∧ funct7Of w = f7 := by
  have hw : w &&& 0xFE00707F#32 = encodeR (funct7Of w) (funct3Of w) (primaryOf w) 0 0 0 := by
    conv_lhs => rw [← encodeR_of_fields w, encodeR_masked]
    rfl
  rw [hw]
  exact ⟨fun h => ⟨by simpa using congrArg primaryOf h, by simpa using congrArg funct3Of h, by simpa using congrArg funct7Of h⟩,
    fun ⟨hp, hf3, hf7⟩ => by rw [hp, hf3, hf7]⟩

theorem masked_funct6_iff {w : Opcode} {u : BitVec 6} {f3 : BitVec 3} {p : BitVec 7} :
    w &&& 0xFC00707F#32 = encodeI f3 p 0 0 (u ++ 0#6) ↔ primaryOf w = p ∧ funct3Of w = f3 ∧ funct6Of w = u := by
  have hw : w &&& 0xFC00707F#32 = encodeI (funct3Of w) (primaryOf w) 0 0 (funct6Of w ++ 0#6) := by
    conv_lhs => rw [← encodeI_of_fields w, ← funct6_shamt6, encodeI_masked_shamt6]
    rfl
  rw [hw]
  exact ⟨fun h => ⟨by simpa using congrArg primaryOf h, by simpa using congrArg funct3Of h, by simpa using congrArg funct6Of h⟩,
    fun ⟨hp, hf3, hf6⟩ => by rw [hp, hf3, hf6]⟩

/-! ### The row of a tag -/

/-- The row of a tag in the opcode table of a width. -/
def opcodeRow (xl : Xlen) (t : Tag) : Option OpcodeRow := (opcodeRows xl).find? (·.tag == t)

/-- The table has at most one row for a tag. -/
theorem opcodeRow_of_mem {xl : Xlen} {row : OpcodeRow} (h : row ∈ opcodeRows xl) : opcodeRow xl row.tag = some row := by
  revert row
  cases xl <;> decide

theorem mem_of_opcodeRow {xl : Xlen} {t : Tag} {row : OpcodeRow} (h : opcodeRow xl t = some row) :
    row ∈ opcodeRows xl ∧ row.tag = t :=
  ⟨List.mem_of_find?_eq_some h, by simpa using List.find?_some h⟩

/-- Every tag but the sentinel has a row (R86). -/
theorem exists_opcodeRow (xl : Xlen) {t : Tag} (h : t ≠ .UNKNOWN) : ∃ row, opcodeRow xl t = some row := by
  rw [← Option.isSome_iff_exists]
  revert h
  cases xl <;> cases t <;> decide

/-- The word matches the row of the tag, where the tag has one. -/
def MatchesRow (xl : Xlen) (w : Opcode) (t : Tag) : Prop := ∀ row, opcodeRow xl t = some row → w &&& row.mask = row.value

theorem matchesRow_iff {xl : Xlen} {w : Opcode} {t : Tag} (ht : t ≠ .UNKNOWN) :
    MatchesRow xl w t ↔ ∃ row ∈ opcodeRows xl, row.tag = t ∧ w &&& row.mask = row.value := by
  constructor
  · intro h
    obtain ⟨row, hrow⟩ := exists_opcodeRow xl ht
    obtain ⟨hmem, htag⟩ := mem_of_opcodeRow hrow
    exact ⟨row, hmem, htag, h row hrow⟩
  · rintro ⟨row, hmem, rfl, hmatch⟩ row' hrow'
    obtain rfl : row = row' := Option.some.inj ((opcodeRow_of_mem hmem).symm.trans hrow')
    exact hmatch

theorem matchesRow_unknown (xl : Xlen) (w : Opcode) : MatchesRow xl w .UNKNOWN := by
  intro row h
  cases xl <;> cases h

/-- A word matches a tag's row whose mask and value it has. -/
theorem matchesRow_of_eq {xl : Xlen} {w : Opcode} {t : Tag} {row : OpcodeRow} (hrow : opcodeRow xl t = some row)
    (h : w &&& row.mask = row.value) : MatchesRow xl w t := by
  intro row' hrow'
  obtain rfl : row = row' := Option.some.inj (hrow.symm.trans hrow')
  exact h

/-! ### A classified word matches the row of its tag (R75 to R85) -/

section classified

variable {xl : Xlen} {w : Opcode}

theorem matchesRow_of_opcode {t : Tag} {p : BitVec 7} (hp : primaryOf w = p)
    (hrow : opcodeRow xl t = some ⟨t, 0x0000007F#32, encodeU p 0 0⟩) : MatchesRow xl w t :=
  matchesRow_of_eq hrow (masked_opcode_iff.2 hp)

theorem matchesRow_of_funct3 {t : Tag} {p : BitVec 7} {f3 : BitVec 3} (hp : primaryOf w = p) (hf : funct3Of w = f3)
    (hrow : opcodeRow xl t = some ⟨t, 0x0000707F#32, encodeI f3 p 0 0 0⟩) : MatchesRow xl w t :=
  matchesRow_of_eq hrow (masked_funct3_iff.2 ⟨hp, hf⟩)

theorem matchesRow_of_funct7 {t : Tag} {p f7 : BitVec 7} {f3 : BitVec 3} (hp : primaryOf w = p) (hf : funct3Of w = f3)
    (h7 : funct7Of w = f7) (hrow : opcodeRow xl t = some ⟨t, 0xFE00707F#32, encodeR f7 f3 p 0 0 0⟩) : MatchesRow xl w t :=
  matchesRow_of_eq hrow (masked_funct7_iff.2 ⟨hp, hf, h7⟩)

/-- The row of an XLEN-wide shift-immediate fixes 7 upper bits on a 32-bit hart and 6 on a 64-bit hart (R79). -/
theorem matchesRow_of_upperField {t : Tag} {p : BitVec 7} {u : BitVec 6} {f3 : BitVec 3} (hp : primaryOf w = p)
    (hf : funct3Of w = f3) (hu : upperFieldIs xl u w = true)
    (h32 : opcodeRow .rv32 t = some ⟨t, 0xFE00707F#32, encodeR (u ++ 0#1) f3 p 0 0 0⟩)
    (h64 : opcodeRow .rv64 t = some ⟨t, 0xFC00707F#32, encodeI f3 p 0 0 (u ++ 0#6)⟩) : MatchesRow xl w t := by
  cases xl with
  | rv32 => exact matchesRow_of_funct7 hp hf (by simpa [upperFieldIs] using hu) h32
  | rv64 => exact matchesRow_of_eq h64 (masked_funct6_iff.2 ⟨hp, hf, by simpa [upperFieldIs] using hu⟩)

/-- The eight values of a `funct3` field. -/
theorem funct3_cases (f3 : BitVec 3) : f3 = 0 ∨ f3 = 1 ∨ f3 = 2 ∨ f3 = 3 ∨ f3 = 4 ∨ f3 = 5 ∨ f3 = 6 ∨ f3 = 7 := by
  revert f3
  decide

theorem matchesRow_classifyLoad (hp : primaryOf w = 0b0000011) : MatchesRow xl w (classifyLoad (funct3Of w)) := by
  unfold classifyLoad
  split
  case h_8 => exact matchesRow_unknown xl w
  all_goals exact matchesRow_of_funct3 hp ‹_› rfl

theorem matchesRow_classifyStore (hp : primaryOf w = 0b0100011) : MatchesRow xl w (classifyStore (funct3Of w)) := by
  unfold classifyStore
  split
  case h_5 => exact matchesRow_unknown xl w
  all_goals exact matchesRow_of_funct3 hp ‹_› rfl

theorem matchesRow_classifyBranch (hp : primaryOf w = 0b1100011) : MatchesRow xl w (classifyBranch (funct3Of w)) := by
  unfold classifyBranch
  split
  case h_7 => exact matchesRow_unknown xl w
  all_goals exact matchesRow_of_funct3 hp ‹_› rfl

theorem matchesRow_classifyOpImm (hp : primaryOf w = 0b0010011) : MatchesRow xl w (classifyOpImm xl w) := by
  unfold classifyOpImm
  split
  case h_7 h1 =>
    split
    · next hu => exact matchesRow_of_upperField hp h1 hu rfl rfl
    · exact matchesRow_unknown xl w
  case h_8 =>
    have h5 : funct3Of w = 5 := by have := funct3_cases (funct3Of w); tauto
    split
    · next hu => exact matchesRow_of_upperField hp h5 hu rfl rfl
    · split
      · next hu => exact matchesRow_of_upperField hp h5 hu rfl rfl
      · exact matchesRow_unknown xl w
  all_goals exact matchesRow_of_funct3 hp ‹_› rfl

theorem matchesRow_classifyOpImm32 (hp : primaryOf w = 0b0011011) :
    MatchesRow xl w (classifyOpImm32 (funct7Of w) (funct3Of w)) := by
  unfold classifyOpImm32
  split
  case h_1 h0 => exact matchesRow_of_funct3 hp h0 rfl
  case h_2 h1 =>
    split
    · next h7 => exact matchesRow_of_funct7 hp h1 h7 rfl
    · exact matchesRow_unknown xl w
  case h_3 h5 =>
    split
    · next h7 => exact matchesRow_of_funct7 hp h5 h7 rfl
    · split
      · next h7 => exact matchesRow_of_funct7 hp h5 h7 rfl
      · exact matchesRow_unknown xl w
  case h_4 => exact matchesRow_unknown xl w

theorem matchesRow_classifyMulDiv (hp : primaryOf w = 0b0110011) (h7 : funct7Of w = 0b0000001) :
    MatchesRow xl w (classifyMulDiv (funct3Of w)) := by
  obtain h | h | h | h | h | h | h | h := funct3_cases (funct3Of w) <;> rw [h]
  all_goals exact matchesRow_of_funct7 hp h h7 rfl

theorem matchesRow_classifyOpBase (hp : primaryOf w = 0b0110011) (h7 : funct7Of w = 0b0000000) :
    MatchesRow xl w (classifyOpBase (funct3Of w)) := by
  obtain h | h | h | h | h | h | h | h := funct3_cases (funct3Of w) <;> rw [h]
  all_goals exact matchesRow_of_funct7 hp h h7 rfl

theorem matchesRow_classifyOp (hp : primaryOf w = 0b0110011) : MatchesRow xl w (classifyOp (funct7Of w) (funct3Of w)) := by
  unfold classifyOp
  split
  case h_1 h7 => exact matchesRow_classifyMulDiv hp h7
  case h_2 h7 => exact matchesRow_classifyOpBase hp h7
  case h_3 h7 =>
    unfold classifyOpAlt
    split
    case h_3 => exact matchesRow_unknown xl w
    all_goals exact matchesRow_of_funct7 hp ‹_› h7 rfl
  case h_4 => exact matchesRow_unknown xl w

theorem matchesRow_classifyOp32 (hp : primaryOf w = 0b0111011) : MatchesRow xl w (classifyOp32 (funct7Of w) (funct3Of w)) := by
  unfold classifyOp32
  split
  case h_1 h7 =>
    unfold classifyMulDiv32
    split
    case h_6 => exact matchesRow_unknown xl w
    all_goals exact matchesRow_of_funct7 hp ‹_› h7 rfl
  case h_2 h7 =>
    unfold classifyOp32Base
    split
    case h_4 => exact matchesRow_unknown xl w
    all_goals exact matchesRow_of_funct7 hp ‹_› h7 rfl
  case h_3 h7 =>
    unfold classifyOp32Alt
    split
    case h_3 => exact matchesRow_unknown xl w
    all_goals exact matchesRow_of_funct7 hp ‹_› h7 rfl
  case h_4 => exact matchesRow_unknown xl w

theorem matchesRow_classifySystem : MatchesRow xl w (classifySystem w) := by
  have whole : ∀ v : Opcode, w = v → w &&& 0xFFFFFFFF#32 = v := fun v h => h ▸ BitVec.and_allOnes
  unfold classifySystem
  split
  · next h => exact matchesRow_of_eq (row := ⟨.ECALL, 0xFFFFFFFF#32, 0x00000073#32⟩) rfl (whole _ h)
  · split
    · next h => exact matchesRow_of_eq (row := ⟨.EBREAK, 0xFFFFFFFF#32, 0x00100073#32⟩) rfl (whole _ h)
    · exact matchesRow_unknown xl w

variable (xl w) in
/-- CLS gives a word a tag only where the tag's row matches the word. -/
theorem matchesRow_classify : MatchesRow xl w (classify xl w) := by
  unfold classify
  split
  case h_1 hp => exact matchesRow_classifyLoad hp
  case h_2 hp | h_11 hp =>
    split
    · next hf => exact matchesRow_of_funct3 hp hf rfl
    · exact matchesRow_unknown xl w
  case h_3 hp => exact matchesRow_classifyOpImm hp
  case h_4 hp | h_8 hp | h_12 hp => exact matchesRow_of_opcode hp rfl
  case h_5 hp => exact matchesRow_classifyOpImm32 hp
  case h_6 hp => exact matchesRow_classifyStore hp
  case h_7 hp => exact matchesRow_classifyOp hp
  case h_9 hp => exact matchesRow_classifyOp32 hp
  case h_10 hp => exact matchesRow_classifyBranch hp
  case h_13 => exact matchesRow_classifySystem
  case h_14 => exact matchesRow_unknown xl w

end classified

/-! ### A word that matches a row is the encoding of its fields -/

section matched

variable {w : Opcode} {f3 : BitVec 3} {p f7 : BitVec 7}

theorem encodeU_of_masked (h : w &&& 0x0000007F#32 = encodeU p 0 0) : encodeU p (rdOf w) (immUOf w) = w := by
  rw [← masked_opcode_iff.1 h, encodeU_of_fields]

theorem encodeJ_of_masked (h : w &&& 0x0000007F#32 = encodeU p 0 0) : encodeJ p (rdOf w) (immJOf w) = w := by
  rw [← masked_opcode_iff.1 h, encodeJ_of_fields]

theorem encodeI_of_masked (h : w &&& 0x0000707F#32 = encodeI f3 p 0 0 0) : encodeI f3 p (rdOf w) (rs1Of w) (immIOf w) = w := by
  obtain ⟨hp, hf⟩ := masked_funct3_iff.1 h
  rw [← hp, ← hf, encodeI_of_fields]

theorem encodeS_of_masked (h : w &&& 0x0000707F#32 = encodeI f3 p 0 0 0) : encodeS f3 p (rs1Of w) (rs2Of w) (immSOf w) = w := by
  obtain ⟨hp, hf⟩ := masked_funct3_iff.1 h
  rw [← hp, ← hf, encodeS_of_fields]

theorem encodeB_of_masked (h : w &&& 0x0000707F#32 = encodeI f3 p 0 0 0) : encodeB f3 p (rs1Of w) (rs2Of w) (immBOf w) = w := by
  obtain ⟨hp, hf⟩ := masked_funct3_iff.1 h
  rw [← hp, ← hf, encodeB_of_fields]

theorem encodeR_of_masked (h : w &&& 0xFE00707F#32 = encodeR f7 f3 p 0 0 0) : encodeR f7 f3 p (rdOf w) (rs1Of w) (rs2Of w) = w := by
  obtain ⟨hp, hf, h7⟩ := masked_funct7_iff.1 h
  rw [← hp, ← hf, ← h7, encodeR_of_fields]

theorem encodeI_shamt5_of_masked (h : w &&& 0xFE00707F#32 = encodeR f7 f3 p 0 0 0) :
    encodeI f3 p (rdOf w) (rs1Of w) (f7 ++ shamt5Of w) = w := by
  obtain ⟨hp, hf, h7⟩ := masked_funct7_iff.1 h
  rw [← hp, ← hf, ← h7, funct7_shamt5, encodeI_of_fields]

theorem getLsbD_zero_append {v : Nat} (a : BitVec v) : (a ++ 0#1).getLsbD 0 = false := by rw [BitVec.getLsbD_append]; rfl

/-- An XLEN-wide shift-immediate of a matched word has an amount the width encodes, and is the word's (R79). -/
theorem encodeI_shamt6_of_masked {xl : Xlen} {t : Tag} {u : BitVec 6} (h : MatchesRow xl w t)
    (h32 : opcodeRow .rv32 t = some ⟨t, 0xFE00707F#32, encodeR (u ++ 0#1) f3 p 0 0 0⟩)
    (h64 : opcodeRow .rv64 t = some ⟨t, 0xFC00707F#32, encodeI f3 p 0 0 (u ++ 0#6)⟩) :
    (xl == .rv64 || !(shamt6Of w).getLsbD 5) = true ∧ encodeI f3 p (rdOf w) (rs1Of w) (u ++ shamt6Of w) = w := by
  cases xl with
  | rv32 =>
    obtain ⟨hp, hf, h7⟩ := masked_funct7_iff.1 (h _ h32)
    have hbit : (shamt6Of w).getLsbD 5 = (funct7Of w).getLsbD 0 := by simp [shamt6Of, funct7Of]
    have h6 : funct6Of w = u := funct6Of_of_upperFieldIs (xl := .rv32) (by simpa [upperFieldIs] using h7)
    exact ⟨by rw [hbit, h7, getLsbD_zero_append]; rfl, by rw [← hp, ← hf, ← h6, funct6_shamt6, encodeI_of_fields]⟩
  | rv64 =>
    obtain ⟨hp, hf, h6⟩ := masked_funct6_iff.1 (h _ h64)
    exact ⟨rfl, by rw [← hp, ← hf, ← h6, funct6_shamt6, encodeI_of_fields]⟩

/-- An assembled B or J offset is even (R68, R70). -/
theorem immBOf_even (w : Opcode) : (!(immBOf w).getLsbD 0) = true := by
  rw [immBOf, getLsbD_zero_append]; rfl

theorem immJOf_even (w : Opcode) : (!(immJOf w).getLsbD 0) = true := by
  rw [immJOf, getLsbD_zero_append]; rfl

/-- The instruction that a tag makes of a word matching the tag's row is well-formed and encodes to the word. -/
theorem encode_of_matchesRow {xl : Xlen} {t : Tag} {i : Instr} (hm : MatchesRow xl w t) (hi : instrOf t w = .ok i) :
    i.wellFormed xl = true ∧ encode i = w := by
  cases t <;> cases hi
  case ECALL | EBREAK => exact ⟨rfl, ((BitVec.and_allOnes (x := w)).symm.trans (hm _ rfl)).symm⟩
  case LUI | AUIPC => exact ⟨rfl, encodeU_of_masked (hm _ rfl)⟩
  case JAL => exact ⟨immJOf_even w, encodeJ_of_masked (hm _ rfl)⟩
  case BEQ | BNE | BLT | BGE | BLTU | BGEU => exact ⟨immBOf_even w, encodeB_of_masked (hm _ rfl)⟩
  case SB | SH | SW | SD => exact ⟨rfl, encodeS_of_masked (hm _ rfl)⟩
  case SLLI | SRLI | SRAI => exact encodeI_shamt6_of_masked hm rfl rfl
  case SLLIW | SRLIW | SRAIW => exact ⟨rfl, encodeI_shamt5_of_masked (hm _ rfl)⟩
  case ADD | SUB | SLL | SLT | SLTU | XOR | SRL | SRA | OR | AND | ADDW | SUBW | SLLW | SRLW | SRAW | MUL | MULH | MULHSU | MULHU | DIV
      | DIVU | REM | REMU | MULW | DIVW | DIVUW | REMW | REMUW =>
    exact ⟨rfl, encodeR_of_masked (hm _ rfl)⟩
  all_goals exact ⟨rfl, encodeI_of_masked (hm _ rfl)⟩

end matched

/-! ### The decoder (R100 steps 2 to 4) -/

/-- A decoded instruction's row matches the word. -/
theorem matchesRow_of_decodeWord {xl : Xlen} {w : Opcode} {i : Instr} (h : decodeWord xl w = .ok i) : MatchesRow xl w i.tag := by
  rw [Machine.tag_of_instrOf (Machine.instrOf_classify_of_decodeWord h)]
  exact matchesRow_classify xl w

/-- A decoded instruction's tag is not the sentinel. -/
theorem tag_ne_unknown (i : Instr) : i.tag ≠ .UNKNOWN := by cases i <;> nofun

theorem exists_instrOf {t : Tag} (w : Opcode) (ht : t ≠ .UNKNOWN) : ∃ i, instrOf t w = .ok i := by
  cases t
  case UNKNOWN => exact absurd rfl ht
  all_goals exact ⟨_, rfl⟩

/-- Settles O14: an accepted word matches the row of its tag, and such a word is the encoding of its fields. -/
theorem encodeOfDecode : Obligations.EncodeOfDecode := by
  intro xl w i h
  have hi := Machine.instrOf_classify_of_decodeWord h
  exact encode_of_matchesRow (matchesRow_classify xl w) hi

/-- Settles O15: from the table to the decoder, the word is the encoding of the instruction its row's tag makes of it, and an encoded
instruction decodes. -/
theorem decoderAgreesWithOpcodeTable : Obligations.DecoderAgreesWithOpcodeTable := by
  intro xl w t
  constructor
  · rintro ⟨i, hi, rfl⟩
    exact (matchesRow_iff (tag_ne_unknown i)).1 (matchesRow_of_decodeWord hi)
  · rintro ⟨row, hmem, rfl, hmatch⟩
    have ht : row.tag ≠ .UNKNOWN := by
      intro e
      have h := opcodeRow_of_mem hmem
      rw [e] at h
      cases xl <;> cases h
    obtain ⟨i, hi⟩ := exists_instrOf w ht
    obtain ⟨hwf, rfl⟩ := encode_of_matchesRow ((matchesRow_iff ht).2 ⟨row, hmem, rfl, hmatch⟩) hi
    exact ⟨i, decodeWord_encode hwf, Machine.tag_of_instrOf hi⟩

/-- Settles O16: the decoder gives a word one tag, and the table has one row for a tag. -/
theorem opcodeRowsExclusive : Obligations.OpcodeRowsExclusive := by
  intro xl w r r' hr hr' hm hm'
  obtain ⟨i, hi, htag⟩ := (decoderAgreesWithOpcodeTable xl w r.tag).2 ⟨r, hr, rfl, hm⟩
  obtain ⟨i', hi', htag'⟩ := (decoderAgreesWithOpcodeTable xl w r'.tag).2 ⟨r', hr', rfl, hm'⟩
  obtain rfl : i = i' := Except.ok.inj (hi.symm.trans hi')
  have h := opcodeRow_of_mem hr
  rw [← htag, htag', opcodeRow_of_mem hr'] at h
  exact (Option.some.inj h).symm

/-- Settles O12: the decoder evaluates on each word. -/
theorem sampleWordsDecode : Obligations.SampleWordsDecode := by
  unfold Obligations.SampleWordsDecode
  decide

/-! ### The length detector (R61) -/

/-- A field of a value equals a constant as a quotient's residue does. -/
theorem extract_eq_iff {w : Nat} (h : BitVec w) (lo n : Nat) (c : BitVec n) :
    h.extractLsb' lo n = c ↔ h.toNat / 2 ^ lo % 2 ^ n = c.toNat := by
  rw [BitVec.toNat_eq, extract_toNat]

/-- LEN on the value of its 16 bits. -/
theorem ilen_eq (h : BitVec 16) : ilen h =
    if h.toNat % 4 ≠ 3 then 2 else if h.toNat / 4 % 8 ≠ 7 then 4 else if h.toNat % 64 = 31 then 6
    else if h.toNat % 128 = 63 then 8 else if h.toNat / 4096 % 8 ≠ 7 then 10 + 2 * (h.toNat / 4096 % 8) else 24 := by
  unfold ilen
  simp only [ne_eq, extract_eq_iff, extract_toNat, BitVec.toNat_ofNat, pow_zero, Nat.div_one, Nat.reducePow, Nat.reduceMod]

/-- Settles O18: the classes are residues that exclude each other. -/
theorem lengthClasses : Obligations.LengthClasses := by
  intro h
  rw [ilen_eq]
  refine ⟨fun h2 => if_pos h2, fun h3 h4 => ?_, fun h6 => ?_, fun h8 => ?_, fun h10 hk => ?_, fun h24 hk => ?_⟩
  all_goals split_ifs <;> omega

end Sys2Proof
end

section
/-! PROOFS. Memory accesses as values (R43 to R45): a read as the value of its bytes, a read after a write, and the fetched word. -/

namespace Sys2Proof.Machine

/-! ### Reads (R43, R45) -/

/-- A read of 1 to 8 bytes from byte `k` on is the little-endian value of the bytes at its addresses. -/
theorem readFrom_eq_bytesValue (s : State) (a : Word) (k n : Nat) (h : k + n ≤ 8) :
    (Memory.readFrom s.xlen s.mem a k n).toNat = s.bytesValue (a.toNat + k) n := by
  induction n generalizing k with
  | zero => rfl
  | succ n ih =>
    rw [(readFrom_toNat s.xlen s.mem a k (by omega)).1, ih (k + 1) (by omega), byteAddress_eq s a (by omega), State.bytesValue,
      State.byte, Nat.cast_succ, ← add_assoc]

/-- The number of bytes of an access is at most 8 (R41). -/
theorem AccessSize.bytes_le (n : AccessSize) : n.bytes ≤ 8 := by cases n <;> decide

theorem memRead_toNat (s : State) (a : Word) (n : AccessSize) : (s.memRead a n).toNat = s.bytesValue a.toNat n.bytes := by
  have h := readFrom_eq_bytesValue s a 0 n.bytes (by have := n.bytes_le; omega)
  rwa [Nat.cast_zero, add_zero] at h

/-- Settles O43: the read lies inside the write, so its bytes are the low bytes written. -/
theorem readAfterWrite : Obligations.ReadAfterWrite := by
  intro s a v m n h
  have hread := readFrom_writeFrom s.xlen s.mem a v n.bytes_le m.bytes 0 (by omega)
  rwa [Nat.mul_zero, pow_zero, Nat.div_one] at hread

/-! ### The fetch (R42, R52) -/

theorem fetchOpcode_toNat (s : State) : s.fetchOpcode.toNat = s.bytesValue s.pc.toNat 4 % 2 ^ 32 := by
  rw [State.fetchOpcode, BitVec.toNat_setWidth, memRead_toNat]; rfl

/-- The fetched word is made of the four bytes from the pc on, lowest address least significant. -/
theorem fetchOpcode_eq (s : State) : s.fetchOpcode =
    wordOfBytes (s.byte (s.address s.pc.toNat)) (s.byte (s.address (s.pc.toNat + 1))) (s.byte (s.address (s.pc.toNat + 2)))
      (s.byte (s.address (s.pc.toNat + 3))) := by
  apply BitVec.eq_of_toNat_eq
  rw [fetchOpcode_toNat]
  simp only [State.bytesValue, wordOfBytes, append_toNat, add_assoc, Int.reduceAdd]
  omega

/-- Settles O11: the four bytes make the fetched word, which a step decodes and executes. -/
theorem stepRunsDecodedInstruction : Obligations.StepRunsDecodedInstruction := by
  intro s i h
  refine step_of_decodeWord ?_
  rw [decodeBytes, ← fetchOpcode_eq] at h
  split at h
  · next j hj => cases h; exact hj
  · cases h

/-- The word a 4-byte write leaves at an address is what a fetch there reads. -/
theorem fetch_of_writeFrom (s : State) (v : Word) :
    ((Memory.readFrom s.xlen (Memory.writeFrom s.xlen s.mem s.pc v 0 4) s.pc 0 4).setWidth 32 : Opcode) = v.setWidth 32 := by
  apply BitVec.eq_of_toNat_eq
  have h := readFrom_writeFrom s.xlen s.mem s.pc v (n := 4) (by decide) 4 0 (by decide)
  rw [Nat.mul_zero, pow_zero, Nat.div_one] at h
  rw [BitVec.toNat_setWidth, h, BitVec.toNat_setWidth, Nat.mod_mod]

/-- Settles O44: both stores are 4-byte writes at the pc, and `withFetchWord` is a write and no more. -/
theorem storedWordIsFetched : Obligations.StoredWordIsFetched := by
  intro s v w hw
  refine ⟨fetch_of_writeFrom s v, (fetch_of_writeFrom s _).trans ?_, rfl⟩
  apply BitVec.eq_of_toNat_eq
  rw [BitVec.toNat_setWidth, BitVec.toNat_ofNat, BitVec.toNat_ofNat]
  omega

end Sys2Proof.Machine
end

section
/-! PROOFS. Which steps trap and which are refused (R13, R21, R62, R87, R203), instructions that only advance the pc (R92, R200), and the
parts of the configuration that no step reads (R25). -/

namespace Sys2Proof.Machine

/-! ### Effects of latching and of trapping -/

/-- Latching a record of the instruction at the pc changes the pc and the latch only (R102). -/
theorem effect_latch {s : State} {d : InstRecord} (hd : d.pc = s.pc) : Effect s (s.latch d) d s.reg s.sequential s.calls :=
  ⟨fun _ => rfl, latch_pc_sequential hd, rfl, fun _ => rfl, rfl, rfl⟩

/-- A trap after the latch adds one notification (R231, R233). -/
theorem effect_trap {s : State} {d : InstRecord} (hd : d.pc = s.pc) (k : TrapKind) :
    Effect s ((s.latch d).call (.trap k)) d s.reg s.sequential (.trap k :: s.calls) :=
  ⟨fun _ => rfl, latch_pc_sequential hd, rfl, fun _ => rfl, rfl, rfl⟩

/-- An effect on the state with a call recorded is one on the state, but for the calls. -/
theorem Effect.of_call {s t : State} {c : EnvCall} {d : InstRecord} {regs : RegIdx → Word} {pc : Word} {calls : List EnvCall}
    (h : Effect (s.call c) t d regs pc calls) : Effect s t d regs pc calls :=
  ⟨h.regs, h.pc, h.inst, h.mem, h.config, h.calls⟩

/-- An enabled instruction whose executor takes a trap traps with its own record. -/
theorem traps_of_executor {i : Instr} {s : State} {k : TrapKind} (ht : tagEnabled s.config i.tag = true)
    (hx : indicesExist s.config.nregs (recordOf s.xlen s.pc i) = true)
    (he : executorOf i (s.latch (recordOf s.xlen s.pc i)) = takeTrap k (s.latch (recordOf s.xlen s.pc i))) : Traps i s k :=
  ⟨_, (exec_of_runs ht hx).trans he, effect_trap (recordOf_pc ..) k⟩

/-! ### The dispatch gate (R87, R88) -/

section gate

variable {c : HartConfig} {t : Tag}

theorem tagEnabled_i64 (h : groupOf t = .i64) : tagEnabled c t = (c.xlen == .rv64) := by rw [tagEnabled, h]; rfl

theorem tagEnabled_m32 (h : groupOf t = .m32) : tagEnabled c t = c.extM := by rw [tagEnabled, h]; rfl

theorem tagEnabled_m64 (h : groupOf t = .m64) : tagEnabled c t = (c.extM && c.xlen == .rv64) := by rw [tagEnabled, h]; rfl

/-- The tags that are not enabled: I64 on a 32-bit hart, M32 without `M`, M64 on a 32-bit hart or without `M`. -/
theorem tagEnabled_eq_false (h : (groupOf t = .i64 ∧ c.xlen = .rv32) ∨ (groupOf t = .m32 ∧ c.extM = false) ∨
    (groupOf t = .m64 ∧ (c.xlen = .rv32 ∨ c.extM = false))) : tagEnabled c t = false := by
  obtain ⟨hg, hx⟩ | ⟨hg, hm⟩ | ⟨hg, hx | hm⟩ := h
  · rw [tagEnabled_i64 hg, hx]; rfl
  · rw [tagEnabled_m32 hg, hm]
  · rw [tagEnabled_m64 hg, hx, Bool.and_eq_false_iff]; exact .inr rfl
  · rw [tagEnabled_m64 hg, hm]; rfl

end gate

/-- An instruction of a disabled tag takes the illegal-instruction trap with the Empty record. -/
theorem trapsWith_of_disabled {i : Instr} {s : State} (h : tagEnabled s.config i.tag = false) :
    TrapsWith i s (fmtEmpty i.tag s.pc) .illegalInstruction :=
  ⟨_, (exec_eq_issue i s).trans (issue_of_disabled h), effect_trap rfl _⟩

/-- Settles O20: each listed tag is of the group whose condition fails. -/
theorem disabledTagsTrap : Obligations.DisabledTagsTrap := by
  intro i s h
  have i64 : ∀ t ∈ [Tag.LWU, .LD, .SD, .ADDIW, .SLLIW, .SRLIW, .SRAIW, .ADDW, .SUBW, .SLLW, .SRLW, .SRAW], groupOf t = .i64 := by
    decide
  have m32 : ∀ t ∈ [Tag.MUL, .MULH, .MULHSU, .MULHU, .DIV, .DIVU, .REM, .REMU], groupOf t = .m32 := by decide
  have m64 : ∀ t ∈ [Tag.MULW, .DIVW, .DIVUW, .REMW, .REMUW], groupOf t = .m64 := by decide
  refine trapsWith_of_disabled (tagEnabled_eq_false ?_)
  exact h.imp (fun h => ⟨i64 _ h.1, h.2⟩) (Or.imp (fun h => ⟨m32 _ h.1, h.2⟩) (fun h => ⟨m64 _ h.1, h.2.symm⟩))

/-! ### What the decoder answers (R61, R62, R85) -/

/-- A word of the 4-byte class is an instruction or unknown; any other is rejected with its length. -/
theorem decodeWord_cases (xl : Xlen) (w : Opcode) :
    (opcodeLength w = 4 ∧ ((∃ i, decodeWord xl w = .ok i) ∨ decodeWord xl w = .error .unknown)) ∨
    (opcodeLength w ≠ 4 ∧ decodeWord xl w = .error (.length (opcodeLength w))) := by
  unfold decodeWord
  split
  · next h4 =>
    refine .inl ⟨h4, ?_⟩
    by_cases ht : classify xl w = .UNKNOWN
    · rw [ht]; exact .inr rfl
    · exact .inl (exists_instrOf w ht)
  · next h4 => exact .inr ⟨h4, rfl⟩

/-- A step on a word that CLS does not recognise traps (R85, R203). -/
theorem step_of_unknown {s : State} (h : decodeWord s.xlen s.fetchOpcode = .error .unknown) :
    step s = .next (((s.call (.fetch s.pc)).latch (fmtEmpty .UNKNOWN s.pc)).call (.trap .illegalInstruction)) := by
  rw [step, h]; rfl

theorem step_of_length {s : State} {n : Nat} (h : decodeWord s.xlen s.fetchOpcode = .error (.length n)) :
    step s = .refused (.unsupportedLength n) := by
  rw [step, h]

/-- Settles O19: a 4-byte word that matches no row is unknown, since the decoder agrees with the table; a disabled tag is stopped at
the dispatch gate. -/
theorem unrecognisedWordsTrap : Obligations.UnrecognisedWordsTrap := by
  intro s
  refine ⟨fun h4 hrow => ?_, fun i hi h => ?_⟩
  · obtain ⟨-, ⟨i, hi⟩ | hu⟩ | ⟨hn, -⟩ := decodeWord_cases s.xlen s.fetchOpcode
    · obtain ⟨row, hmem, -, hmatch⟩ := (decoderAgreesWithOpcodeTable _ _ _).1 ⟨i, hi, rfl⟩
      exact absurd hmatch (hrow row hmem)
    · exact ⟨_, step_of_unknown hu, (effect_trap (s := s.call (.fetch s.pc)) rfl _).of_call⟩
    · exact absurd h4 hn
  · obtain ⟨t, ht, heff⟩ := trapsWith_of_disabled (s := s.call (.fetch s.pc)) (tagEnabled_eq_false h)
    exact ⟨t, (step_of_decodeWord hi).trans ht, heff.of_call⟩

/-! ### Refusals (R13, R21, R62) -/

/-- `exec` refuses exactly an enabled instruction one of whose registers does not exist. -/
theorem exec_refused_iff {i : Instr} {s : State} {r : Refusal} : exec i s = .refused r ↔
    r = .regIndex ∧ tagEnabled s.config i.tag = true ∧ indicesExist s.config.nregs (recordOf s.xlen s.pc i) = false := by
  obtain ⟨ht, he⟩ | ⟨ht, hx, he⟩ | ⟨ht, hx, u, he, -⟩ := exec_cases i s <;> rw [he]
  · exact ⟨nofun, fun ⟨_, h, _⟩ => absurd (ht.symm.trans h) nofun⟩
  · exact ⟨fun h => by cases h; exact ⟨rfl, ht, hx⟩, fun ⟨h, _⟩ => by rw [h]⟩
  · exact ⟨nofun, fun ⟨_, _, h⟩ => absurd (hx.symm.trans h) nofun⟩

/-- Settles O21: the index check of an enabled instruction fails. -/
theorem absentRegistersRefused : Obligations.AbsentRegistersRefused := fun _ _ hn ht hr =>
  exec_refused_iff.2 ⟨rfl, ht, indicesExist_eq_false.2 ⟨hn, hr⟩⟩

/-- Settles O22: the three answers of the decoder, of which the length refuses, the instruction refuses as `exec` does, and the unknown
word traps. -/
theorem stepRefusedExactly : Obligations.StepRefusedExactly := by
  intro s
  refine ⟨fun r => ?_, ?_⟩
  · obtain ⟨h4, ⟨i, hi⟩ | hu⟩ | ⟨h4, hl⟩ := decodeWord_cases s.xlen s.fetchOpcode
    · rw [step_of_decodeWord hi, exec_refused_iff, indicesExist_eq_false]
      constructor
      · rintro ⟨rfl, ht, hn, hr⟩
        exact .inr ⟨rfl, hn, i, hi, ht, hr⟩
      · rintro (⟨hne, -⟩ | ⟨rfl, hn, j, hj, ht, hr⟩)
        · exact absurd h4 hne
        · obtain rfl : i = j := Except.ok.inj (hi.symm.trans hj)
          exact ⟨rfl, ht, hn, hr⟩
    · rw [step_of_unknown hu]
      refine ⟨nofun, ?_⟩
      rintro (⟨hne, -⟩ | ⟨-, -, j, hj, -⟩)
      · exact absurd h4 hne
      · rw [hu] at hj; cases hj
    · rw [step_of_length hl]
      constructor
      · intro h; cases h; exact .inl ⟨h4, rfl⟩
      · rintro (⟨-, rfl⟩ | ⟨-, -, j, hj, -⟩)
        · rfl
        · rw [hl] at hj; cases hj
  · cases step s with
    | next t => exact .inl ⟨t, rfl⟩
    | refused r => exact .inr ⟨r, rfl⟩
    | fault f => nomatch f

/-! ### Instructions that only advance the pc (R92, R200 to R202) -/

/-- The executor of a computational instruction is one gated write of its destination. -/
theorem executorOf_computational {i : Instr} (h : isComputational i = true) (s : State) :
    ∃ v, executorOf i s = .next (s.wr s.inst.rd v) := by
  cases i
  case jal | jalr | beq | bne | blt | bge | bltu | bgeu => cases h
  case lb | lh | lw | lbu | lhu | lwu | ld | sb | sh | sw | sd | fence | ecall | ebreak => cases h
  all_goals exact ⟨_, rfl⟩

/-- A gated write of register 0 is none (R105). -/
theorem State.wr_zero (s : State) (v : Word) : s.wr 0 v = s := rfl

/-- Settles O33: with `rd` = 0 the gated write is none, and `FENCE` makes none. -/
theorem computationWithoutDestination : Obligations.ComputationWithoutDestination := by
  intro s i hi ht hr
  have hrd : (recordOf s.xlen s.pc i).rd = 0 := by
    obtain ⟨-, hd⟩ | ⟨rd, rs1, fields, rfl⟩ := hi
    · rw [recordOf_rd, hd]; rfl
    · rfl
  have hexec : executorOf i (s.latch (recordOf s.xlen s.pc i)) = .next (s.latch (recordOf s.xlen s.pc i)) := by
    obtain ⟨hc, -⟩ | ⟨rd, rs1, fields, rfl⟩ := hi
    · obtain ⟨v, hv⟩ := executorOf_computational hc (s.latch (recordOf s.xlen s.pc i))
      rw [hv, State.latch_inst, hrd, State.wr_zero]
    · rfl
  have hx : indicesExist s.config.nregs (recordOf s.xlen s.pc i) = true :=
    indicesExist_of_hasRegisters hr (.inl hrd) (.inr (by simp)) (.inr (by simp))
  exact ⟨_, (exec_of_runs ht hx).trans hexec, effect_latch (recordOf_pc ..)⟩

/-- An instruction whose latched record is the Empty one runs its executor on every hart (R71). -/
theorem exec_of_empty {i : Instr} {s : State} (ht : tagEnabled s.config i.tag = true)
    (hd : recordOf s.xlen s.pc i = fmtEmpty i.tag s.pc) : exec i s = executorOf i (s.latch (fmtEmpty i.tag s.pc)) := by
  have hx : indicesExist s.config.nregs (recordOf s.xlen s.pc i) = true :=
    indicesExist_of_hasRegisters (rs := []) nofun (.inl (by rw [hd]; rfl)) (.inl (by rw [hd]; rfl)) (.inl (by rw [hd]; rfl))
  rw [exec_of_runs ht hx, hd]

/-- Settles O45: the executor of `FENCE` leaves the latched state, whatever the ignored fields. -/
theorem fenceOnlyAdvances : Obligations.FenceOnlyAdvances := fun _ _ _ _ =>
  ⟨encodeI_masked .., _, exec_of_empty rfl rfl, effect_latch rfl⟩

/-- Settles O46: both executors take their trap on the latched Empty record. -/
theorem callAndBreakpointTrap : Obligations.CallAndBreakpointTrap := fun _ =>
  ⟨⟨rfl, _, exec_of_empty rfl rfl, effect_trap rfl _⟩, ⟨rfl, _, exec_of_empty rfl rfl, effect_trap rfl _⟩⟩

end Sys2Proof.Machine
end

section
/-! PROOFS. A step reads `M` and `C` of the extension letters and nothing else of the letters or `abi_name` (R6, R25, D2): relabelling the
hart commutes with every executor, with the dispatch gate, and so with the step. -/

namespace Sys2Proof.Machine

section relabel

variable {s : State} {letters : List Char} (abiName : Bool)

/-! Relabelling leaves what the executors read, but for the letters. -/

@[simp] theorem relabel_xlen : (s.relabel letters abiName).xlen = s.xlen := rfl

@[simp] theorem relabel_reg (r : RegIdx) : (s.relabel letters abiName).reg r = s.reg r := rfl

@[simp] theorem relabel_inst : (s.relabel letters abiName).inst = s.inst := rfl

@[simp] theorem relabel_pc : (s.relabel letters abiName).pc = s.pc := rfl

@[simp] theorem relabel_nregs : (s.relabel letters abiName).config.nregs = s.config.nregs := rfl

@[simp] theorem relabel_fetchOpcode : (s.relabel letters abiName).fetchOpcode = s.fetchOpcode := rfl

@[simp] theorem relabel_pcRelative : pcRelative (s.relabel letters abiName) = pcRelative s := rfl

@[simp] theorem relabel_effectiveAddress : effectiveAddress (s.relabel letters abiName) = effectiveAddress s := rfl

/-- The extension letters decide a misaligned transfer or access through `C` alone (R112). -/
theorem relabel_extC (hC : letters.contains 'C' = s.config.extC) : (s.relabel letters abiName).config.extC = s.config.extC := hC

theorem jumpTo_relabel (hC : letters.contains 'C' = s.config.extC) (a : Word) :
    jumpTo a (s.relabel letters abiName) = mapNext (·.relabel letters abiName) (jumpTo a s) := by
  simp only [jumpTo, relabel_extC abiName hC]
  split <;> rfl

theorem branchOn_relabel (hC : letters.contains 'C' = s.config.extC) (cond : Xlen → Word → Word → Bool) :
    branchOn cond (s.relabel letters abiName) = mapNext (·.relabel letters abiName) (branchOn cond s) := by
  simp only [branchOn, relabel_extC abiName hC, relabel_xlen, relabel_reg, relabel_inst, relabel_pcRelative]
  split
  · split <;> rfl
  · rfl

theorem loadFrom_relabel (hC : letters.contains 'C' = s.config.extC) (n : AccessSize) (ext : Xlen → AccessSize → Word → Word) :
    loadFrom n ext (s.relabel letters abiName) = mapNext (·.relabel letters abiName) (loadFrom n ext s) := by
  simp only [loadFrom, relabel_extC abiName hC, relabel_inst, relabel_effectiveAddress]
  split
  · rfl
  · split <;> rfl

theorem storeTo_relabel (hC : letters.contains 'C' = s.config.extC) (n : AccessSize) :
    storeTo n (s.relabel letters abiName) = mapNext (·.relabel letters abiName) (storeTo n s) := by
  simp only [storeTo, relabel_extC abiName hC, relabel_effectiveAddress]
  split <;> rfl

/-- Every executor does the same on the relabelled hart. -/
theorem executorOf_relabel (hC : letters.contains 'C' = s.config.extC) (i : Instr) :
    executorOf i (s.relabel letters abiName) = mapNext (·.relabel letters abiName) (executorOf i s) := by
  cases i
  case jal | jalr => exact jumpTo_relabel abiName hC _
  case beq | bne | blt | bge | bltu | bgeu => exact branchOn_relabel abiName hC _
  case lb | lh | lw | lbu | lhu | lwu | ld => exact loadFrom_relabel abiName hC _ _
  case sb | sh | sw | sd => exact storeTo_relabel abiName hC _
  all_goals rfl

/-- The dispatch gate reads `M` and `XLEN` (R88, D2). -/
theorem tagEnabled_relabel (hM : letters.contains 'M' = s.config.extM) (t : Tag) :
    tagEnabled (s.relabel letters abiName).config t = tagEnabled s.config t := by
  have hM' : (s.relabel letters abiName).config.extM = s.config.extM := hM
  unfold tagEnabled groupEnabled
  rw [hM']
  rfl

theorem exec_relabel (hM : letters.contains 'M' = s.config.extM) (hC : letters.contains 'C' = s.config.extC) (i : Instr) :
    exec i (s.relabel letters abiName) = mapNext (·.relabel letters abiName) (exec i s) := by
  simp only [exec_eq_issue, issue, tagEnabled_relabel abiName hM, relabel_nregs, relabel_xlen, relabel_pc]
  split
  · split
    · next hx => exact (if_pos hx).trans (executorOf_relabel (s := s.latch (recordOf s.xlen s.pc i)) abiName hC i)
    · next hx => exact if_neg hx
  · rfl

end relabel

/-- Settles O10: the relabelled hart fetches and decodes the same word and executes it the same; no step writes the configuration. -/
theorem otherLettersAndAbiNameHaveNoEffect : Obligations.OtherLettersAndAbiNameHaveNoEffect := by
  intro s letters abiName hM hC
  refine ⟨?_, fun t h => step_config h⟩
  simp only [step, relabel_xlen, relabel_fetchOpcode]
  cases decodeWord s.xlen s.fetchOpcode with
  | ok i => exact exec_relabel (s := s.call (.fetch s.pc)) abiName hM hC i
  | error r => cases r <;> rfl

end Sys2Proof.Machine
end

section
/-! PROOFS. The computational instructions (41_alu_immediate.md, 42_alu_register.md, 46_muldiv.md): one rule per executor reduces a
completion to the value it writes, and the values are the integers of the rules. -/

namespace Sys2Proof.Machine

/-! ### One rule per executor -/

section rules

variable {i : Instr} {s : State} {tag : Tag} {rd rs1 rs2 : RegIdx} {v : Word}

theorem computes_aluImmediate {op : AluOp} {imm : BitVec 12} (he : executorOf i = aluImmediate op)
    (hd : recordOf s.xlen s.pc i = recordI s.xlen tag s.pc rd rs1 imm) (ht : tagEnabled s.config i.tag = true)
    (hr : s.hasRegisters [rd, rs1]) (hv : alu s.xlen op (s.reg rs1) (s.xlen.sext imm) = v) : Computes i s rd v := by
  refine computes_of_executor ht ?_ ?_ <;> rw [hd]
  · exact indicesExist_of_hasRegisters hr (.inr (by simp [recordI])) (.inr (by simp [recordI])) (.inl rfl)
  · rw [he, ← hv]; rfl

theorem computes_register {e : State → Result} (he : executorOf i = e)
    (hd : recordOf s.xlen s.pc i = recordR tag s.pc rd rs1 rs2) (ht : tagEnabled s.config i.tag = true)
    (hr : s.hasRegisters [rd, rs1, rs2])
    (hv : e (s.latch (recordR tag s.pc rd rs1 rs2)) = .next ((s.latch (recordR tag s.pc rd rs1 rs2)).wr rd v)) :
    Computes i s rd v := by
  refine computes_of_executor ht ?_ ?_ <;> rw [hd]
  · exact indicesExist_of_hasRegisters hr (.inr (by simp [recordR])) (.inr (by simp [recordR])) (.inr (by simp [recordR]))
  · rw [he, hv]

theorem computes_aluRegister {op : AluOp} (he : executorOf i = aluRegister op)
    (hd : recordOf s.xlen s.pc i = recordR tag s.pc rd rs1 rs2) (ht : tagEnabled s.config i.tag = true)
    (hr : s.hasRegisters [rd, rs1, rs2]) (hv : alu s.xlen op (s.reg rs1) (s.reg rs2) = v) : Computes i s rd v :=
  computes_register he hd ht hr (by rw [← hv]; rfl)

theorem computes_mulDiv {op : MduOp} (he : executorOf i = mulDiv op)
    (hd : recordOf s.xlen s.pc i = recordR tag s.pc rd rs1 rs2) (ht : tagEnabled s.config i.tag = true)
    (hr : s.hasRegisters [rd, rs1, rs2]) (hv : mdu s.xlen op (s.reg rs1) (s.reg rs2) = v) : Computes i s rd v :=
  computes_register he hd ht hr (by rw [← hv]; rfl)

theorem computes_mulDivW {op : MduOp} (he : executorOf i = mulDivW op)
    (hd : recordOf s.xlen s.pc i = recordR tag s.pc rd rs1 rs2) (ht : tagEnabled s.config i.tag = true)
    (hr : s.hasRegisters [rd, rs1, rs2]) (hv : mduW s.xlen op (s.reg rs1) (s.reg rs2) = v) : Computes i s rd v :=
  computes_register he hd ht hr (by rw [← hv]; rfl)

theorem computes_upper {imm : BitVec 20} {e : State → Result} (he : executorOf i = e)
    (hd : recordOf s.xlen s.pc i = recordU s.xlen tag s.pc rd imm) (ht : tagEnabled s.config i.tag = true)
    (hr : s.hasRegisters [rd])
    (hv : e (s.latch (recordU s.xlen tag s.pc rd imm)) = .next ((s.latch (recordU s.xlen tag s.pc rd imm)).wr rd v)) :
    Computes i s rd v := by
  refine computes_of_executor ht ?_ ?_ <;> rw [hd]
  · exact indicesExist_of_hasRegisters hr (.inr (by simp [recordU])) (.inl rfl) (.inl rfl)
  · rw [he, hv]

end rules

/-! ### Address sums (R110) -/

/-- A word plus a sign-extended immediate, as an integer (R110, R111). -/
theorem add_sext_eq (xl : Xlen) {n : Nat} (hn : n ≤ 64) (a : Word) (v : BitVec n) :
    xl.add a (xl.sext v) = xl.residue (a.toNat + v.toInt) := by
  rw [xl.add_sext hn, xl.residue_emod_add]

/-- A U immediate is the field times 4096 (R69). -/
theorem upper_toInt (imm : BitVec 20) : (imm ++ 0#12).toInt = imm.toInt * 2 ^ 12 := by
  rw [BitVec.toInt_eq_toNat_cond, BitVec.toInt_eq_toNat_cond, append_toNat, BitVec.toNat_ofNat]
  omega

/-- Settles O23: `LUI` writes the latched immediate, `AUIPC` its sum with the instruction's address. -/
theorem upperImmediateResults : Obligations.UpperImmediateResults := by
  intro s rd imm hr
  have himm : s.xlen.sext (imm ++ 0#12) = s.xlen.residue (imm.toInt * 2 ^ 12) := s.xlen.sext_of_toInt (by decide) (upper_toInt imm)
  have hsum : s.xlen.add s.pc (s.xlen.sext (imm ++ 0#12)) = s.xlen.residue (s.pc.toNat + imm.toInt * 2 ^ 12) := by
    rw [add_sext_eq _ (by decide), upper_toInt]
  exact ⟨⟨encodeU_masked .., computes_upper rfl rfl rfl hr (by rw [← himm]; rfl)⟩,
    ⟨encodeU_masked .., computes_upper rfl rfl rfl hr (by rw [← hsum]; rfl)⟩⟩

/-! ### Register-immediate (R133 to R141) -/

/-- A sum modulo 2^`XLEN` depends on an addend through its residue. -/
theorem residue_add_unsigned (xl : Xlen) (y : Nat) (z : Int) : xl.residue (y + xl.unsigned z : Nat) = xl.residue (y + z) := by
  rw [Nat.cast_add, ← xl.residue_toNat, xl.coe_residue_toNat, xl.residue_add_emod]

/-- Settles O24: the operands are the register's value and the sign-extended immediate's. -/
theorem immediateArithmeticResults : Obligations.ImmediateArithmeticResults := by
  intro s rd rs1 imm hr
  have u1 := view_reg_toNat s rs1
  have sg1 := view_reg_toInt s rs1
  have uimm := s.xlen.view_sext_toNat (by decide) imm
  have simm := s.xlen.view_sext_toInt (by decide) imm
  refine ⟨⟨encodeI_masked .., computes_aluImmediate rfl rfl rfl hr ?_⟩, ⟨encodeI_masked .., computes_aluImmediate rfl rfl rfl hr ?_⟩,
    ⟨encodeI_masked .., computes_aluImmediate rfl rfl rfl hr ?_⟩, ⟨encodeI_masked .., computes_aluImmediate rfl rfl rfl hr ?_⟩,
    ⟨encodeI_masked .., computes_aluImmediate rfl rfl rfl hr ?_⟩, ⟨encodeI_masked .., computes_aluImmediate rfl rfl rfl hr ?_⟩⟩
  · rw [alu_add, u1, uimm, residue_add_unsigned]
  · rw [alu_slt, sg1, simm]
  · rw [alu_sltu, u1, uimm]
  · rw [alu_xor, u1, uimm]
  · rw [alu_or, u1, uimm]
  · rw [alu_and, u1, uimm]

/-- The amount an XLEN-wide shift-immediate shifts by is its amount field: the upper field is a multiple of `XLEN` (R74, R108). -/
theorem shamt6_amount {xl : Xlen} {u shamt : BitVec 6} (hu : u.toNat < 32) (h : shamt.toNat < xl.bits) :
    (xl.view (xl.sext (u ++ shamt))).toNat % xl.bits = shamt.toNat := by
  have hpos : (u ++ shamt).toInt = ((u ++ shamt).toNat : Int) := by
    rw [BitVec.toInt_eq_toNat_cond, append_toNat]
    omega
  rw [xl.view_sext_toNat (by decide), hpos, xl.unsigned_natCast, append_toNat]
  cases xl <;> simp only [Xlen.bits] at h ⊢ <;> omega

/-- The word of a shift-immediate under the mask of its width is the upper field, `funct3` and the primary opcode (R79). -/
theorem encodeI_masked_shift {xl : Xlen} {mask : Opcode} {f3 : BitVec 3} {op : BitVec 7} {rd rs1 : RegIdx} {u shamt : BitVec 6}
    (h : shamt.toNat < xl.bits) (h32 : xl = .rv32 → mask = 0xFE00707F#32) (h64 : xl = .rv64 → mask = 0xFC00707F#32) :
    encodeI f3 op rd rs1 (u ++ shamt) &&& mask = encodeI f3 op 0 0 (u ++ 0#6) := by
  cases xl with
  | rv64 =>
    rw [h64 rfl]
    exact encodeI_masked_shamt6 ..
  | rv32 =>
    have hsplit : u ++ shamt = (u ++ 0#1) ++ shamt.extractLsb' 0 5 := by
      apply BitVec.eq_of_toNat_eq
      simp only [append_toNat, extract_toNat, BitVec.toNat_ofNat]
      simp only [Xlen.bits] at h
      omega
    have hzero : (u ++ 0#6 : BitVec 12) = (u ++ 0#1) ++ 0#5 := by
      apply BitVec.eq_of_toNat_eq
      simp only [append_toNat, BitVec.toNat_ofNat]
      omega
    rw [h32 rfl, hsplit, hzero]
    exact encodeI_masked_shamt5 ..

/-- Settles O25: the latched immediate is the upper field and the amount, of which the shift takes the amount. -/
theorem shiftImmediateResults : Obligations.ShiftImmediateResults := by
  intro s rd rs1 shamt hr h mask
  have h32 : s.xlen = .rv32 → mask = 0xFE00707F#32 := fun e => by simp only [mask, e]; rfl
  have h64 : s.xlen = .rv64 → mask = 0xFC00707F#32 := fun e => by simp only [mask, e]; rfl
  have u1 := view_reg_toNat s rs1
  have sg1 := view_reg_toInt s rs1
  refine ⟨⟨encodeI_masked_shift h h32 h64, computes_aluImmediate rfl rfl rfl hr ?_⟩,
    ⟨encodeI_masked_shift h h32 h64, computes_aluImmediate rfl rfl rfl hr ?_⟩,
    ⟨encodeI_masked_shift h h32 h64, computes_aluImmediate rfl rfl rfl hr ?_⟩⟩
  · rw [alu_sll, u1, shamt6_amount (by decide) h]; push_cast; rfl
  · rw [alu_srl, u1, shamt6_amount (by decide) h]
  · rw [alu_sra, sg1, shamt6_amount (by decide) h]

/-! ### Register-register (R151 to R160) -/

/-- Settles O27: the operands are the two registers' values, unsigned or two's-complement. -/
theorem registerArithmeticResults : Obligations.RegisterArithmeticResults := by
  intro s rd rs1 rs2 hr
  have u := view_reg_toNat s
  have sg := view_reg_toInt s
  refine ⟨⟨encodeR_masked .., computes_aluRegister rfl rfl rfl hr ?_⟩, ⟨encodeR_masked .., computes_aluRegister rfl rfl rfl hr ?_⟩,
    ⟨encodeR_masked .., computes_aluRegister rfl rfl rfl hr ?_⟩, ⟨encodeR_masked .., computes_aluRegister rfl rfl rfl hr ?_⟩,
    ⟨encodeR_masked .., computes_aluRegister rfl rfl rfl hr ?_⟩, ⟨encodeR_masked .., computes_aluRegister rfl rfl rfl hr ?_⟩,
    ⟨encodeR_masked .., computes_aluRegister rfl rfl rfl hr ?_⟩⟩
  · rw [alu_add, u, u, Nat.cast_add]
  · rw [alu_sub, u, u]
  · rw [alu_slt, sg, sg]
  · rw [alu_sltu, u, u]
  · rw [alu_xor, u, u]
  · rw [alu_or, u, u]
  · rw [alu_and, u, u]

/-- Settles O28: the amount is the second register's value modulo `XLEN`. -/
theorem registerShiftResults : Obligations.RegisterShiftResults := by
  intro s rd rs1 rs2 hr
  have u := view_reg_toNat s
  have sg := view_reg_toInt s
  refine ⟨⟨encodeR_masked .., computes_aluRegister rfl rfl rfl hr ?_⟩, ⟨encodeR_masked .., computes_aluRegister rfl rfl rfl hr ?_⟩,
    ⟨encodeR_masked .., computes_aluRegister rfl rfl rfl hr ?_⟩⟩
  · rw [alu_sll, u, u]; push_cast; rfl
  · rw [alu_srl, u, u]
  · rw [alu_sra, sg, u]

/-! ### The `W` forms on a 64-bit hart (R142 to R145, R161 to R165) -/

/-- A 32-bit result depends on an integer through its residue modulo 2^32 (R109). -/
theorem wordResidue_congr {y z : Int} (h : y % 2 ^ 32 = z % 2 ^ 32) : wordResidue y = wordResidue z := by
  rw [wordResidue, wordResidue, ← Int.emod_bmod, ← Int.emod_bmod (x := z)]
  norm_num at h ⊢
  rw [h]

/-- On a 64-bit hart the register's value is the whole word. -/
theorem u_of_rv64 {s : State} (hx : s.xlen = .rv64) (r : RegIdx) : s.u r = (s.reg r).toNat := by
  rw [State.u, hx]
  exact Nat.mod_eq_of_lt (s.reg r).isLt

/-- A sum with a sign-extended immediate, modulo 2^32 (R142). -/
theorem addw_sext (a : Word) (imm : BitVec 12) :
    alu .rv64 .addw a (Xlen.rv64.sext imm) = wordResidue (a.toNat + imm.toInt) := by
  rw [alu_addw, Xlen.sext_eq _ (by decide)]
  apply wordResidue_congr
  have h := Xlen.rv64.coe_residue_toNat imm.toInt
  simp only [Xlen.bits] at h
  push_cast [h]
  omega

/-- The amount of a `W` shift-immediate is its amount field: the upper field is a multiple of 32 (R74, R108). -/
theorem shamt5_amount (u : BitVec 7) (shamt : BitVec 5) : (Xlen.rv64.sext (u ++ shamt)).toNat % 32 = shamt.toNat := by
  have h := Xlen.rv64.coe_residue_toNat (u ++ shamt).toInt
  rw [← Xlen.sext_eq _ (by decide), BitVec.toInt_eq_toNat_cond, append_toNat] at h
  simp only [Xlen.bits] at h
  omega

/-- Settles O26: on a 64-bit hart the 32-bit results depend on the low words, and the amount is the 5-bit field. -/
theorem wordImmediateResults : Obligations.WordImmediateResults := by
  intro s rd rs1 imm shamt hx hr
  have u1 := u_of_rv64 hx rs1
  have i64 : ∀ t, groupOf t = .i64 → tagEnabled s.config t = true := fun t ht => by
    rw [tagEnabled_i64 ht]; exact beq_iff_eq.2 hx
  refine ⟨⟨encodeI_masked .., computes_aluImmediate rfl rfl (i64 _ rfl) hr ?_⟩,
    ⟨encodeI_masked_shamt5 .., computes_aluImmediate rfl rfl (i64 _ rfl) hr ?_⟩,
    ⟨encodeI_masked_shamt5 .., computes_aluImmediate rfl rfl (i64 _ rfl) hr ?_⟩,
    ⟨encodeI_masked_shamt5 .., computes_aluImmediate rfl rfl (i64 _ rfl) hr ?_⟩⟩ <;> rw [hx]
  · rw [addw_sext, u1]
  · rw [alu_sllw, shamt5_amount]; push_cast; rfl
  · rw [alu_srlw, shamt5_amount]; rfl
  · rw [alu_sraw, shamt5_amount]; rfl

/-- Settles O29: as O26, with the second operand from a register and its amount modulo 32. -/
theorem wordRegisterResults : Obligations.WordRegisterResults := by
  intro s rd rs1 rs2 hx hr
  have u := u_of_rv64 hx
  have i64 : ∀ t, groupOf t = .i64 → tagEnabled s.config t = true := fun t ht => by
    rw [tagEnabled_i64 ht]; exact beq_iff_eq.2 hx
  refine ⟨⟨encodeR_masked .., computes_aluRegister rfl rfl (i64 _ rfl) hr ?_⟩,
    ⟨encodeR_masked .., computes_aluRegister rfl rfl (i64 _ rfl) hr ?_⟩,
    ⟨encodeR_masked .., computes_aluRegister rfl rfl (i64 _ rfl) hr ?_⟩,
    ⟨encodeR_masked .., computes_aluRegister rfl rfl (i64 _ rfl) hr ?_⟩,
    ⟨encodeR_masked .., computes_aluRegister rfl rfl (i64 _ rfl) hr ?_⟩⟩ <;> rw [hx]
  · rw [alu_addw, u, u, Nat.cast_add]
  · rw [alu_subw, u, u]
  · rw [alu_sllw, u]; push_cast; rfl
  · rw [alu_srlw, u]; rfl
  · rw [alu_sraw, u]; rfl

/-! ### Multiply and divide (R211 to R223) -/

/-- Settles O30: the low half is the product's residue, a high half the residue of its quotient by `2^XLEN`. -/
theorem multiplyResults : Obligations.MultiplyResults := by
  intro s rd rs1 rs2 hm hr
  have u := view_reg_toNat s
  have sg := view_reg_toInt s
  have m32 : ∀ t, groupOf t = .m32 → tagEnabled s.config t = true := fun t ht => (tagEnabled_m32 ht).trans hm
  refine ⟨⟨encodeR_masked .., computes_mulDiv rfl rfl (m32 _ rfl) hr (Xlen.lift2_residue ?_)⟩,
    ⟨encodeR_masked .., computes_mulDiv rfl rfl (m32 _ rfl) hr (Xlen.lift2_residue ?_)⟩,
    ⟨encodeR_masked .., computes_mulDiv rfl rfl (m32 _ rfl) hr (Xlen.lift2_residue ?_)⟩,
    ⟨encodeR_masked .., computes_mulDiv rfl rfl (m32 _ rfl) hr (Xlen.lift2_residue ?_)⟩⟩
  · rw [mul_eq, u, u, Nat.cast_mul]
  · rw [mulh_eq, sg, sg]
  · rw [mulhsu_eq, sg, u]
  · rw [mulhu_eq, u, u]

/-- Settles O31: the unit's cases (zero divisor, signed overflow, the rest) are the rule's. -/
theorem divideResults : Obligations.DivideResults := by
  intro s rd rs1 rs2 hm hr
  have u := view_reg_toNat s
  have sg := view_reg_toInt s
  have m32 : ∀ t, groupOf t = .m32 → tagEnabled s.config t = true := fun t ht => (tagEnabled_m32 ht).trans hm
  refine ⟨⟨encodeR_masked .., computes_mulDiv rfl rfl (m32 _ rfl) hr (Xlen.lift2_residue ?_)⟩,
    ⟨encodeR_masked .., computes_mulDiv rfl rfl (m32 _ rfl) hr (Xlen.lift2_residue ?_)⟩,
    ⟨encodeR_masked .., computes_mulDiv rfl rfl (m32 _ rfl) hr (Xlen.lift2_residue ?_)⟩,
    ⟨encodeR_masked .., computes_mulDiv rfl rfl (m32 _ rfl) hr (Xlen.lift2_residue ?_)⟩⟩
  · rw [div_eq s.xlen.bits_pos, sg, sg, u]
  · rw [divu_eq, u, u]
  · rw [rem_eq s.xlen.bits_pos, sg, sg, u]
  · rw [remu_eq, u, u]

/-- The unsigned value of a register's low 32 bits (R109). -/
theorem low32_reg_toNat (s : State) (r : RegIdx) : (low32 (s.reg r)).toNat = s.u32 r := BitVec.toNat_setWidth ..

/-- The two's-complement value of a register's low 32 bits (R109). -/
theorem low32_reg_toInt (s : State) (r : RegIdx) : (low32 (s.reg r)).toInt = s.sg32 r := low32_toInt _

/-- Settles O32: the unit at 32 bits on the low words, its result sign-extended. -/
theorem mulDivWordResults : Obligations.MulDivWordResults := by
  intro s rd rs1 rs2 hx hm hr
  have u := low32_reg_toNat s
  have sg := low32_reg_toInt s
  have m64 : ∀ t, groupOf t = .m64 → tagEnabled s.config t = true := fun t ht => by
    rw [tagEnabled_m64 ht, hm]; exact beq_iff_eq.2 hx
  refine ⟨⟨encodeR_masked .., computes_mulDivW rfl rfl (m64 _ rfl) hr ?_⟩,
    ⟨encodeR_masked .., computes_mulDivW rfl rfl (m64 _ rfl) hr ?_⟩,
    ⟨encodeR_masked .., computes_mulDivW rfl rfl (m64 _ rfl) hr ?_⟩,
    ⟨encodeR_masked .., computes_mulDivW rfl rfl (m64 _ rfl) hr ?_⟩,
    ⟨encodeR_masked .., computes_mulDivW rfl rfl (m64 _ rfl) hr ?_⟩⟩ <;> rw [hx] <;> apply mduW_of_eq
  · rw [mul_eq, u, u, Nat.cast_mul]
  · rw [div_eq (by decide), sg, sg, u]
  · rw [divu_eq, u, u]
  · rw [rem_eq (by decide), sg, sg, u]
  · rw [remu_eq, u, u]

end Sys2Proof.Machine
end

section
/-! PROOFS. Control transfer (43_control_transfer.md): targets and effective addresses as integers, the detector on a target, and the two
ways a jump or a taken branch can end. -/

namespace Sys2Proof.Machine

/-! ### Addresses as integers (R110 to R112) -/

/-- The detector accepts the address of an integer exactly where the integer is aligned: 4 divides `2^XLEN` (R112). -/
theorem misaligned_residue (s : State) (z : Int) : misaligned s.config.extC (s.xlen.residue z) = true ↔ ¬ s.aligned z := by
  have h := s.xlen.coe_residue_toNat z
  rw [alignmentDetector, State.aligned]
  generalize (s.xlen.residue z).toNat = n at h
  cases s.config.extC <;> cases hx : s.xlen <;> rw [hx] at h <;> simp only [Xlen.bits] at h <;> simp <;> omega

theorem misaligned_of_aligned {s : State} {z : Int} (h : s.aligned z) : misaligned s.config.extC (s.xlen.residue z) = false :=
  Bool.eq_false_iff.2 fun e => (misaligned_residue s z).1 e h

/-- The target of `JAL` and of a branch: the instruction's address plus the offset (R110). -/
theorem pcRelative_latch {s : State} {d : InstRecord} {n : Nat} {imm : BitVec n} (hn : n ≤ 64) (hpc : d.pc = s.pc)
    (himm : d.imm = s.xlen.sext imm) : pcRelative (s.latch d) = s.xlen.residue (s.pc.toNat + imm.toInt) := by
  rw [pcRelative, State.latch_inst, State.latch_xlen, hpc, himm, add_sext_eq _ hn]

/-- The link value is the next sequential instruction's address (R110). -/
theorem linkValue_latch {s : State} {d : InstRecord} (hpc : d.pc = s.pc) : linkValue (s.latch d) = s.sequential :=
  latch_pc_sequential hpc

/-- The effective address: the base register's value plus the offset (R111). -/
theorem effectiveAddress_latch {s : State} {d : InstRecord} {n : Nat} {imm : BitVec n} (hn : n ≤ 64)
    (himm : d.imm = s.xlen.sext imm) : effectiveAddress (s.latch d) = s.xlen.residue (s.u d.rs1 + imm.toInt) := by
  rw [effectiveAddress, State.latch_inst, State.latch_xlen, State.reg_latch, himm, Xlen.add_sext _ hn, coe_u]

/-- The `JALR` target is the effective address with bit 0 cleared (R111). -/
theorem jalrTarget_latch {s : State} {d : InstRecord} {n : Nat} {imm : BitVec n} (hn : n ≤ 64)
    (himm : d.imm = s.xlen.sext imm) :
    jalrTarget (s.latch d) = s.xlen.residue (2 * ((s.u d.rs1 + imm.toInt) / 2)) := by
  rw [jalrTarget, effectiveAddress_latch hn himm]
  apply BitVec.eq_of_toNat_eq
  rw [clear_bit_zero_toNat]
  have hz := s.xlen.coe_residue_toNat (s.u d.rs1 + imm.toInt)
  have ht := s.xlen.coe_residue_toNat (2 * ((s.u d.rs1 + imm.toInt) / 2))
  cases hx : s.xlen <;> rw [hx] at hz ht <;> simp only [Xlen.bits] at hz ht <;> omega

/-! ### Jumps (R171, R172) -/

/-- A jump to an accepted target writes the pc and the link register; to another it traps. -/
theorem jump_results {i : Instr} {s : State} {rd : RegIdx} {a : Word} {z : Int}
    (he : executorOf i (s.latch (recordOf s.xlen s.pc i)) = jumpTo a (s.latch (recordOf s.xlen s.pc i)))
    (hrd : (recordOf s.xlen s.pc i).rd = rd) (ht : tagEnabled s.config i.tag = true)
    (hx : indicesExist s.config.nregs (recordOf s.xlen s.pc i) = true) (ha : a = s.xlen.residue z) :
    (s.aligned z → Transfers i s rd s.sequential (s.xlen.residue z)) ∧
    (¬ s.aligned z → Traps i s .instructionAddressMisaligned) := by
  subst ha
  refine ⟨fun h => ?_, fun h => traps_of_executor ht hx ?_⟩
  · refine ⟨_, ((exec_of_runs ht hx).trans he).trans (if_neg ?_), fun r => ?_, rfl, rfl, fun _ => rfl, rfl, rfl⟩
    · exact Bool.eq_false_iff.1 (misaligned_of_aligned h)
    · rw [State.reg_wr, State.latch_inst, hrd, linkValue_latch (recordOf_pc ..)]
      rfl
  · exact he.trans (if_pos ((misaligned_residue s z).2 h))

/-- Settles O35: a jump to the instruction's address plus the offset. -/
theorem jalResults : Obligations.JalResults := by
  intro s rd imm hr
  refine ⟨encodeJ_masked .., jump_results rfl rfl rfl ?_ (pcRelative_latch (by decide) rfl rfl)⟩
  exact indicesExist_of_hasRegisters hr (.inr List.mem_cons_self) (.inl rfl) (.inl rfl)

/-- Settles O36: a jump to the base register's value plus the offset, with bit 0 cleared. -/
theorem jalrResults : Obligations.JalrResults := by
  intro s rd rs1 imm hr
  refine ⟨encodeI_masked .., jump_results rfl rfl rfl ?_ (jalrTarget_latch (by decide) rfl)⟩
  exact indicesExist_of_hasRegisters hr (.inr (by simp [recordOf, recordI])) (.inr (by simp [recordOf, recordI])) (.inl rfl)

/-! ### Branches (R173 to R179) -/

/-- A branch executor on the latched record, where the comparator decides `cond`: the three ways it can end. -/
theorem branch_results {i : Instr} {s : State} {tag : Tag} {rs1 rs2 : RegIdx} {imm : BitVec 13} {c : Xlen → Word → Word → Bool}
    {cond : Prop} (he : executorOf i = branchOn c) (hd : recordOf s.xlen s.pc i = recordB s.xlen tag s.pc rs1 rs2 imm)
    (ht : tagEnabled s.config i.tag = true) (hr : s.hasRegisters [rs1, rs2])
    (hc : c s.xlen (s.reg rs1) (s.reg rs2) = true ↔ cond) :
    (cond → s.aligned (s.pc.toNat + imm.toInt) → Transfers i s 0 0 (s.xlen.residue (s.pc.toNat + imm.toInt))) ∧
    (cond → ¬ s.aligned (s.pc.toNat + imm.toInt) → Traps i s .instructionAddressMisaligned) ∧
    (¬ cond → Transfers i s 0 0 s.sequential) := by
  have hx : indicesExist s.config.nregs (recordOf s.xlen s.pc i) = true := by
    rw [hd]
    exact indicesExist_of_hasRegisters hr (.inl rfl) (.inr (by simp [recordB])) (.inr (by simp [recordB]))
  have hrun : exec i s = branchOn c (s.latch (recordB s.xlen tag s.pc rs1 rs2 imm)) := by rw [exec_of_runs ht hx, he, hd]
  have hpc := pcRelative_latch (s := s) (d := recordB s.xlen tag s.pc rs1 rs2 imm) (by decide) rfl rfl
  have hw : ∀ r, s.reg r = s.written 0 0 r := fun r => (if_neg fun h => h.2 rfl).symm
  refine ⟨fun h ha => ?_, fun h ha => traps_of_executor ht hx ?_, fun h => ?_⟩
  · refine ⟨_, hrun.trans ((if_pos (hc.2 h)).trans (if_neg ?_)), hw, hpc, hd.symm, fun _ => rfl, rfl, rfl⟩
    rw [hpc]
    exact Bool.eq_false_iff.1 (misaligned_of_aligned ha)
  · rw [he, hd]
    refine (if_pos (hc.2 h)).trans (if_pos ?_)
    rw [hpc]
    exact (misaligned_residue s _).2 ha
  · exact ⟨_, hrun.trans (if_neg fun e => h (hc.1 e)), hw, latch_pc_sequential rfl, hd.symm, fun _ => rfl, rfl, rfl⟩

/-- Settles O37: the six comparators decide the six conditions. -/
theorem branchResults : Obligations.BranchResults := by
  intro s rs1 rs2 imm hr i value cond hi
  have u := view_reg_toNat s
  have sg := view_reg_toInt s
  have heq : condEq s.xlen (s.reg rs1) (s.reg rs2) = true ↔ s.u rs1 = s.u rs2 := by rw [condEq_iff, u, u]
  have hlt : condLt s.xlen (s.reg rs1) (s.reg rs2) = true ↔ s.sg rs1 < s.sg rs2 := by rw [condLt_iff, sg, sg]
  have hltu : condLtu s.xlen (s.reg rs1) (s.reg rs2) = true ↔ s.u rs1 < s.u rs2 := by rw [condLtu_iff, u, u]
  have hne : condNe s.xlen (s.reg rs1) (s.reg rs2) = true ↔ s.u rs1 ≠ s.u rs2 := by
    rw [condNe, Bool.not_eq_true', Bool.eq_false_iff, ne_eq, heq]
  have hge : condGe s.xlen (s.reg rs1) (s.reg rs2) = true ↔ s.sg rs2 ≤ s.sg rs1 := by
    rw [condGe, Bool.not_eq_true', Bool.eq_false_iff, ne_eq, hlt, not_lt]
  have hgeu : condGeu s.xlen (s.reg rs1) (s.reg rs2) = true ↔ s.u rs2 ≤ s.u rs1 := by
    rw [condGeu, Bool.not_eq_true', Bool.eq_false_iff, ne_eq, hltu, not_lt]
  simp only [List.mem_cons, List.not_mem_nil, or_false, Prod.mk.injEq] at hi
  obtain ⟨rfl, rfl, rfl⟩ | ⟨rfl, rfl, rfl⟩ | ⟨rfl, rfl, rfl⟩ | ⟨rfl, rfl, rfl⟩ | ⟨rfl, rfl, rfl⟩ | ⟨rfl, rfl, rfl⟩ := hi
  · exact ⟨encodeB_masked .., branch_results rfl rfl rfl hr heq⟩
  · exact ⟨encodeB_masked .., branch_results rfl rfl rfl hr hne⟩
  · exact ⟨encodeB_masked .., branch_results rfl rfl rfl hr hlt⟩
  · exact ⟨encodeB_masked .., branch_results rfl rfl rfl hr hge⟩
  · exact ⟨encodeB_masked .., branch_results rfl rfl rfl hr hltu⟩
  · exact ⟨encodeB_masked .., branch_results rfl rfl rfl hr hgeu⟩

/-! ### A jump to itself (R259) -/

/-- An `XLEN`-bit word is the residue of its value. -/
theorem residue_toNat_of_lt {xl : Xlen} {a : Word} (h : a.toNat < 2 ^ xl.bits) : xl.residue a.toNat = a := by
  apply BitVec.eq_of_toNat_eq
  rw [Xlen.residue_toNat, Xlen.unsigned_natCast, Nat.mod_eq_of_lt h]

/-- The parking word is `JAL x0, 0`. -/
theorem decodeWord_park (xl : Xlen) : decodeWord xl 0x0000006F#32 = .ok (.jal 0 0) := by cases xl <;> decide

/-- Settles O38: the target of the jump is its own address, which the detector accepts. -/
theorem jumpToItselfParks : Obligations.JumpToItselfParks := by
  intro s hw hpc hal
  have hself : s.xlen.residue (s.pc.toNat + (0 : BitVec 21).toInt) = s.pc := by
    rw [show (0 : BitVec 21).toInt = 0 by decide, add_zero, residue_toNat_of_lt hpc]
  have haligned : s.aligned (s.pc.toNat + (0 : BitVec 21).toInt) := by
    by_contra h
    have hm := (misaligned_residue s _).2 h
    rw [hself, hal] at hm
    cases hm
  have hx0 : (s.call (.fetch s.pc)).hasRegisters [0] := by
    intro r hr
    rw [List.mem_singleton.1 hr]
    cases h : s.config.nregs <;> rw [State.call_config, h] <;> decide
  obtain ⟨-, htransfer, -⟩ := jalResults (s.call (.fetch s.pc)) 0 0 hx0
  obtain ⟨t, ht, heff⟩ := htransfer haligned
  have hd : recordOf s.xlen s.pc (.jal 0 0) = { tag := .JAL, pc := s.pc, rd := 0, rs1 := 0, rs2 := 0, imm := 0 } := by
    cases h : s.xlen <;> rfl
  refine ⟨t, (step_of_decodeWord (hw ▸ decodeWord_park s.xlen)).trans ht, fun r => ?_, heff.pc.trans hself, heff.inst.trans hd,
    heff.mem, heff.config, heff.calls⟩
  exact (heff.regs r).trans (if_neg fun h => h.2 rfl)

end Sys2Proof.Machine
end

section
/-! PROOFS. Loads and stores (44_load_store.md): accesses at an address known as an integer, the value a load extends, the bytes a store
leaves, and the traps of both. -/

namespace Sys2Proof.Machine

/-! ### Accesses at an integer address (R45, R49) -/

/-- An address depends on an integer through its residue. -/
theorem address_congr (s : State) {y z : Int} (h : y % 2 ^ s.xlen.bits = z % 2 ^ s.xlen.bits) : s.address y = s.address z := by
  rw [State.address, State.address, Xlen.unsigned, Xlen.unsigned, h]

theorem bytesValue_congr (s : State) {y z : Int} (h : y % 2 ^ s.xlen.bits = z % 2 ^ s.xlen.bits) (n : Nat) :
    s.bytesValue y n = s.bytesValue z n := by
  induction n generalizing y z with
  | zero => rfl
  | succ n ih => rw [State.bytesValue, State.bytesValue, address_congr s h, ih (Int.emod_add_cancel_right 1 |>.2 h)]

theorem bytesValue_lt (s : State) (z : Int) (n : Nat) : s.bytesValue z n < 2 ^ (8 * n) := by
  induction n generalizing z with
  | zero => exact Nat.one_pos
  | succ n ih =>
    have hb := (s.byte (s.address z)).isLt
    have hn := ih (z + 1)
    rw [State.bytesValue, Nat.mul_succ, pow_add]
    omega

/-- A read at the address of an integer. -/
theorem memRead_residue (s : State) (z : Int) (n : AccessSize) :
    (s.memRead (s.xlen.residue z) n).toNat = s.bytesValue z n.bytes := by
  rw [memRead_toNat]
  exact bytesValue_congr s (by rw [Xlen.coe_residue_toNat, Int.emod_emod]) _

/-- The address of byte `k` of an access at the address of an integer. -/
theorem byteAddress_residue (s : State) (z : Int) {k : Nat} (hk : k < 2 ^ 64) :
    byteAddress s.xlen (s.xlen.residue z) k = s.address (z + k) := by
  rw [byteAddress_eq s _ hk]
  exact address_congr s (by rw [Xlen.coe_residue_toNat, Int.emod_add_emod])

/-! ### Loads (R180 to R187) -/

theorem AccessSize.bits_le (n : AccessSize) : 8 * n.bytes ≤ 64 := by cases n <;> decide

/-- A signed load's extension is the two's-complement reading of the bytes read. -/
theorem signExtendLoad_memRead (s : State) (z : Int) (n : AccessSize) :
    signExtendLoad s.xlen n (s.memRead (s.xlen.residue z) n) =
      s.xlen.residue (signedReading (8 * n.bytes) (s.bytesValue z n.bytes)) := by
  rw [signExtendLoad, Xlen.sext_eq _ n.bits_le, toInt_eq_signedReading, BitVec.toNat_setWidth, memRead_residue,
    Nat.mod_eq_of_lt (bytesValue_lt ..)]

/-- An unsigned load's extension is the value of the bytes read. -/
theorem zeroExtendLoad_memRead (s : State) (z : Int) (n : AccessSize) :
    zeroExtendLoad s.xlen n (s.memRead (s.xlen.residue z) n) = s.xlen.residue (s.bytesValue z n.bytes) := by
  rw [zeroExtendLoad, Xlen.zext_eq _ n.bits_le, BitVec.toNat_setWidth, memRead_residue, Nat.mod_eq_of_lt (bytesValue_lt ..)]

/-- At the full width the two's-complement reading has the residue of the value (R187). -/
theorem residue_signedReading (xl : Xlen) (n : Nat) : xl.residue (signedReading xl.bits n) = xl.residue n := by
  apply Xlen.residue_congr
  unfold signedReading
  split
  · rfl
  · exact Int.sub_emod_right ..

section load

variable {i : Instr} {s : State} {n : AccessSize} {ext : Xlen → AccessSize → Word → Word} {tag : Tag} {rd rs1 : RegIdx}
  {imm : BitVec 12}

/-- A load with `rd` not 0 from an accepted address makes its read and writes `rd`. -/
theorem loads_of_aligned {v : Word} (he : executorOf i = loadFrom n ext)
    (hd : recordOf s.xlen s.pc i = recordI s.xlen tag s.pc rd rs1 imm) (ht : tagEnabled s.config i.tag = true)
    (hr : s.hasRegisters [rd, rs1]) (hrd : rd ≠ 0) (ha : s.aligned (s.u rs1 + imm.toInt))
    (hv : ext s.xlen n (s.memRead (s.xlen.residue (s.u rs1 + imm.toInt)) n) = v) :
    Loads i s (s.u rs1 + imm.toInt) n rd v := by
  have hx : indicesExist s.config.nregs (recordOf s.xlen s.pc i) = true := by
    rw [hd]
    exact indicesExist_of_hasRegisters hr (.inr (by simp [recordI])) (.inr (by simp [recordI])) (.inl rfl)
  have hea := effectiveAddress_latch (s := s) (d := recordI s.xlen tag s.pc rd rs1 imm) (by decide) rfl
  have hrun : exec i s = loadFrom n ext (s.latch (recordI s.xlen tag s.pc rd rs1 imm)) := by rw [exec_of_runs ht hx, he, hd]
  refine ⟨_, hrun.trans ((if_neg hrd).trans (if_neg ?_)), fun r => ?_, latch_pc_sequential rfl, hd.symm, fun _ => rfl, rfl, ?_⟩
  · rw [hea]
    exact Bool.eq_false_iff.1 (misaligned_of_aligned ha)
  · rw [hea, State.reg_wr, ← hv]
    rfl
  · rw [hea]
    rfl

/-- A load with `rd` not 0 from an address the detector rejects traps and makes no read (D31). -/
theorem load_traps_of_misaligned (he : executorOf i = loadFrom n ext)
    (hd : recordOf s.xlen s.pc i = recordI s.xlen tag s.pc rd rs1 imm) (ht : tagEnabled s.config i.tag = true)
    (hx : indicesExist s.config.nregs (recordI s.xlen tag s.pc rd rs1 imm) = true) (hrd : rd ≠ 0)
    (ha : ¬ s.aligned (s.u rs1 + imm.toInt)) : Traps i s .instructionAddressMisaligned := by
  refine traps_of_executor ht (hd ▸ hx) ?_
  rw [he, hd]
  refine (if_neg hrd).trans (if_pos ?_)
  rw [effectiveAddress_latch (by decide) rfl]
  exact (misaligned_residue s _).2 ha

end load

/-- Settles O39: one read of each width, signed or unsigned; at 64 bits the signed reading has the value's residue. -/
theorem loadResults : Obligations.LoadResults := by
  intro s rd rs1 imm hr hrd ea ha
  have signed := signExtendLoad_memRead s ea
  have unsigned := zeroExtendLoad_memRead s ea
  refine ⟨loads_of_aligned rfl rfl rfl hr hrd ha (signed .byte), loads_of_aligned rfl rfl rfl hr hrd ha (signed .half),
    loads_of_aligned rfl rfl rfl hr hrd ha (signed .word), loads_of_aligned rfl rfl rfl hr hrd ha (unsigned .byte),
    loads_of_aligned rfl rfl rfl hr hrd ha (unsigned .half), fun h64 => ?_⟩
  have i64 : ∀ t, groupOf t = .i64 → tagEnabled s.config t = true := fun t ht => by
    rw [tagEnabled_i64 ht]; exact beq_iff_eq.2 h64
  refine ⟨loads_of_aligned rfl rfl (i64 _ rfl) hr hrd ha (unsigned .word),
    loads_of_aligned rfl rfl (i64 _ rfl) hr hrd ha ((signed .double).trans ?_)⟩
  have hbits : 8 * AccessSize.double.bytes = s.xlen.bits := by rw [h64]; rfl
  rw [hbits, residue_signedReading]
  rfl

/-- A load's executor is the load executor of its width, and its record has no second source (R89). -/
theorem executorOf_load {i : Instr} {n : AccessSize} (h : loadSize i = some n) (xl : Xlen) (pc : Word) :
    (∃ ext, executorOf i = loadFrom n ext) ∧ (recordOf xl pc i).rs2 = 0 := by
  cases i <;> cases h
  all_goals exact ⟨⟨_, rfl⟩, rfl⟩

/-- Settles O40: the load executor tests `rd` first. -/
theorem loadWithoutDestinationTraps : Obligations.LoadWithoutDestinationTraps := by
  intro s i n hn hdest ht hr
  obtain ⟨⟨ext, he⟩, hrs2⟩ := executorOf_load hn s.xlen s.pc
  have hrd : (recordOf s.xlen s.pc i).rd = 0 := by rw [recordOf_rd, hdest]; rfl
  refine traps_of_executor ht (indicesExist_of_hasRegisters hr (.inl hrd) (.inr List.mem_cons_self) (.inl hrs2)) ?_
  rw [he]
  exact if_pos hrd

/-! ### Stores (R188 to R192) -/

/-- The data of a write is the value's low bytes (R44). -/
theorem AccessSize.data_eq (n : AccessSize) (v : Word) : n.data v = BitVec.ofNat 64 (v.toNat % 2 ^ (8 * n.bytes)) := by
  apply BitVec.eq_of_toNat_eq
  cases n
  case double =>
    have := v.isLt
    simp only [AccessSize.data, AccessSize.bytes, BitVec.toNat_ofNat]
    omega
  all_goals simp only [AccessSize.data, AccessSize.bytes, BitVec.toNat_setWidth, BitVec.toNat_ofNat]

/-- The low bytes of a register's value are those of the register (R9, R44). -/
theorem u_mod (s : State) (r : RegIdx) {k : Nat} (h : k ≤ s.xlen.bits) : s.u r % 2 ^ k = (s.reg r).toNat % 2 ^ k :=
  Nat.mod_mod_of_dvd _ (pow_dvd_pow 2 h)

/-- A byte inside the low `b` bits of a number is the byte of its residue. -/
theorem mod_div_mod {v a b : Nat} (h : a + 8 ≤ b) : v % 2 ^ b / 2 ^ a % 2 ^ 8 = v / 2 ^ a % 2 ^ 8 := by
  obtain ⟨c, rfl⟩ := Nat.exists_eq_add_of_le (Nat.le_of_add_right_le h)
  rw [pow_add, Nat.mod_mul_right_div_self, Nat.mod_mod_of_dvd _ (pow_dvd_pow 2 (by omega))]

section store

variable {i : Instr} {s : State} {n : AccessSize} {tag : Tag} {rs1 rs2 : RegIdx} {imm : BitVec 12}

/-- A store to an accepted address makes its write, where the width has that many bytes. -/
theorem stores_of_aligned (he : executorOf i = storeTo n)
    (hd : recordOf s.xlen s.pc i = recordS s.xlen tag s.pc rs1 rs2 imm) (ht : tagEnabled s.config i.tag = true)
    (hr : s.hasRegisters [rs1, rs2]) (ha : s.aligned (s.u rs1 + imm.toInt)) (hn : 8 * n.bytes ≤ s.xlen.bits) :
    Stores i s (s.u rs1 + imm.toInt) n (s.u rs2) := by
  have hx : indicesExist s.config.nregs (recordOf s.xlen s.pc i) = true := by
    rw [hd]
    exact indicesExist_of_hasRegisters hr (.inl rfl) (.inr (by simp [recordS])) (.inr (by simp [recordS]))
  have hea := effectiveAddress_latch (s := s) (d := recordS s.xlen tag s.pc rs1 rs2 imm) (by decide) rfl
  have hrun : exec i s =
      .next ((s.latch (recordS s.xlen tag s.pc rs1 rs2 imm)).memWrite (s.xlen.residue (s.u rs1 + imm.toInt)) n (s.reg rs2)) := by
    rw [exec_of_runs ht hx, he, hd, storeTo, hea]
    exact if_neg (Bool.eq_false_iff.1 (misaligned_of_aligned ha))
  have hb := n.bytes_le
  refine ⟨_, hrun, fun _ => rfl, latch_pc_sequential rfl, hd.symm, rfl, ?_, fun k hk => ?_, fun a hne => ?_⟩
  · rw [State.memWrite_calls, AccessSize.data_eq, u_mod s rs2 hn]
    rfl
  · have hbyte := readByte_writeFrom (xl := s.xlen) (m := s.mem) (a := s.xlen.residue (s.u rs1 + imm.toInt)) (v := s.reg rs2)
      (k := 0) hk (by omega)
    rw [Nat.zero_add, byteAddress_residue s _ (by omega)] at hbyte
    refine hbyte.trans (BitVec.eq_of_toNat_eq ?_)
    rw [BitVec.toNat_setWidth, BitVec.toNat_ushiftRight, Nat.shiftRight_eq_div_pow, BitVec.toNat_ofNat, State.u,
      mod_div_mod (by omega)]
  · refine State.byte_memWrite_of_ne fun k hk => ?_
    exact (hne k hk).trans_eq (byteAddress_residue s _ (by omega)).symm

/-- A store to an address the detector rejects traps and makes no write (D31). -/
theorem store_traps_of_misaligned (he : executorOf i = storeTo n)
    (hd : recordOf s.xlen s.pc i = recordS s.xlen tag s.pc rs1 rs2 imm) (ht : tagEnabled s.config i.tag = true)
    (hx : indicesExist s.config.nregs (recordS s.xlen tag s.pc rs1 rs2 imm) = true)
    (ha : ¬ s.aligned (s.u rs1 + imm.toInt)) : Traps i s .instructionAddressMisaligned := by
  refine traps_of_executor ht (hd ▸ hx) ?_
  rw [he, hd]
  refine if_pos ?_
  rw [effectiveAddress_latch (by decide) rfl]
  exact (misaligned_residue s _).2 ha

end store

/-- Settles O42: a write of each width that has no more bits than `XLEN`. -/
theorem storeResults : Obligations.StoreResults := by
  intro s rs1 rs2 imm hr ea ha
  have h32 := s.xlen.bits_ge
  refine ⟨stores_of_aligned rfl rfl rfl hr ha (le_trans (by decide) h32), stores_of_aligned rfl rfl rfl hr ha (le_trans (by decide) h32),
    stores_of_aligned rfl rfl rfl hr ha h32, fun h64 => stores_of_aligned rfl rfl ?_ hr ha ?_⟩
  · exact (tagEnabled_i64 rfl).trans (beq_iff_eq.2 h64)
  · rw [h64]; decide

/-- Settles O41: the detector rejects the one effective address of the seven loads and the four stores. -/
theorem misalignedAccessTraps : Obligations.MisalignedAccessTraps := by
  intro s rd rs1 rs2 imm ha hrd hr
  have load : ∀ {i n ext tag}, executorOf i = loadFrom n ext → recordOf s.xlen s.pc i = recordI s.xlen tag s.pc rd rs1 imm →
      tagEnabled s.config i.tag = true → Traps i s .instructionAddressMisaligned := fun he hd ht =>
    load_traps_of_misaligned he hd ht
      (indicesExist_of_hasRegisters hr (.inr (by simp [recordI])) (.inr (by simp [recordI])) (.inl rfl)) hrd ha
  have store : ∀ {i n tag}, executorOf i = storeTo n → recordOf s.xlen s.pc i = recordS s.xlen tag s.pc rs1 rs2 imm →
      tagEnabled s.config i.tag = true → Traps i s .instructionAddressMisaligned := fun he hd ht =>
    store_traps_of_misaligned he hd ht
      (indicesExist_of_hasRegisters hr (.inl rfl) (.inr (by simp [recordS])) (.inr (by simp [recordS]))) ha
  simp only [List.forall_mem_cons]
  exact ⟨load rfl rfl, load rfl rfl, load rfl rfl, load rfl rfl, load rfl rfl, load rfl rfl, load rfl rfl,
    store rfl rfl, store rfl rfl, store rfl rfl, store rfl rfl, nofun⟩

end Sys2Proof.Machine
end
